-- ==== Sys2Proof/Word.lean ====
section
/-! DEFINITION. The value types of 00_scope.md rule R8. -/

namespace Sys2Proof

/-- R8 `Symbol`: an unsigned 8-bit integer. Also the byte of SRC, DST and the scratch buffer. -/
abbrev Symbol := BitVec 8

/-- R8 `Code`: an unsigned integer in [0, 4095], the index of a dictionary entry. -/
abbrev Code := BitVec 12

/-- R8 `OptCode`: a Code, or NIL (`none`). The source's `None` and `Root` are this one NIL (90_conflicts.md C2). -/
abbrev OptCode := Option Code

/-- R8 `Count32`: an unsigned 32-bit integer, the source's `u32`. -/
abbrev Count32 := BitVec 32

/-- R8 `Width`, R23: the code width takes one of four values; 13 is never stored. -/
inductive Width where
  | w9
  | w10
  | w11
  | w12
  deriving DecidableEq, Repr

/-- The number of bits a width stands for. -/
def Width.bits : Width → Nat
  | .w9 => 9
  | .w10 => 10
  | .w11 => 11
  | .w12 => 12

end Sys2Proof
end

