-- ==== Sys2Proof/Config.lean ====
section
/-! DEFINITION. The fixed constants of 00_scope.md rule R6 (a model must not take them as arguments: 93 U14), and the
free values the spec leaves unspecified (93 U6, U8), which have no body: nothing can be proved of them. -/

namespace Sys2Proof.Config

/-- R6 FirstCode: dictionary size after reset, index of the first dynamic entry. -/
def firstCode : Nat := 256

/-- R6 MaxDictEntries: capacity of the dictionary. -/
def maxDictEntries : Nat := 4096

/-- R6 StartWidth: code width after reset. -/
def startWidth : Width := .w9

/-- R6 ScratchCapacity: capacity of the scratch buffer in bytes. -/
def scratchCapacity : Nat := 4096

/-- R6 SymbolBits: a symbol is a byte. -/
def symbolBits : Nat := 8

/-- DESIGN CHOICE (log 7, log 22): the value of a 32-bit register whose content the spec leaves unspecified
(93 U8; R42 for P_* and BR.* after a hardware reset), by the number of the draw. -/
opaque freeCount : Nat → Count32

/-- DESIGN CHOICE (log 7, log 22): the value of FAULT_CODE or DEC.code where the spec leaves it unspecified. -/
opaque freeCode : Nat → Code

/-- DESIGN CHOICE (log 8): the value of DEC.firstByte from a command's start until the first LIT (93 U6). -/
opaque freeByte : Nat → Symbol

/-- DESIGN CHOICE (log 22): byte i of the scratch buffer after a hardware reset (93 U9), by the number of the draw. -/
opaque freeScratch : Nat → Nat → Symbol

end Sys2Proof.Config
end

