-- ==== Sys2Proof/Syntax.lean ====
section
/-! DEFINITION. The instructions: one constructor per row of spec/opcode_table.json (30_encoding.md rules R82, R85). -/

namespace Sys2Proof

/-- The class of a fetched code word (30_encoding.md rule R76). -/
inductive WordClass where
  | lit
  | badlit
  | ref
  | kwk
  | oor
  deriving DecidableEq, Repr

/-- The operations of the codec. Each constructor is one row of the opcode table; its operands are the row's own. -/
inductive Instr where
  /-- LZW.ENCODE (R171). Operands stand in SRC, DST and P_INPUT_BYTES. -/
  | lzwEncode
  /-- LZW.DECODE (R172). Operands stand in SRC, DST and the P_* registers. -/
  | lzwDecode
  /-- BW.INIT (R90). -/
  | bwInit
  /-- BW.APPENDBIT(bit) (R91). -/
  | bwAppendbit (bit : Bool)
  /-- BW.APPENDBITS(value, width) (R92); any value and any width (92 D21). -/
  | bwAppendbits (value width : Nat)
  /-- BW.BYTECOUNT() (R93). -/
  | bwBytecount
  /-- BW.BITCOUNT() (R94). -/
  | bwBitcount
  /-- BW.RELEASE() (R95). -/
  | bwRelease
  /-- BR.OPEN(byteCapacity, validBits) (R100). -/
  | brOpen (byteCapacity validBits : Count32)
  /-- BR.READBIT() (R101). -/
  | brReadbit
  /-- BR.READBITS(width) (R102); any width (92 D21). -/
  | brReadbits (width : Nat)
  /-- BR.EOS() (R103). -/
  | brEos
  /-- DICT.RESET() (R111). -/
  | dictReset
  /-- DICT.FIND(parent, value) (R112). -/
  | dictFind (parent : OptCode) (value : Symbol)
  /-- DICT.ADD(parent, value) (R113); the parent is a Code, never NIL. -/
  | dictAdd (parent : Code) (value : Symbol)
  /-- DICT.GROW() (R114). -/
  | dictGrow
  /-- DICT.SEQ(code) (R115). -/
  | dictSeq (code : Code)
  /-- ENC.INIT (R131). -/
  | encInit
  /-- ENC.EXTEND of an input byte (R132). -/
  | encExtend (value : Symbol)
  /-- ENC.EMIT of an input byte (R133). -/
  | encEmit (value : Symbol)
  /-- ENC.FINISH (R134). -/
  | encFinish
  /-- DEC.INIT (R146). -/
  | decInit
  /-- DEC.FETCH (R148). -/
  | decFetch
  /-- DEC.LIT of the word in DEC.code (R149). -/
  | decLit
  /-- DEC.KWK of the word in DEC.code (R151). -/
  | decKwk
  /-- DEC.REF of the word in DEC.code (R152). -/
  | decRef
  /-- DEC.WRITE(bytes) (R153). -/
  | decWrite (bytes : List Symbol)
  /-- DEC.UPDATE (R154). -/
  | decUpdate
  /-- The 9-bit word `0vvvvvvvv` fetched as the first of an epoch (R76, R149). -/
  | cw9Lit (v : Symbol)
  /-- The 9-bit word `1cccccccc` fetched as the first of an epoch (R76, R189); its code is 256 + c. -/
  | cw9Badlit (c : BitVec 8)
  /-- A 9-bit word below DICT.size (R76, R152). -/
  | cw9Ref (c : Code)
  /-- A 9-bit word equal to DICT.size (R76, R151). -/
  | cw9Kwk (c : Code)
  /-- A 9-bit word above DICT.size (R76, R190). -/
  | cw9Oor (c : Code)
  /-- A 10-bit word below DICT.size. -/
  | cw10Ref (c : Code)
  /-- A 10-bit word equal to DICT.size. -/
  | cw10Kwk (c : Code)
  /-- A 10-bit word above DICT.size. -/
  | cw10Oor (c : Code)
  /-- An 11-bit word below DICT.size. -/
  | cw11Ref (c : Code)
  /-- An 11-bit word equal to DICT.size. -/
  | cw11Kwk (c : Code)
  /-- An 11-bit word above DICT.size. -/
  | cw11Oor (c : Code)
  /-- A 12-bit word below DICT.size. -/
  | cw12Ref (c : Code)
  /-- A 12-bit word equal to DICT.size. -/
  | cw12Kwk (c : Code)
  /-- A 12-bit word above DICT.size. -/
  | cw12Oor (c : Code)
  deriving DecidableEq, Repr

/-- The name that selects an operation (R82: "an operation is selected by its name"). -/
def Instr.mnemonic : Instr → String
  | .lzwEncode => "LZW.ENCODE"
  | .lzwDecode => "LZW.DECODE"
  | .bwInit => "BW.INIT"
  | .bwAppendbit _ => "BW.APPENDBIT"
  | .bwAppendbits _ _ => "BW.APPENDBITS"
  | .bwBytecount => "BW.BYTECOUNT"
  | .bwBitcount => "BW.BITCOUNT"
  | .bwRelease => "BW.RELEASE"
  | .brOpen _ _ => "BR.OPEN"
  | .brReadbit => "BR.READBIT"
  | .brReadbits _ => "BR.READBITS"
  | .brEos => "BR.EOS"
  | .dictReset => "DICT.RESET"
  | .dictFind _ _ => "DICT.FIND"
  | .dictAdd _ _ => "DICT.ADD"
  | .dictGrow => "DICT.GROW"
  | .dictSeq _ => "DICT.SEQ"
  | .encInit => "ENC.INIT"
  | .encExtend _ => "ENC.EXTEND"
  | .encEmit _ => "ENC.EMIT"
  | .encFinish => "ENC.FINISH"
  | .decInit => "DEC.INIT"
  | .decFetch => "DEC.FETCH"
  | .decLit => "DEC.LIT"
  | .decKwk => "DEC.KWK"
  | .decRef => "DEC.REF"
  | .decWrite _ => "DEC.WRITE"
  | .decUpdate => "DEC.UPDATE"
  | .cw9Lit _ => "CW9.LIT"
  | .cw9Badlit _ => "CW9.BADLIT"
  | .cw9Ref _ => "CW9.REF"
  | .cw9Kwk _ => "CW9.KWK"
  | .cw9Oor _ => "CW9.OOR"
  | .cw10Ref _ => "CW10.REF"
  | .cw10Kwk _ => "CW10.KWK"
  | .cw10Oor _ => "CW10.OOR"
  | .cw11Ref _ => "CW11.REF"
  | .cw11Kwk _ => "CW11.KWK"
  | .cw11Oor _ => "CW11.OOR"
  | .cw12Ref _ => "CW12.REF"
  | .cw12Kwk _ => "CW12.KWK"
  | .cw12Oor _ => "CW12.OOR"

end Sys2Proof
end

