-- ==== Sys2Proof/WellFormed.lean ====
section
/-! DEFINITION. Well-formed instructions: the operand of a code word fits the word's format (30_encoding.md rule R71).
Every other operand bound is in the operand's type. -/

namespace Sys2Proof

/-- R71: a code word of format CWw holds a code below 2^w. -/
def codeFits (w : Width) (c : Code) : Bool := decide (c.toNat < 2 ^ w.bits)

/-- The check on an instruction's operands. -/
def Instr.wf : Instr → Bool
  | .cw9Ref c => codeFits .w9 c
  | .cw9Kwk c => codeFits .w9 c
  | .cw9Oor c => codeFits .w9 c
  | .cw10Ref c => codeFits .w10 c
  | .cw10Kwk c => codeFits .w10 c
  | .cw10Oor c => codeFits .w10 c
  | .cw11Ref c => codeFits .w11 c
  | .cw11Kwk c => codeFits .w11 c
  | .cw11Oor c => codeFits .w11 c
  | .cw12Ref c => codeFits .w12 c
  | .cw12Kwk c => codeFits .w12 c
  | .cw12Oor c => codeFits .w12 c
  | .lzwEncode => true
  | .lzwDecode => true
  | .bwInit => true
  | .bwAppendbit _ => true
  | .bwAppendbits _ _ => true
  | .bwBytecount => true
  | .bwBitcount => true
  | .bwRelease => true
  | .brOpen _ _ => true
  | .brReadbit => true
  | .brReadbits _ => true
  | .brEos => true
  | .dictReset => true
  | .dictFind _ _ => true
  | .dictAdd _ _ => true
  | .dictGrow => true
  | .dictSeq _ => true
  | .encInit => true
  | .encExtend _ => true
  | .encEmit _ => true
  | .encFinish => true
  | .decInit => true
  | .decFetch => true
  | .decLit => true
  | .decKwk => true
  | .decRef => true
  | .decWrite _ => true
  | .decUpdate => true
  | .cw9Lit _ => true
  | .cw9Badlit _ => true

end Sys2Proof
end

