-- ==== Sys2Proof/Decode.lean ====
section
/-! DEFINITION. The decoder of code words and input bytes, and after it the encoder, both from 30_encoding.md rules R71, R72,
R76, R81. A pattern of bits alone does not name a row (R76: the class is decided "by its state at the fetch"), so the decoder
takes that context. -/

namespace Sys2Proof

/-- Bits of a byte, bit 0 (value 1) first (20_memory.md rule R52). -/
def byteBits (b : Symbol) : List Bool :=
  (List.range 8).map b.getLsbD

/-- The packed stream of a byte sequence: stream bit n is bit n mod 8 of byte n div 8 (R52). -/
def streamBits (bytes : List Symbol) : List Bool :=
  bytes.flatMap byteBits

/-- The unsigned value of a bit sequence, first bit least significant (R72: the sum of bit(n + b) << b). -/
def bitsValue : List Bool → Nat
  | [] => 0
  | b :: rest => b.toNat + 2 * bitsValue rest

/-- The low `w` bits of `n`, least significant first (R72: "writes `width` low-order bits of `value`, least-significant
first"). -/
def valueBits (w n : Nat) : List Bool :=
  (List.range w).map n.testBit

/-- The root code of a symbol (R75: a code below 256 stands for the single byte of that value). -/
def rootCode (v : Symbol) : Code := v.setWidth 12

/-- The code of the word `1cccccccc`: 256 + c (opcode_table.json, CW9.BADLIT). -/
def badlitCode (c : BitVec 8) : Code := BitVec.ofNat 12 (256 + c.toNat)

/-- R76, 44_decoder.md rule R150: the class of a code, by whether DEC.prevCode is NIL and by DICT.size. -/
def classify (prevNil : Bool) (size : Nat) (c : Code) : WordClass :=
  if prevNil then
    if 256 ≤ c.toNat then .badlit else .lit
  else if size < c.toNat then .oor
  else if c.toNat = size then .kwk
  else .ref

/-- What the state at the fetch says of the next bits: an input byte of the encoder and whether DICT.FIND finds
(ENC.code, value) (R81), or a code word of the decoder, with WIDTH, whether DEC.prevCode is NIL, and DICT.size (R73, R76). -/
inductive Ctx where
  | symbol (found : Bool)
  | word (width : Width) (prevNil : Bool) (size : Nat)
  deriving DecidableEq, Repr

/-- Why bits name no row. -/
inductive DecodeError where
  /-- No bit is left: the decoder fetches nothing at the end of the stream (R147). -/
  | endOfStream
  /-- Fewer than the 8 bits of an input byte are there. -/
  | shortSymbol
  /-- DEC.prevCode is NIL and WIDTH is not 9: the table has no such row, and no reachable state is so (R41 item f). -/
  | noRow
  deriving DecidableEq, Repr

/-- The row of the opcode table for a code of a class at a width, where the table has one (R76). -/
def rowFor : Width → WordClass → Code → Option Instr
  | .w9, .lit, c => some (.cw9Lit (c.setWidth 8))
  | .w9, .badlit, c => some (.cw9Badlit (c.setWidth 8))
  | .w9, .ref, c => some (.cw9Ref c)
  | .w9, .kwk, c => some (.cw9Kwk c)
  | .w9, .oor, c => some (.cw9Oor c)
  | .w10, .ref, c => some (.cw10Ref c)
  | .w10, .kwk, c => some (.cw10Kwk c)
  | .w10, .oor, c => some (.cw10Oor c)
  | .w11, .ref, c => some (.cw11Ref c)
  | .w11, .kwk, c => some (.cw11Kwk c)
  | .w11, .oor, c => some (.cw11Oor c)
  | .w12, .ref, c => some (.cw12Ref c)
  | .w12, .kwk, c => some (.cw12Kwk c)
  | .w12, .oor, c => some (.cw12Oor c)
  | .w10, .lit, _ => none
  | .w10, .badlit, _ => none
  | .w11, .lit, _ => none
  | .w11, .badlit, _ => none
  | .w12, .lit, _ => none
  | .w12, .badlit, _ => none

/-- Decode the next instruction from a bit sequence, and give the rest. A code word takes WIDTH bits, or the fewer that are
left, with zeros above them (R80, R148). -/
def decode (ctx : Ctx) (bits : List Bool) : Except DecodeError (Instr × List Bool) :=
  match ctx with
  | .symbol found =>
    if bits.length < Config.symbolBits then .error .shortSymbol
    else
      let v : Symbol := BitVec.ofNat 8 (bitsValue (bits.take Config.symbolBits))
      .ok (if found then .encExtend v else .encEmit v, bits.drop Config.symbolBits)
  | .word width prevNil size =>
    if bits.isEmpty then .error .endOfStream
    else
      let c : Code := BitVec.ofNat 12 (bitsValue (bits.take width.bits))
      match rowFor width (classify prevNil size c) c with
      | some i => .ok (i, bits.drop width.bits)
      | none => .error .noRow

/-- Decode from bytes: total on any byte sequence. -/
def decodeBytes (ctx : Ctx) (bytes : List Symbol) : Except DecodeError (Instr × List Bool) :=
  decode ctx (streamBits bytes)

/-- The bits of an instruction that has an encoding (R71, R81); the named operations have none (R82, R85). -/
def encode : Instr → Option (List Bool)
  | .encExtend v => some (valueBits 8 v.toNat)
  | .encEmit v => some (valueBits 8 v.toNat)
  | .cw9Lit v => some (valueBits 9 (rootCode v).toNat)
  | .cw9Badlit c => some (valueBits 9 (badlitCode c).toNat)
  | .cw9Ref c => some (valueBits 9 c.toNat)
  | .cw9Kwk c => some (valueBits 9 c.toNat)
  | .cw9Oor c => some (valueBits 9 c.toNat)
  | .cw10Ref c => some (valueBits 10 c.toNat)
  | .cw10Kwk c => some (valueBits 10 c.toNat)
  | .cw10Oor c => some (valueBits 10 c.toNat)
  | .cw11Ref c => some (valueBits 11 c.toNat)
  | .cw11Kwk c => some (valueBits 11 c.toNat)
  | .cw11Oor c => some (valueBits 11 c.toNat)
  | .cw12Ref c => some (valueBits 12 c.toNat)
  | .cw12Kwk c => some (valueBits 12 c.toNat)
  | .cw12Oor c => some (valueBits 12 c.toNat)
  | .lzwEncode => none
  | .lzwDecode => none
  | .bwInit => none
  | .bwAppendbit _ => none
  | .bwAppendbits _ _ => none
  | .bwBytecount => none
  | .bwBitcount => none
  | .bwRelease => none
  | .brOpen _ _ => none
  | .brReadbit => none
  | .brReadbits _ => none
  | .brEos => none
  | .dictReset => none
  | .dictFind _ _ => none
  | .dictAdd _ _ => none
  | .dictGrow => none
  | .dictSeq _ => none
  | .encInit => none
  | .encFinish => none
  | .decInit => none
  | .decFetch => none
  | .decLit => none
  | .decKwk => none
  | .decRef => none
  | .decWrite _ => none
  | .decUpdate => none

/-- The row's own condition in opcode_table.json, over the context of the fetch, and the operand's fit. -/
def selects : Ctx → Instr → Bool
  | .symbol found, .encExtend _ => found
  | .symbol found, .encEmit _ => !found
  | .word w nil _, .cw9Lit _ => w = .w9 && nil
  | .word w nil _, .cw9Badlit _ => w = .w9 && nil
  | .word w nil size, .cw9Ref c => w = .w9 && !nil && decide (c.toNat < size)
  | .word w nil size, .cw9Kwk c => w = .w9 && !nil && decide (c.toNat = size)
  | .word w nil size, .cw9Oor c => w = .w9 && !nil && decide (size < c.toNat)
  | .word w nil size, .cw10Ref c => w = .w10 && !nil && decide (c.toNat < size)
  | .word w nil size, .cw10Kwk c => w = .w10 && !nil && decide (c.toNat = size)
  | .word w nil size, .cw10Oor c => w = .w10 && !nil && decide (size < c.toNat)
  | .word w nil size, .cw11Ref c => w = .w11 && !nil && decide (c.toNat < size)
  | .word w nil size, .cw11Kwk c => w = .w11 && !nil && decide (c.toNat = size)
  | .word w nil size, .cw11Oor c => w = .w11 && !nil && decide (size < c.toNat)
  | .word w nil size, .cw12Ref c => w = .w12 && !nil && decide (c.toNat < size)
  | .word w nil size, .cw12Kwk c => w = .w12 && !nil && decide (c.toNat = size)
  | .word w nil size, .cw12Oor c => w = .w12 && !nil && decide (size < c.toNat)
  | _, _ => false

/-- The two bytes, low byte first, of a table word of up to 16 bits (R52). -/
def tableBytes (w : Nat) : List Symbol := [BitVec.ofNat 8 w, BitVec.ofNat 8 (w / 256)]

/-- The instruction the decoder reads from a word of the opcode table, in the context in which a program's first word
meets it (log 14): 8 bits are the encoder's first input byte (ENC.code is NIL, so DICT.FIND succeeds, R112 case a), more
bits the decoder's first code word (WIDTH 9, DEC.prevCode NIL, DICT.size 256). -/
def decodeTableWord (nbits w : Nat) : Option Instr :=
  if nbits ≤ 8 then
    ((decodeBytes (.symbol true) [BitVec.ofNat 8 w]).toOption).map Prod.fst
  else
    ((decodeBytes (.word Config.startWidth true Config.firstCode) (tableBytes w)).toOption).map Prod.fst

end Sys2Proof
end

