-- ==== Sys2Proof/Machine/State.lean ====
section
/-! DEFINITION. The state of the codec (10_state.md rule R20: "exactly the following, and nothing else"), the reasons a step
can stop, and the state after reset (R42, R210). -/

namespace Sys2Proof.Machine

/-- A dictionary entry `(parent, value)` (R22, 42_dictionary.md rule R110). -/
structure Entry where
  parent : OptCode
  value : Symbol
  deriving DecidableEq, Repr

/-- A byte buffer, SRC or DST: (offset, byte) pairs, offsets strictly rising. An offset that is not listed holds no value
(log 5). -/
abbrev Memory := List Host.Cell

/-- R37 STATUS. -/
inductive Status where
  | idle
  | busy
  | done
  | fault
  deriving DecidableEq, Repr

/-- R37 CAUSE, 60_exceptions.md rule R194: the causes by name; `Cause.number` gives the code. -/
inductive Cause where
  | none
  | badLiteral
  | codeOutOfRange
  | outputOverflow
  | badParameters
  | bitCountOverflow
  deriving DecidableEq, Repr

/-- The two host commands (R170). -/
inductive Command where
  | encode
  | decode
  deriving DecidableEq, Repr

/-- The two forms in which R5 lets a model run a command (log 1). -/
inductive Form where
  /-- One atomic transaction from start state to end state. -/
  | transaction
  /-- A sequence of steps: one input byte or one code word each. -/
  | stepwise
  deriving DecidableEq, Repr

/-- The parameter registers (R35), by name. -/
inductive Param where
  | inputBytes
  | compBytes
  | compBits
  | expectedBytes
  deriving DecidableEq, Repr

/-- What the host can do (45_host_interface.md; log 12). -/
inductive HostMove where
  /-- Nothing: the codec goes on by one step. -/
  | wait
  /-- Write a parameter register (R35). -/
  | setParam (p : Param) (v : Count32)
  /-- Place a byte sequence in SRC from offset 0 (R212). -/
  | placeSrc (bytes : List Symbol)
  /-- Supply the DST of the next command; for an encode `cap` is ENC_DST_CAP, `none` is `unbounded` (R65, R212). -/
  | supplyDst (cap : Option Nat)
  /-- Give a command (R170). -/
  | give (form : Form) (c : Command)
  /-- Hardware reset (R174, R210). -/
  | hwReset
  deriving DecidableEq, Repr

/-- The result of a unit operation that returns one (R93 to R95, R101 to R103, R112 to R115; log 11). -/
inductive OpResult where
  | none
  /-- BR.READBIT: a bit, or `end` (`none`). -/
  | bit (b : Option Bool)
  /-- BW.BYTECOUNT, BW.BITCOUNT, BR.READBITS. -/
  | count (n : Nat)
  /-- BR.EOS, DICT.ADD, DICT.GROW. -/
  | flag (b : Bool)
  /-- DICT.FIND: a code, or NotFound (`none`). -/
  | code (c : Option Code)
  /-- BW.RELEASE. -/
  | bytes (bs : List Symbol)
  /-- DICT.SEQ: the sequence and its first byte. -/
  | seq (bs : List Symbol) (firstByte : Symbol)
  deriving DecidableEq, Repr

/-- Why the machine stops without a next state. The codec's own five faults are NOT here: they are next states with STATUS =
FAULT (R197). -/
inductive Fault where
  /-- Raised by BR.READBIT, BR.READBITS, DEC.FETCH, the two commands and the sequencer when they read a byte of SRC that the
  host has not placed (R212). Safe: the machine stops where the hardware would read some byte (log 5). -/
  | srcUnwritten
  /-- Raised by BW.APPENDBIT, BW.RELEASE and what calls them when they read a byte of DST that the codec has not written. Safe;
  no command meets it (log 5). -/
  | dstUnwritten
  /-- Raised by DICT.SEQ and DEC.KWK, DEC.REF on a code that is not populated: "the operation has no meaning" (R115). Safe; no
  command meets it (log 17). -/
  | seqUnpopulated
  /-- Raised by DICT.SEQ and DEC.KWK, DEC.REF when a walk would leave the scratch buffer (91 N15). Safe; no command meets it
  (R117, log 17). -/
  | scratchOverflow
  /-- Raised by ENC.EMIT, DEC.UPDATE, DEC.KWK when the register that must hold a Code holds NIL (R119, R137). Safe; no command
  meets it (log 18). -/
  | nilCode
  deriving DecidableEq, Repr

/-- Why the machine has no meaning for what it is asked to do. -/
inductive Refusal where
  /-- Raised by exec's arm of an instruction that has no meaning yet. Safe. -/
  | notModelled (mnemonic : String)
  /-- Raised by a row that shares its encoding with others, in a state where its condition in opcode_table.json does not hold:
  the sequencer never selects it there (R76, R81). Safe (log 13). -/
  | notSelected
  /-- Raised by a host move on SRC, DST or a parameter register while STATUS is BUSY: the spec gives the host no such move (R59,
  R213, 93 U10). Safe (log 12). -/
  | hostMoveWhileBusy
  deriving DecidableEq, Repr

/-- R111, R42: root entry i has parent NIL and value i. -/
def rootEntry (i : Nat) : Entry := { parent := none, value := BitVec.ofNat 8 i }

/-- R42: the dictionary after a reset: entries 0 to 255 are the roots, no other is populated. -/
def rootTable : List Entry := (List.range Config.firstCode).map rootEntry

/-- The state. Widths are those of 10_state.md; INVENTORY.md lists every field with its rule. -/
structure State where
  /-- D.parent, D.value of the populated entries, by index (R22); its length is DICT.size (R21; log 2). -/
  dict : List Entry
  /-- WIDTH (R23). -/
  width : Width
  /-- ENC.code (R24). -/
  encCode : OptCode
  /-- ENC.inPos (R25). -/
  encInPos : Count32
  /-- DEC.prevCode (R26). -/
  decPrevCode : OptCode
  /-- DEC.firstByte (R27). -/
  decFirstByte : Symbol
  /-- DEC.bytesWritten (R28). -/
  decBytesWritten : Count32
  /-- DEC.code (R29). -/
  decCode : Code
  /-- BW.bitsWritten (R30). -/
  bwBitsWritten : Count32
  /-- BR.bitsRead (R31). -/
  brBitsRead : Count32
  /-- BR.validBits (R31). -/
  brValidBits : Count32
  /-- BR.byteCapacity (R31). -/
  brByteCapacity : Count32
  /-- The scratch buffer S[0..4095] (R32). -/
  scratch : List Symbol
  /-- P_INPUT_BYTES (R35). -/
  pInputBytes : Count32
  /-- P_COMP_BYTES (R35). -/
  pCompBytes : Count32
  /-- P_COMP_BITS (R35). -/
  pCompBits : Count32
  /-- P_EXPECTED_BYTES (R35). -/
  pExpectedBytes : Count32
  /-- R_COMP_BITS (R36). -/
  rCompBits : Count32
  /-- R_COMP_BYTES (R36). -/
  rCompBytes : Count32
  /-- R_OUT_BYTES (R36). -/
  rOutBytes : Count32
  /-- STATUS (R37). -/
  status : Status
  /-- CAUSE (R37). -/
  cause : Cause
  /-- FAULT_CODE (R37). -/
  faultCode : Code
  /-- FAULT_POS (R37). -/
  faultPos : Count32
  /-- SRC (R38, R50). -/
  src : Memory
  /-- DST (R38, R50). -/
  dst : Memory
  /-- ENC_DST_CAP: the capacity of the DST the host supplied for an encode, `none` is `unbounded` (R7, R65; log 9). -/
  encDstCap : Option Nat
  /-- The command that BUSY is busy with, or that ended last (R171 to R174; log 10). -/
  command : Command
  /-- The result of the last unit operation that returned one (log 11). -/
  result : OpResult
  /-- The moves the host is about to make, first one first (log 12). -/
  inbox : List HostMove
  /-- The number of the next free value (log 7). -/
  freeTick : Nat
  deriving DecidableEq, Repr

/-- R21 DICT.size: the count of populated entries. -/
def State.dictSize (s : State) : Nat := s.dict.length

/-- The machine right after reset (R42, R210); a register R42 leaves unspecified is 0 (log 3, log 4), and the model's own
fields are as log 9 to log 12 say. -/
def State.reset : State where
  dict := rootTable
  width := Config.startWidth
  encCode := none
  encInPos := 0
  decPrevCode := none
  decFirstByte := 0
  decBytesWritten := 0
  decCode := 0
  bwBitsWritten := 0
  brBitsRead := 0
  brValidBits := 0
  brByteCapacity := 0
  scratch := List.replicate Config.scratchCapacity 0
  pInputBytes := 0
  pCompBytes := 0
  pCompBits := 0
  pExpectedBytes := 0
  rCompBits := 0
  rCompBytes := 0
  rOutBytes := 0
  status := .idle
  cause := .none
  faultCode := 0
  faultPos := 0
  src := []
  dst := []
  encDstCap := none
  command := .encode
  result := .none
  inbox := []
  freeTick := 0

end Sys2Proof.Machine
end

