-- ==== Sys2Proof/Machine/Ops.lean ====
section
/-! DEFINITION. The operations every family shares: one byte of a buffer, the outcome of an operation, the start of a command,
taking a fault of the codec (60_exceptions.md rule R197), and the way back from one (R198). -/

namespace Sys2Proof.Machine

/-! ## Buffers (20_memory.md rules R50, R51, R55) -/

/-- `MemRead(buffer + a, 1)`: the byte at offset a, or `none` where the buffer holds no value (log 5). -/
def Memory.read : Memory → Nat → Option Symbol
  | [], _ => none
  | (b, v) :: rest, a => if b = a then some v else Memory.read rest a

/-- `MemWrite(buffer + a, 1, v)`: store v at offset a, keeping the offsets strictly rising. -/
def Memory.write : Memory → Nat → Symbol → Memory
  | [], a, v => [(a, v)]
  | (b, u) :: rest, a, v =>
    if a < b then (a, v) :: (b, u) :: rest
    else if a = b then (a, v) :: rest
    else (b, u) :: Memory.write rest a v

/-- The canonical form: offsets strictly rising. -/
def Memory.wf : Memory → Bool
  | [] => true
  | [_] => true
  | (a, _) :: (b, v) :: rest => decide (a < b) && Memory.wf ((b, v) :: rest)

/-- The bytes at offsets a, a+1, ..., where each must hold a value. -/
def Memory.readRange (m : Memory) : Nat → Nat → Option (List Symbol)
  | _, 0 => some []
  | a, n + 1 => do
    let v ← m.read a
    let rest ← m.readRange (a + 1) n
    pure (v :: rest)

/-- A byte sequence as a buffer, from offset `a`. -/
def Memory.ofBytesFrom : Nat → List Symbol → Memory
  | _, [] => []
  | a, v :: rest => (a, v) :: Memory.ofBytesFrom (a + 1) rest

/-- A byte sequence as a buffer, from offset 0. -/
def Memory.ofBytes (bytes : List Symbol) : Memory := Memory.ofBytesFrom 0 bytes

/-- R72 bit(m): bit m mod 8 of the byte at offset m div 8 (R52). -/
def Memory.bitAt (m : Memory) (n : Nat) : Option Bool :=
  (m.read (n / 8)).map fun byte => byte.getLsbD (n % 8)

/-! ## The outcome of an operation -/

/-- What an operation of the codec comes to. -/
inductive Flow (α : Type) where
  /-- The operation ended with a result. -/
  | ret (a : α) (s : State)
  /-- `raise <Fault>(info)`: the command has ended with a fault of the codec; no later line runs (R10, R197). -/
  | raised (s : State)
  /-- The model stops. -/
  | stop (r : Fault)

/-- Run the next line after an operation that ended; a raised fault or a stop skips it (R197: "nothing after it has"). -/
def Flow.bind {α β : Type} : Flow α → (α → State → Flow β) → Flow β
  | .ret a s, f => f a s
  | .raised s, _ => .raised s
  | .stop r, _ => .stop r

/-- The outcome of an operation without a result. -/
def Flow.done : Flow Unit → Host.Outcome State Fault Refusal
  | .ret _ s => .next s
  | .raised s => .next s
  | .stop r => .fault r

/-- The outcome of an operation with a result, which `result` then holds (log 11). -/
def Flow.report {α : Type} (asResult : α → OpResult) : Flow α → Host.Outcome State Fault Refusal
  | .ret a s => .next { s with result := asResult a }
  | .raised s => .next s
  | .stop r => .fault r

/-! ## Faults of the codec (60_exceptions.md) -/

/-- The faults of R189 to R193 with what each records. -/
inductive CodecFault where
  /-- R189: the word's value and the stream bit number of its first bit. -/
  | badLiteral (code : Code) (position : Count32)
  /-- R190: the word's value and the stream bit number of its first bit. -/
  | codeOutOfRange (code : Code) (position : Count32)
  /-- R191. -/
  | outputOverflow
  /-- R192. -/
  | badParameters
  /-- R193. -/
  | bitCountOverflow
  deriving DecidableEq, Repr

/-- The number CAUSE shows (R194). -/
def Cause.number : Cause → Nat
  | .none => 0
  | .badLiteral => 1
  | .codeOutOfRange => 2
  | .outputOverflow => 3
  | .badParameters => 4
  | .bitCountOverflow => 5

/-- The cause of a fault (R194). -/
def CodecFault.cause : CodecFault → Cause
  | .badLiteral _ _ => .badLiteral
  | .codeOutOfRange _ _ => .codeOutOfRange
  | .outputOverflow => .outputOverflow
  | .badParameters => .badParameters
  | .bitCountOverflow => .bitCountOverflow

/-- FAULT_CODE after a fault: set for causes 1 and 2 (R194, R197). -/
def CodecFault.codeOr (f : CodecFault) (old : Code) : Code :=
  match f with
  | .badLiteral code _ => code
  | .codeOutOfRange code _ => code
  | .outputOverflow => old
  | .badParameters => old
  | .bitCountOverflow => old

/-- FAULT_POS after a fault: set for causes 1 and 2 (R194, R197). -/
def CodecFault.posOr (f : CodecFault) (old : Count32) : Count32 :=
  match f with
  | .badLiteral _ position => position
  | .codeOutOfRange _ position => position
  | .outputOverflow => old
  | .badParameters => old
  | .bitCountOverflow => old

/-- Fault entry (R197): STATUS <- FAULT, CAUSE <- the code of R194, FAULT_CODE and FAULT_POS set for causes 1 and 2. Nothing
is saved anywhere else, control goes nowhere, and what stood before the faulting line stays ("everything before the faulting
line has taken effect"). The host has no result to read: `hostBytes` and its like give none (R197, 93 U8; log 6). -/
def raiseFault (f : CodecFault) (s : State) : State :=
  { s with
    status := .fault
    cause := f.cause
    faultCode := f.codeOr s.faultCode
    faultPos := f.posOr s.faultPos }

/-! ## The start of a command: the way back from a fault -/

/-- The first lines of R171 and R172: STATUS <- BUSY, CAUSE <- 0, whatever came before (R198: "the next command starts from
the fresh state ... and clears CAUSE"). The result registers, FAULT_CODE, FAULT_POS hold free values from here (93 U8; log 7),
and the DST supplied for this command holds no value (R212, 93 U7; log 6). -/
def beginCommand (c : Command) (s : State) : State :=
  { s with
    status := .busy
    cause := .none
    command := c
    rCompBits := Config.freeCount s.freeTick
    rCompBytes := Config.freeCount (s.freeTick + 1)
    rOutBytes := Config.freeCount (s.freeTick + 2)
    faultCode := Config.freeCode s.freeTick
    faultPos := Config.freeCount (s.freeTick + 3)
    dst := []
    freeTick := s.freeTick + 4 }

end Sys2Proof.Machine
end

