-- ==== Sys2Proof/Machine/Operands.lean ====
section
/-! DEFINITION. The operand forms: a bit of a value, a code or an OptCode, the code and the symbol a word stands for, and the
bits at the position of the next fetch (30_encoding.md rules R71, R72, R76, R81). -/

namespace Sys2Proof.Machine

/-- R92: `(value >> b) & 1`. -/
def valueBit (value b : Nat) : Bool := value.testBit b

/-- R91: `(old & ~(1 << p)) | (bit << p)` on a byte. -/
def setBit (old : Symbol) (p : Nat) (bit : Bool) : Symbol :=
  (old &&& ~~~((1 : Symbol) <<< p)) ||| (BitVec.ofNat 8 bit.toNat <<< p)

/-- The symbol a root code stands for: its low 8 bits (R75). -/
def codeSymbol (c : Code) : Symbol := c.setWidth 8

/-- R112: an index the lookup found, as a Code. -/
def indexCode (i : Nat) : Code := BitVec.ofNat 12 i

/-- R102: a value read at a width, as the 12-bit DEC.code. -/
def fetchedCode (v : Nat) : Code := BitVec.ofNat 12 v

/-- The input byte at ENC.inPos (R132, R133: `MemRead(SRC + ENC.inPos, 1)`). -/
def inputByte (s : State) : Option Symbol := s.src.read s.encInPos.toNat

/-- The bits of SRC at stream bits n, n+1, ... (R72). -/
def srcBits (src : Memory) : Nat → Nat → Option (List Bool)
  | _, 0 => some []
  | n, k + 1 => do
    let b ← src.bitAt n
    let rest ← srcBits src (n + 1) k
    pure (b :: rest)

/-- How many bits a fetch of `width` bits takes: the width, or the fewer valid bits that are left (R80, R102). -/
def fetchLength (width : Nat) (s : State) : Nat :=
  min width (s.brValidBits.toNat - s.brBitsRead.toNat)

/-- The bits of the next code word (R72, R80). -/
def nextWordBits (s : State) : Option (List Bool) :=
  srcBits s.src s.brBitsRead.toNat (fetchLength s.width.bits s)

end Sys2Proof.Machine
end

