-- ==== Sys2Proof/Machine/Flags.lean ====
section
/-! DEFINITION. The conditions that steer the codec. It stores no condition codes: each is computed where it is used
(10_state.md rule R34). -/

namespace Sys2Proof.Machine

/-- `isEndOfStream()`: BR.bitsRead >= BR.validBits (R34, R103). -/
def endOfStream (s : State) : Bool := decide (s.brValidBits.toNat ≤ s.brBitsRead.toNat)

/-- R147: `(not BR.EOS()) and (DEC.bytesWritten < P_EXPECTED_BYTES)`. -/
def decContinue (s : State) : Bool :=
  !endOfStream s && decide (s.decBytesWritten.toNat < s.pExpectedBytes.toNat)

/-- R136: `ENC.inPos < P_INPUT_BYTES`. -/
def encContinue (s : State) : Bool := decide (s.encInPos.toNat < s.pInputBytes.toNat)

/-- R150: the class of a code word in this state. -/
def classOf (s : State) (c : Code) : WordClass := classify s.decPrevCode.isNone s.dictSize c

/-- R114: the width check, `DICT.size == 2^WIDTH`. -/
def widthCheck (s : State) : Bool := decide (s.dictSize = 2 ^ s.width.bits)

/-- R91: the target byte lies at an offset of ENC_DST_CAP or more. -/
def beyondCap (a : Nat) (s : State) : Bool :=
  match s.encDstCap with
  | none => false
  | some cap => decide (cap ≤ a)

/-- R91: `n + 1 > 2^32 - 1`. -/
def bitCountFull (n : Nat) : Bool := decide (2 ^ 32 - 1 < n + 1)

end Sys2Proof.Machine
end

