-- ==== Sys2Proof/Machine/Dictionary.lean ====
section
/-! DEFINITION. Dictionary operations and the code-width state machine (42_dictionary.md). -/

namespace Sys2Proof.Machine

/-- DICT.RESET() (R111): the 256 roots; DICT.size <- 256, so no entry of index 256 or more is populated. -/
def dictReset (s : State) : State := { s with dict := rootTable }

/-- R112: the lowest populated index whose entry has exactly that parent and that value, as a function of the table. -/
def findEntry (dict : List Entry) (parent : OptCode) (value : Symbol) : Option Nat :=
  dict.findIdx? fun e => decide (e.parent = parent) && decide (e.value = value)

/-- DICT.FIND(parent, value) (R112): a Code, or NotFound (`none`). -/
def dictFind (parent : OptCode) (value : Symbol) (s : State) : Option Code :=
  (findEntry s.dict parent value).map indexCode

/-- DICT.ADD(parent, value) (R113): false and no change when DICT.size = 4096, else the entry at index DICT.size and true. -/
def dictAdd (parent : Code) (value : Symbol) (s : State) : Bool × State :=
  if s.dictSize = Config.maxDictEntries then (false, s)
  else (true, { s with dict := s.dict ++ [{ parent := some parent, value := value }] })

/-- WIDTH + 1, or `none` where it would exceed 12 (R114). -/
def nextWidth : Width → Option Width
  | .w9 => some .w10
  | .w10 => some .w11
  | .w11 => some .w12
  | .w12 => none

/-- DICT.GROW() (R114): the width check; an epoch reset when the incremented width would exceed 12. Its result is
didReset. -/
def dictGrow (s : State) : Bool × State :=
  if widthCheck s then
    match nextWidth s.width with
    | none => (true, { dictReset s with width := Config.startWidth })
    | some w => (false, { s with width := w })
  else (false, s)

/-- The walk of R115 from a code along its parents: the symbols in the order S[0], S[1], ... are written. `room` is what is
left of the scratch buffer. -/
def dictWalk (dict : List Entry) : Nat → OptCode → Except Fault (List Symbol)
  | _, none => .ok []
  | 0, some _ => .error .scratchOverflow
  | room + 1, some c =>
    match dict[c.toNat]? with
    | none => .error .seqUnpopulated
    | some e =>
      match dictWalk dict room e.parent with
      | .ok rest => .ok (e.value :: rest)
      | .error r => .error r

/-- DICT.SEQ(code) (R115): the sequence in forward order and its first byte; writes only the scratch buffer. -/
def dictSeq (code : Code) (s : State) : Flow (List Symbol × Symbol) :=
  match dictWalk s.dict Config.scratchCapacity (some code) with
  | .error r => .stop r
  | .ok collected =>
    match collected.getLast? with
    | none => .stop .nilCode
    | some firstByte =>
      .ret (collected.reverse, firstByte)
        { s with scratch := collected ++ s.scratch.drop collected.length }

/-- DICT.RESET (R111). -/
def execDictReset (s : State) : Host.Outcome State Fault Refusal := .next (dictReset s)

/-- DICT.FIND (R112): writes nothing but its result. -/
def execDictFind (parent : OptCode) (value : Symbol) (s : State) : Host.Outcome State Fault Refusal :=
  .next { s with result := .code (dictFind parent value s) }

/-- DICT.ADD (R113). -/
def execDictAdd (parent : Code) (value : Symbol) (s : State) : Host.Outcome State Fault Refusal :=
  .next { (dictAdd parent value s).2 with result := .flag (dictAdd parent value s).1 }

/-- DICT.GROW (R114). -/
def execDictGrow (s : State) : Host.Outcome State Fault Refusal :=
  .next { (dictGrow s).2 with result := .flag (dictGrow s).1 }

/-- DICT.SEQ (R115). -/
def execDictSeq (code : Code) (s : State) : Host.Outcome State Fault Refusal :=
  (dictSeq code s).report fun r => .seq r.1 r.2

end Sys2Proof.Machine
end

