-- ==== Sys2Proof/Machine/Reader.lean ====
section
/-! DEFINITION. BitReader operations (41_bitreader.md). -/

namespace Sys2Proof.Machine

/-- BR.OPEN(byteCapacity, validBits) (R100). -/
def brOpen (byteCapacity validBits : Count32) (s : State) : Flow Unit :=
  if 8 * byteCapacity.toNat < validBits.toNat then .raised (raiseFault .badParameters s)
  else
    .ret () { s with
      brByteCapacity := byteCapacity
      brValidBits := validBits
      brBitsRead := 0 }

/-- BR.READBIT() (R101): a bit, or `end` (`none`) with nothing changed. -/
def brReadBit (s : State) : Flow (Option Bool) :=
  if endOfStream s then .ret none s
  else
    match s.src.bitAt s.brBitsRead.toNat with
    | none => .stop .srcUnwritten
    | some b => .ret (some b) { s with brBitsRead := BitVec.ofNat 32 (s.brBitsRead.toNat + 1) }

/-- The loop of R102 from bit b on, k bits, with v collected so far: `v <- v | (r << b)`, stopping early at `end`. -/
def brReadFrom : Nat → Nat → Nat → State → Flow Nat
  | _, 0, v, s => .ret v s
  | b, k + 1, v, s =>
    (brReadBit s).bind fun r t =>
      match r with
      | none => .ret v t
      | some bit => brReadFrom (b + 1) k (v ||| (bit.toNat <<< b)) t

/-- BR.READBITS(width) (R102). -/
def brReadBits (width : Nat) (s : State) : Flow Nat := brReadFrom 0 width 0 s

/-- BR.OPEN (R100). -/
def execBrOpen (byteCapacity validBits : Count32) (s : State) : Host.Outcome State Fault Refusal :=
  (brOpen byteCapacity validBits s).done

/-- BR.READBIT (R101). -/
def execBrReadbit (s : State) : Host.Outcome State Fault Refusal := (brReadBit s).report .bit

/-- BR.READBITS (R102). -/
def execBrReadbits (width : Nat) (s : State) : Host.Outcome State Fault Refusal :=
  (brReadBits width s).report .count

/-- BR.EOS (R103): writes nothing but its result. -/
def execBrEos (s : State) : Host.Outcome State Fault Refusal :=
  .next { s with result := .flag (endOfStream s) }

end Sys2Proof.Machine
end

