-- ==== Sys2Proof/Machine/Decoder.lean ====
section
/-! DEFINITION. Decoder steps (44_decoder.md). -/

namespace Sys2Proof.Machine

/-- DEC.INIT (R146): BR.OPEN first, so BadParameters is raised before anything else is done. DEC.firstByte is left without a
value: a free one (93 U6; log 8). -/
def decInit (s : State) : Flow Unit :=
  (brOpen s.pCompBytes s.pCompBits s).bind fun _ t =>
    .ret () { dictReset t with
      width := Config.startWidth
      decPrevCode := none
      decBytesWritten := 0
      decFirstByte := Config.freeByte t.freeTick
      freeTick := t.freeTick + 1 }

/-- DEC.FETCH (R148): DEC.code <- BR.READBITS(WIDTH). -/
def decFetch (s : State) : Flow Unit :=
  (brReadBits s.width.bits s).bind fun v t => .ret () { t with decCode := fetchedCode v }

/-- DEC.WRITE(bytes) (R153): each byte in order while DEC.bytesWritten < P_EXPECTED_BYTES; the rest is dropped. -/
def decWrite : List Symbol → State → State
  | [], s => s
  | b :: rest, s =>
    if s.decBytesWritten.toNat < s.pExpectedBytes.toNat then
      decWrite rest { s with
        dst := s.dst.write s.decBytesWritten.toNat b
        decBytesWritten := BitVec.ofNat 32 (s.decBytesWritten.toNat + 1) }
    else decWrite rest s

/-- DEC.UPDATE (R154): add, then width check; DEC.prevCode <- NIL after an epoch reset, else the code. -/
def decUpdate (s : State) : Flow Unit :=
  match s.decPrevCode with
  | none => .stop .nilCode
  | some p =>
    match dictGrow (dictAdd p s.decFirstByte s).2 with
    | (true, t) => .ret () { t with decPrevCode := none }
    | (false, t) => .ret () { t with decPrevCode := some t.decCode }

/-- DEC.LIT (R149). -/
def decLit (s : State) : State :=
  { decWrite [codeSymbol s.decCode] s with
    decFirstByte := codeSymbol s.decCode
    decPrevCode := some s.decCode }

/-- DEC.KWK (R151): Seq(DEC.prevCode), then its first byte again, then UPDATE. -/
def decKwk (s : State) : Flow Unit :=
  match s.decPrevCode with
  | none => .stop .nilCode
  | some p =>
    (dictSeq p s).bind fun r t =>
      decUpdate (decWrite (r.1 ++ [r.2]) { t with decFirstByte := r.2 })

/-- DEC.REF (R152): Seq(DEC.code), then UPDATE. -/
def decRef (s : State) : Flow Unit :=
  (dictSeq s.decCode s).bind fun r t =>
    decUpdate (decWrite r.1 { t with decFirstByte := r.2 })

/-- The class test and what follows it (R150) for the word in DEC.code, whose first bit is at `position`. -/
def decClassStep (position : Count32) (s : State) : Flow Unit :=
  match classOf s s.decCode with
  | .badlit => .raised (raiseFault (.badLiteral s.decCode position) s)
  | .oor => .raised (raiseFault (.codeOutOfRange s.decCode position) s)
  | .lit => .ret () (decLit s)
  | .kwk => decKwk s
  | .ref => decRef s

/-- One decoder step (R156): the position, FETCH, class test and action. -/
def decStep (s : State) : Flow Unit :=
  (decFetch s).bind fun _ t => decClassStep s.brBitsRead t

/-- DEC.INIT (R146). -/
def execDecInit (s : State) : Host.Outcome State Fault Refusal := (decInit s).done

/-- DEC.FETCH (R148). -/
def execDecFetch (s : State) : Host.Outcome State Fault Refusal := (decFetch s).done

/-- DEC.LIT (R149): selected when DEC.prevCode = NIL and DEC.code < 256. -/
def execDecLit (s : State) : Host.Outcome State Fault Refusal :=
  if classOf s s.decCode = .lit then .next (decLit s) else .refused .notSelected

/-- DEC.KWK (R151): selected when DEC.prevCode is a Code and DEC.code = DICT.size. -/
def execDecKwk (s : State) : Host.Outcome State Fault Refusal :=
  if classOf s s.decCode = .kwk then (decKwk s).done else .refused .notSelected

/-- DEC.REF (R152): selected when DEC.prevCode is a Code and DEC.code < DICT.size. -/
def execDecRef (s : State) : Host.Outcome State Fault Refusal :=
  if classOf s s.decCode = .ref then (decRef s).done else .refused .notSelected

/-- DEC.WRITE (R153). -/
def execDecWrite (bytes : List Symbol) (s : State) : Host.Outcome State Fault Refusal := .next (decWrite bytes s)

/-- DEC.UPDATE (R154). -/
def execDecUpdate (s : State) : Host.Outcome State Fault Refusal := (decUpdate s).done

end Sys2Proof.Machine
end

