-- ==== Sys2Proof/Machine/CodeWords.lean ====
section
/-! DEFINITION. The code words (30_encoding.md rules R71, R76): each row is one whole decoder step, FETCH of the word, class
test, action. -/

namespace Sys2Proof.Machine

/-- The effect of DEC.FETCH when the word at BR.bitsRead is c (R148): BR.bitsRead moves past it, by WIDTH or by the fewer
bits that are left (R102). -/
def wordFetched (c : Code) (s : State) : State :=
  { s with
    decCode := c
    brBitsRead := BitVec.ofNat 32 (s.brBitsRead.toNat + fetchLength s.width.bits s) }

/-- The decoder step on the word c, in the state before its fetch. -/
def wordStep (c : Code) (s : State) : Flow Unit := decClassStep s.brBitsRead (wordFetched c s)

/-- A code-word row: selected when WIDTH is the row's and the word's class is the row's (R76). -/
def codeWord (w : Width) (cls : WordClass) (c : Code) (s : State) : Host.Outcome State Fault Refusal :=
  if s.width = w ∧ classOf s c = cls then (wordStep c s).done else .refused .notSelected

/-- CW9.LIT: the word `0vvvvvvvv` writes its byte (R149). -/
def execCw9Lit (v : Symbol) (s : State) : Host.Outcome State Fault Refusal := codeWord .w9 .lit (rootCode v) s

/-- CW9.BADLIT: the word `1cccccccc` raises BadLiteral (R189). -/
def execCw9Badlit (c : BitVec 8) (s : State) : Host.Outcome State Fault Refusal := codeWord .w9 .badlit (badlitCode c) s

/-- CW9.REF (R152). -/
def execCw9Ref (c : Code) (s : State) : Host.Outcome State Fault Refusal := codeWord .w9 .ref c s

/-- CW9.KWK (R151). -/
def execCw9Kwk (c : Code) (s : State) : Host.Outcome State Fault Refusal := codeWord .w9 .kwk c s

/-- CW9.OOR: raises CodeOutOfRange (R190). -/
def execCw9Oor (c : Code) (s : State) : Host.Outcome State Fault Refusal := codeWord .w9 .oor c s

/-- CW10.REF (R152). -/
def execCw10Ref (c : Code) (s : State) : Host.Outcome State Fault Refusal := codeWord .w10 .ref c s

/-- CW10.KWK (R151). -/
def execCw10Kwk (c : Code) (s : State) : Host.Outcome State Fault Refusal := codeWord .w10 .kwk c s

/-- CW10.OOR (R190). -/
def execCw10Oor (c : Code) (s : State) : Host.Outcome State Fault Refusal := codeWord .w10 .oor c s

/-- CW11.REF (R152). -/
def execCw11Ref (c : Code) (s : State) : Host.Outcome State Fault Refusal := codeWord .w11 .ref c s

/-- CW11.KWK (R151). -/
def execCw11Kwk (c : Code) (s : State) : Host.Outcome State Fault Refusal := codeWord .w11 .kwk c s

/-- CW11.OOR (R190). -/
def execCw11Oor (c : Code) (s : State) : Host.Outcome State Fault Refusal := codeWord .w11 .oor c s

/-- CW12.REF (R152). -/
def execCw12Ref (c : Code) (s : State) : Host.Outcome State Fault Refusal := codeWord .w12 .ref c s

/-- CW12.KWK (R151). -/
def execCw12Kwk (c : Code) (s : State) : Host.Outcome State Fault Refusal := codeWord .w12 .kwk c s

/-- CW12.OOR (R190). -/
def execCw12Oor (c : Code) (s : State) : Host.Outcome State Fault Refusal := codeWord .w12 .oor c s

end Sys2Proof.Machine
end

