-- ==== Sys2Proof/Machine/Writer.lean ====
section
/-! DEFINITION. BitWriter operations (40_bitwriter.md). -/

namespace Sys2Proof.Machine

/-- BW.INIT (R90). -/
def bwInit (s : State) : State := { s with bwBitsWritten := 0 }

/-- BW.APPENDBIT(bit) (R91): the OutputOverflow test, then the BitCountOverflow test (R196), then the byte. A byte met at its
bit 0 is new and counts as 0. -/
def bwAppendBit (bit : Bool) (s : State) : Flow Unit :=
  let n := s.bwBitsWritten.toNat
  let a := n / 8
  let p := n % 8
  if beyondCap a s then .raised (raiseFault .outputOverflow s)
  else if bitCountFull n then .raised (raiseFault .bitCountOverflow s)
  else
    match (if p = 0 then some 0 else s.dst.read a) with
    | none => .stop .dstUnwritten
    | some old =>
      .ret () { s with
        dst := s.dst.write a (setBit old p bit)
        bwBitsWritten := BitVec.ofNat 32 (n + 1) }

/-- The loop of R92 from bit b on, k bits. -/
def bwAppendFrom (value : Nat) : Nat → Nat → State → Flow Unit
  | _, 0, s => .ret () s
  | b, k + 1, s => (bwAppendBit (valueBit value b) s).bind fun _ t => bwAppendFrom value (b + 1) k t

/-- BW.APPENDBITS(value, width) (R92): `for b in 0 .. width-1: BW.APPENDBIT((value >> b) & 1)`. -/
def bwAppendBits (value width : Nat) (s : State) : Flow Unit := bwAppendFrom value 0 width s

/-- BW.BYTECOUNT() (R93): ceil(bitsWritten / 8). -/
def bwByteCount (s : State) : Nat := (s.bwBitsWritten.toNat + 7) / 8

/-- BW.BITCOUNT() (R94). -/
def bwBitCount (s : State) : Nat := s.bwBitsWritten.toNat

/-- BW.RELEASE() (R95): the DST bytes at offsets 0 .. BW.BYTECOUNT()-1; the writer is empty after it. -/
def bwRelease (s : State) : Flow (List Symbol) :=
  match s.dst.readRange 0 (bwByteCount s) with
  | none => .stop .dstUnwritten
  | some bytes => .ret bytes { s with bwBitsWritten := 0 }

/-- BW.INIT (R90). -/
def execBwInit (s : State) : Host.Outcome State Fault Refusal := .next (bwInit s)

/-- BW.APPENDBIT (R91). -/
def execBwAppendbit (bit : Bool) (s : State) : Host.Outcome State Fault Refusal := (bwAppendBit bit s).done

/-- BW.APPENDBITS (R92). -/
def execBwAppendbits (value width : Nat) (s : State) : Host.Outcome State Fault Refusal :=
  (bwAppendBits value width s).done

/-- BW.BYTECOUNT (R93): writes nothing but its result. -/
def execBwBytecount (s : State) : Host.Outcome State Fault Refusal :=
  .next { s with result := .count (bwByteCount s) }

/-- BW.BITCOUNT (R94): writes nothing but its result. -/
def execBwBitcount (s : State) : Host.Outcome State Fault Refusal :=
  .next { s with result := .count (bwBitCount s) }

/-- BW.RELEASE (R95). -/
def execBwRelease (s : State) : Host.Outcome State Fault Refusal := (bwRelease s).report .bytes

end Sys2Proof.Machine
end

