-- ==== Sys2Proof/Machine/Encoder.lean ====
section
/-! DEFINITION. Encoder steps (43_encoder.md). -/

namespace Sys2Proof.Machine

/-- ENC.INIT (R131). -/
def encInit (s : State) : State :=
  bwInit { dictReset s with
    width := Config.startWidth
    encCode := none
    encInPos := 0 }

/-- `ENC.inPos <- ENC.inPos + 1`. -/
def nextInput (s : State) : State :=
  { s with encInPos := BitVec.ofNat 32 (s.encInPos.toNat + 1) }

/-- The lines of R132. -/
def encExtend (idx : Code) (s : State) : State := nextInput { s with encCode := some idx }

/-- The middle lines of R133 after the emission: the width check, then the add unless it reset. -/
def encGrowAdd (code : Code) (value : Symbol) (s : State) : State :=
  match dictGrow s with
  | (true, t) => t
  | (false, t) => (dictAdd code value t).2

/-- The lines of R133: emit at the current width, width check, add unless it reset (90_conflicts.md C1), then the next match
starts at the root code of the byte. -/
def encEmit (value : Symbol) (s : State) : Flow Unit :=
  match s.encCode with
  | none => .stop .nilCode
  | some code =>
    (bwAppendBits code.toNat s.width.bits s).bind fun _ t =>
      .ret () (nextInput { encGrowAdd code value t with encCode := some (rootCode value) })

/-- One input byte (R81, R136): EXTEND when DICT.FIND succeeds, EMIT when it does not. -/
def encSymbol (value : Symbol) (s : State) : Flow Unit :=
  match dictFind s.encCode value s with
  | some idx => .ret () (encExtend idx s)
  | none => encEmit value s

/-- ENC.FINISH (R134): the pending match, if any, at the current width. -/
def encFinish (s : State) : Flow Unit :=
  match s.encCode with
  | none => .ret () s
  | some code => bwAppendBits code.toNat s.width.bits s

/-- ENC.INIT (R131). -/
def execEncInit (s : State) : Host.Outcome State Fault Refusal := .next (encInit s)

/-- ENC.EXTEND (R132): selected when an input byte is left and DICT.FIND(ENC.code, value) returns a code. -/
def execEncExtend (value : Symbol) (s : State) : Host.Outcome State Fault Refusal :=
  if encContinue s then
    match dictFind s.encCode value s with
    | some idx => .next (encExtend idx s)
    | none => .refused .notSelected
  else .refused .notSelected

/-- ENC.EMIT (R133): selected when an input byte is left and DICT.FIND(ENC.code, value) returns NotFound. -/
def execEncEmit (value : Symbol) (s : State) : Host.Outcome State Fault Refusal :=
  if encContinue s then
    match dictFind s.encCode value s with
    | some _ => .refused .notSelected
    | none => (encEmit value s).done
  else .refused .notSelected

/-- ENC.FINISH (R134). -/
def execEncFinish (s : State) : Host.Outcome State Fault Refusal := (encFinish s).done

end Sys2Proof.Machine
end

