-- ==== Sys2Proof/Machine/Commands.lean ====
section
/-! DEFINITION. The two host commands as whole procedures (43_encoder.md rule R136, 44_decoder.md rule R156,
45_host_interface.md rules R171, R172). -/

namespace Sys2Proof.Machine

/-- One pass of R136's loop body: the byte at ENC.inPos, then EXTEND or EMIT. -/
def encByte (s : State) : Flow Unit :=
  match inputByte s with
  | none => .stop .srcUnwritten
  | some value => encSymbol value s

/-- R136's `while ENC.inPos < P_INPUT_BYTES`, at most n passes. -/
def encScan : Nat → State → Flow Unit
  | 0, s => .ret () s
  | n + 1, s => if encContinue s then (encByte s).bind fun _ t => encScan n t else .ret () s

/-- R135, R136 after FINISH, R171's normal end: the result registers, BW.RELEASE, STATUS <- DONE. -/
def encEnd (s : State) : Flow Unit :=
  (bwRelease { s with
      rCompBits := BitVec.ofNat 32 (bwBitCount s)
      rCompBytes := BitVec.ofNat 32 (bwByteCount s) }).bind fun _ t =>
    .ret () { t with status := .done }

/-- LZW.ENCODE as one procedure (R136), after its first lines; the loop makes exactly P_INPUT_BYTES passes (R219). -/
def runEncode (s : State) : Flow Unit :=
  ((encScan s.pInputBytes.toNat (encInit s)).bind fun _ t => encFinish t).bind fun _ t => encEnd t

/-- R156's loop, at most n steps. -/
def decLoop : Nat → State → Flow Unit
  | 0, s => .ret () s
  | n + 1, s => if decContinue s then (decStep s).bind fun _ t => decLoop n t else .ret () s

/-- R155, R172's normal end. -/
def decEnd (s : State) : State :=
  { s with
    rOutBytes := s.decBytesWritten
    status := .done }

/-- LZW.DECODE as one procedure (R156), after its first lines; every step consumes a bit, so there are at most P_COMP_BITS
steps (R155, R219). -/
def runDecode (s : State) : Flow Unit :=
  ((decInit s).bind fun _ t => decLoop t.brValidBits.toNat t).bind fun _ t => .ret () (decEnd t)

/-- LZW.ENCODE (R171): refused without effect while BUSY (R176), else the whole command. -/
def execLzwEncode (s : State) : Host.Outcome State Fault Refusal :=
  if s.status = .busy then .next s else (runEncode (beginCommand .encode s)).done

/-- LZW.DECODE (R172): refused without effect while BUSY (R176), else the whole command. -/
def execLzwDecode (s : State) : Host.Outcome State Fault Refusal :=
  if s.status = .busy then .next s else (runDecode (beginCommand .decode s)).done

end Sys2Proof.Machine
end

