-- ==== Sys2Proof/Machine/Dispatch.lean ====
section
/-! DEFINITION. The dispatch: one arm per constructor of Instr, each one call of its meaning. -/

namespace Sys2Proof.Machine

def exec (i : Instr) (s : State) : Host.Outcome State Fault Refusal :=
  match i with
  | .lzwEncode => Sys2Proof.Machine.execLzwEncode s
  | .lzwDecode => Sys2Proof.Machine.execLzwDecode s
  | .bwInit => Sys2Proof.Machine.execBwInit s
  | .bwAppendbit bit => Sys2Proof.Machine.execBwAppendbit bit s
  | .bwAppendbits value width => Sys2Proof.Machine.execBwAppendbits value width s
  | .bwBytecount => Sys2Proof.Machine.execBwBytecount s
  | .bwBitcount => Sys2Proof.Machine.execBwBitcount s
  | .bwRelease => Sys2Proof.Machine.execBwRelease s
  | .brOpen byteCapacity validBits => Sys2Proof.Machine.execBrOpen byteCapacity validBits s
  | .brReadbit => Sys2Proof.Machine.execBrReadbit s
  | .brReadbits width => Sys2Proof.Machine.execBrReadbits width s
  | .brEos => Sys2Proof.Machine.execBrEos s
  | .dictReset => Sys2Proof.Machine.execDictReset s
  | .dictFind parent value => Sys2Proof.Machine.execDictFind parent value s
  | .dictAdd parent value => Sys2Proof.Machine.execDictAdd parent value s
  | .dictGrow => Sys2Proof.Machine.execDictGrow s
  | .dictSeq code => Sys2Proof.Machine.execDictSeq code s
  | .encInit => Sys2Proof.Machine.execEncInit s
  | .encExtend value => Sys2Proof.Machine.execEncExtend value s
  | .encEmit value => Sys2Proof.Machine.execEncEmit value s
  | .encFinish => Sys2Proof.Machine.execEncFinish s
  | .decInit => Sys2Proof.Machine.execDecInit s
  | .decFetch => Sys2Proof.Machine.execDecFetch s
  | .decLit => Sys2Proof.Machine.execDecLit s
  | .decKwk => Sys2Proof.Machine.execDecKwk s
  | .decRef => Sys2Proof.Machine.execDecRef s
  | .decWrite bytes => Sys2Proof.Machine.execDecWrite bytes s
  | .decUpdate => Sys2Proof.Machine.execDecUpdate s
  | .cw9Lit v => Sys2Proof.Machine.execCw9Lit v s
  | .cw9Badlit c => Sys2Proof.Machine.execCw9Badlit c s
  | .cw9Ref c => Sys2Proof.Machine.execCw9Ref c s
  | .cw9Kwk c => Sys2Proof.Machine.execCw9Kwk c s
  | .cw9Oor c => Sys2Proof.Machine.execCw9Oor c s
  | .cw10Ref c => Sys2Proof.Machine.execCw10Ref c s
  | .cw10Kwk c => Sys2Proof.Machine.execCw10Kwk c s
  | .cw10Oor c => Sys2Proof.Machine.execCw10Oor c s
  | .cw11Ref c => Sys2Proof.Machine.execCw11Ref c s
  | .cw11Kwk c => Sys2Proof.Machine.execCw11Kwk c s
  | .cw11Oor c => Sys2Proof.Machine.execCw11Oor c s
  | .cw12Ref c => Sys2Proof.Machine.execCw12Ref c s
  | .cw12Kwk c => Sys2Proof.Machine.execCw12Kwk c s
  | .cw12Oor c => Sys2Proof.Machine.execCw12Oor c s

end Sys2Proof.Machine
end

