-- ==== Sys2Proof/Machine/HostPort.lean ====
section
/-! DEFINITION. The host's side (45_host_interface.md, 70_reset_and_hazards.md): what it can do, and what it can read. -/

namespace Sys2Proof.Machine

/-- Write a parameter register (R35). -/
def setParam (p : Param) (v : Count32) (s : State) : State :=
  match p with
  | .inputBytes => { s with pInputBytes := v }
  | .compBytes => { s with pCompBytes := v }
  | .compBits => { s with pCompBits := v }
  | .expectedBytes => { s with pExpectedBytes := v }

/-- Place a byte sequence in SRC (R212). -/
def placeSrc (bytes : List Symbol) (s : State) : State := { s with src := Memory.ofBytes bytes }

/-- Supply the DST of the next command (R65, R212). The result of the last command stays readable until the next one starts
(R175); the new buffer's bytes hold no value, which `beginCommand` says (D12; log 6). -/
def supplyDst (cap : Option Nat) (s : State) : State := { s with encDstCap := cap }

/-- Hardware reset (R210, R42): the registers R42 states, STATUS = IDLE, CAUSE = 0; SRC, DST and the DST's capacity are not
touched; every register R42 leaves unspecified holds a free value (log 22). -/
def hardwareReset (s : State) : State :=
  let t := s.freeTick
  { State.reset with
    decFirstByte := Config.freeByte t
    decCode := Config.freeCode t
    faultCode := Config.freeCode (t + 1)
    brValidBits := Config.freeCount t
    brByteCapacity := Config.freeCount (t + 1)
    pInputBytes := Config.freeCount (t + 2)
    pCompBytes := Config.freeCount (t + 3)
    pCompBits := Config.freeCount (t + 4)
    pExpectedBytes := Config.freeCount (t + 5)
    rCompBits := Config.freeCount (t + 6)
    rCompBytes := Config.freeCount (t + 7)
    rOutBytes := Config.freeCount (t + 8)
    faultPos := Config.freeCount (t + 9)
    scratch := (List.range Config.scratchCapacity).map (Config.freeScratch t)
    src := s.src
    dst := s.dst
    encDstCap := s.encDstCap
    command := s.command
    inbox := s.inbox
    freeTick := t + 10 }

/-- The first lines of a command given in the step-by-step form (R5): R171's and R172's own, then ENC.INIT or DEC.INIT; the
sequencer runs the rest. Refused without effect while BUSY (R176). -/
def startStepwise (c : Command) (s : State) : Host.Outcome State Fault Refusal :=
  if s.status = .busy then .next s
  else
    match c with
    | .encode => exec .encInit (beginCommand .encode s)
    | .decode => exec .decInit (beginCommand .decode s)

/-- A command given by the host, in one of R5's two forms (R170; log 1). -/
def giveCommand (form : Form) (c : Command) (s : State) : Host.Outcome State Fault Refusal :=
  match form, c with
  | .transaction, .encode => exec .lzwEncode s
  | .transaction, .decode => exec .lzwDecode s
  | .stepwise, .encode => startStepwise .encode s
  | .stepwise, .decode => startStepwise .decode s

/-- A move that touches a buffer or a parameter register: there is none while BUSY (R59, R213, R35; log 12). -/
def whenNotBusy (t : State) (s : State) : Host.Outcome State Fault Refusal :=
  if s.status = .busy then .refused .hostMoveWhileBusy else .next t

/-- A move of the host other than waiting. -/
def hostMove (m : HostMove) (s : State) : Host.Outcome State Fault Refusal :=
  match m with
  | .wait => .next s
  | .setParam p v => whenNotBusy (setParam p v s) s
  | .placeSrc bytes => whenNotBusy (placeSrc bytes s) s
  | .supplyDst cap => whenNotBusy (supplyDst cap s) s
  | .give form c => giveCommand form c s
  | .hwReset => .next (hardwareReset s)

/-! ## What the host can read (R36, R175; 93 U7, U8) -/

/-- The result length of the command that ended: R_COMP_BYTES or R_OUT_BYTES. -/
def resultLength (s : State) : Nat :=
  match s.command with
  | .encode => s.rCompBytes.toNat
  | .decode => s.rOutBytes.toNat

/-- A byte of DST: the host may read it while STATUS is DONE, at offsets below the result length (R175). -/
def hostByte (s : State) (a : Nat) : Option Symbol :=
  if s.status = .done ∧ a < resultLength s then s.dst.read a else none

/-- The byte sequence the command returned (R135, R155), while STATUS is DONE. -/
def hostBytes (s : State) : Option (List Symbol) :=
  if s.status = .done then s.dst.readRange 0 (resultLength s) else none

/-- R_COMP_BITS, while it holds a result (R36). -/
def hostCompBits (s : State) : Option Count32 :=
  if s.status = .done ∧ s.command = .encode then some s.rCompBits else none

/-- R_COMP_BYTES, while it holds a result (R36). -/
def hostCompBytes (s : State) : Option Count32 :=
  if s.status = .done ∧ s.command = .encode then some s.rCompBytes else none

/-- R_OUT_BYTES, while it holds a result (R36). -/
def hostOutBytes (s : State) : Option Count32 :=
  if s.status = .done ∧ s.command = .decode then some s.rOutBytes else none

end Sys2Proof.Machine
end

