-- ==== Sys2Proof/Machine/Sequencer.lean ====
section
/-! DEFINITION. The sequencer: what one step does (00_scope.md rules R5, R11; 43_encoder.md rule R136; 44_decoder.md rule
R156). -/

namespace Sys2Proof.Machine

/-- The context of an input byte (R81): whether DICT.FIND(ENC.code, value) succeeds. -/
def symbolCtx (value : Symbol) (s : State) : Ctx := .symbol (dictFind s.encCode value s).isSome

/-- The context of a code word (R73, R76). -/
def wordCtx (s : State) : Ctx := .word s.width s.decPrevCode.isNone s.dictSize

/-- The encoder's next instruction: the row of the input byte at ENC.inPos (R81). -/
def nextEncoderInstr (s : State) : Except Fault (Except DecodeError Instr) :=
  match inputByte s with
  | none => .error .srcUnwritten
  | some v => .ok ((decodeBytes (symbolCtx v s) [v]).map Prod.fst)

/-- The decoder's next instruction: the row of the code word at BR.bitsRead (R72, R76). -/
def nextDecoderInstr (s : State) : Except Fault (Except DecodeError Instr) :=
  match nextWordBits s with
  | none => .error .srcUnwritten
  | some bits => .ok ((decode (wordCtx s) bits).map Prod.fst)

/-- One encoder step: an input byte; after the last one FINISH and, unless it faulted, the normal end (R134, R135). -/
def stepEncode (s : State) : Host.Outcome State Fault Refusal :=
  if encContinue s then
    match nextEncoderInstr s with
    | .error r => .fault r
    | .ok (.ok i) => exec i s
    | .ok (.error _) => (encByte s).done
  else
    match exec .encFinish s with
    | .next t => if t.status = .busy then (encEnd t).done else .next t
    | .fault r => .fault r
    | .refused r => .refused r

/-- One decoder step: a code word while R147's condition holds, else the normal end (R155). Where the table has no row for the
word (DEC.prevCode NIL at a WIDTH other than 9, which no command reaches), the class test of R150 is made all the same
(log 21). -/
def stepDecode (s : State) : Host.Outcome State Fault Refusal :=
  if decContinue s then
    match nextDecoderInstr s with
    | .error r => .fault r
    | .ok (.ok i) => exec i s
    | .ok (.error _) => (decStep s).done
  else .next (decEnd s)

/-- The codec's own step: nothing unless a command runs (R205, R210). -/
def codecStep (s : State) : Host.Outcome State Fault Refusal :=
  match s.status with
  | .idle => .next s
  | .done => .next s
  | .fault => .next s
  | .busy =>
    match s.command with
    | .encode => stepEncode s
    | .decode => stepDecode s

/-- One step of the machine: the host's next move if it makes one, else one step of the codec. -/
def machineStep (s : State) : Host.Outcome State Fault Refusal :=
  match s.inbox with
  | [] => codecStep s
  | .wait :: rest => codecStep { s with inbox := rest }
  | m :: rest => hostMove m { s with inbox := rest }

/-- An operation's end state, where it has one. -/
def Flow.state (old : State) : Flow Unit → State
  | .ret _ t => t
  | .raised t => t
  | .stop _ => old

/-- The state in which the next step runs a word of the opcode table as a program's first (log 15). 8 bits: an LZW.ENCODE of
that one input byte has been started. More bits: an LZW.DECODE of the 2 bytes that hold the word, 16 bits, one output byte
expected, has been started. -/
def loadTableWord (s : State) (nbits w : Nat) : State :=
  if nbits ≤ 8 then
    encInit (beginCommand .encode
      { s with src := Memory.ofBytes [BitVec.ofNat 8 w], pInputBytes := 1, inbox := [] })
  else
    let t := beginCommand .decode
      { s with
        src := Memory.ofBytes (tableBytes w)
        pCompBytes := 2
        pCompBits := 16
        pExpectedBytes := 1
        inbox := [] }
    (decInit t).state t

end Sys2Proof.Machine
end

