-- ==== Sys2Proof/Machine/Step.lean ====
section
/-! DEFINITION. The step, and the state in which it runs a given word. -/

namespace Sys2Proof.Machine

/-- One step: a move of the host, an input byte of an encode, or a code word of a decode. -/
def step (s : State) : Host.Outcome State Fault Refusal := machineStep s

/-- `s` with a word of the opcode table where the next step fetches its instruction (log 15). -/
def State.withFetchWord (s : State) (nbits w : Nat) : State := loadTableWord s nbits w

end Sys2Proof.Machine
end

