-- ==== Sys2Proof/Safety.lean ====
section
/-! DEFINITION. What counts as a well-formed state and a safe run, in the terms the statements use: the packed buffer
(00_scope.md rule R9, 30_encoding.md rule R78), the sequence of a code (42_dictionary.md rule R120), and the invariants of
10_state.md rule R41. -/

namespace Sys2Proof.Machine

/-! ## Buffers -/

/-- The byte made of at most 8 bits, bit 0 first, zeros above them (R52, R78). -/
def packByte (bits : List Bool) : Symbol := BitVec.ofNat 8 (bitsValue bits)

/-- The packed buffer of a bit sequence: LSB-first within each byte, the last byte zero-padded (R52, R78). -/
def packBits : List Bool → List Symbol
  | [] => []
  | b0 :: b1 :: b2 :: b3 :: b4 :: b5 :: b6 :: b7 :: rest => packByte [b0, b1, b2, b3, b4, b5, b6, b7] :: packBits rest
  | short => [packByte short]

/-- DST holds exactly the packed stream of `bits` and the writer's count is theirs (R30, R96). -/
def WriterHolds (bits : List Bool) (s : State) : Prop :=
  s.dst = Memory.ofBytes (packBits bits) ∧ s.bwBitsWritten.toNat = bits.length

/-- DST holds exactly the bytes `out` (R50, R51). -/
def DstHolds (out : List Symbol) (s : State) : Prop := s.dst = Memory.ofBytes out

/-- SRC holds a value at every offset below n: the host has placed what the command reads (R51, R212). -/
def SrcSupplied (n : Nat) (s : State) : Prop := ∀ a, a < n → (s.src.read a).isSome

/-! ## The dictionary -/

/-- R41 items a, b, c: between 256 and 4096 entries, the roots first, and every later entry's parent is a Code below its
index. -/
structure DictWf (dict : List Entry) : Prop where
  atLeast : Config.firstCode ≤ dict.length
  atMost : dict.length ≤ Config.maxDictEntries
  roots : ∀ i, i < Config.firstCode → dict[i]? = some (rootEntry i)
  parents : ∀ i e, Config.firstCode ≤ i → dict[i]? = some e → ∃ p, e.parent = some p ∧ p.toNat < i

/-- R120 Seq(c), reversed, as the walk of R115 meets it: `SeqRev dict c l` says that l lists the symbols from c back to its
root. -/
inductive SeqRev (dict : List Entry) : Code → List Symbol → Prop where
  | root (c : Code) (e : Entry) (h : dict[c.toNat]? = some e) (nil : e.parent = none) : SeqRev dict c [e.value]
  | dynamic (c p : Code) (e : Entry) (rest : List Symbol) (h : dict[c.toNat]? = some e) (parent : e.parent = some p)
      (tail : SeqRev dict p rest) : SeqRev dict c (e.value :: rest)

/-- R120: Seq(c) = (c) for a root; Seq(c) = Seq(D.parent[c]) ++ (D.value[c]) for a dynamic entry. -/
def IsSeq (dict : List Entry) (c : Code) (bytes : List Symbol) : Prop := SeqRev dict c bytes.reverse

/-- R41 item d: DICT.size against WIDTH in the encoder. -/
def EncSizes (w : Width) (size : Nat) : Prop :=
  size ≤ 2 ^ w.bits ∧ (w = .w9 ∨ 2 ^ (w.bits - 1) + 1 ≤ size)

/-- R41 item e: DICT.size against WIDTH in the decoder. -/
def DecSizes (w : Width) (size : Nat) : Prop :=
  size < 2 ^ w.bits ∧ (w = .w9 ∨ 2 ^ (w.bits - 1) ≤ size)

/-! ## Running commands -/

/-- The state between two steps of an LZW.ENCODE (R41 items d, g, h; R24, R30). -/
structure EncRunning (s : State) : Prop where
  /-- R25, R41 h. -/
  pos : s.encInPos.toNat ≤ s.pInputBytes.toNat
  /-- R24: NIL exactly before the first input byte. -/
  nil : s.encCode = none ↔ s.encInPos = 0
  /-- Before the first input byte nothing has been emitted or added (R131). -/
  fresh : s.encCode = none → s.dict = rootTable ∧ s.width = .w9 ∧ s.bwBitsWritten = 0
  /-- R41 d: ENC.code < DICT.size. -/
  code : ∀ c, s.encCode = some c → c.toNat < s.dictSize
  /-- R41 d. -/
  sizes : EncSizes s.width s.dictSize
  /-- R41 g: no two populated entries have the same pair. -/
  distinct : s.dict.Nodup
  /-- R41 h, R139: the first input byte never emits, each later one at most one word of at most 12 bits. -/
  bits : s.bwBitsWritten.toNat ≤ 12 * (s.encInPos.toNat - 1)
  /-- R30, R96. -/
  writer : ∃ written, WriterHolds written s

/-- The state between two steps of an LZW.DECODE (R41 items e, f, h; R31). -/
structure DecRunning (s : State) : Prop where
  /-- R31: loaded at BR.OPEN. -/
  opened : s.brValidBits = s.pCompBits ∧ s.brByteCapacity = s.pCompBytes
  /-- R41 h. -/
  read : s.brBitsRead.toNat ≤ s.brValidBits.toNat
  /-- R41 h. -/
  valid : s.brValidBits.toNat ≤ 8 * s.brByteCapacity.toNat
  /-- R41 h. -/
  out : s.decBytesWritten.toNat ≤ s.pExpectedBytes.toNat
  /-- R41 f. -/
  epochStart : s.decPrevCode = none → s.width = .w9 ∧ s.dict = rootTable
  /-- R41 e. -/
  within : ∀ p, s.decPrevCode = some p → p.toNat < s.dictSize ∧ DecSizes s.width s.dictSize
  /-- R28: DST holds DEC.bytesWritten bytes. -/
  dst : ∃ bytes, DstHolds bytes s ∧ bytes.length = s.decBytesWritten.toNat

/-- The invariant every step keeps. -/
structure Inv (s : State) : Prop where
  dict : DictWf s.dict
  scratch : s.scratch.length = Config.scratchCapacity
  src : s.src.wf = true
  dst : s.dst.wf = true
  /-- R37: CAUSE is 0 when STATUS is not FAULT; R197: it is not 0 when it is. -/
  cause : s.status = .fault ↔ s.cause ≠ .none
  encoding : s.status = .busy → s.command = .encode → EncRunning s
  decoding : s.status = .busy → s.command = .decode → DecRunning s
  /-- R171, R172, R175: while DONE, DST holds the result, exactly. -/
  done : s.status = .done → ∃ bytes, DstHolds bytes s ∧ bytes.length = resultLength s

/-! ## When a step is not stopped by the host's side -/

/-- The bytes a running command reads of SRC are there (R212). -/
def RunSupplied (s : State) : Prop :=
  s.status = .busy →
    match s.command with
    | .encode => SrcSupplied s.pInputBytes.toNat s
    | .decode => SrcSupplied ((s.brValidBits.toNat + 7) / 8) s

/-- The bytes a command given now would read of SRC are there (R212); a command whose parameters are refused reads none. -/
def CommandSupplied (c : Command) (s : State) : Prop :=
  match c with
  | .encode => SrcSupplied s.pInputBytes.toNat s
  | .decode => s.pCompBits.toNat ≤ 8 * s.pCompBytes.toNat → SrcSupplied ((s.pCompBits.toNat + 7) / 8) s

/-- A move the spec gives the host in this state: none on buffers and parameter registers while BUSY (R59, R213), and a
command is given with its SRC in place (R212). -/
def MoveAllowed (m : HostMove) (s : State) : Prop :=
  match m with
  | .wait => True
  | .hwReset => True
  | .setParam _ _ => s.status ≠ .busy
  | .placeSrc _ => s.status ≠ .busy
  | .supplyDst _ => s.status ≠ .busy
  | .give _ c => s.status ≠ .busy → CommandSupplied c s

/-! ## Terms of the statements about single operations -/

/-- Stream bits n, n+1, ... of SRC are `bits` (R52, R72). -/
def SrcHolds (n : Nat) (bits : List Bool) (s : State) : Prop :=
  ∀ j b, bits[j]? = some b → s.src.bitAt (n + j) = some b

/-- k more bits fit behind n bits: below 2^32 in all, and every byte they need lies inside ENC_DST_CAP (R91). -/
def BitsFit (n k : Nat) (s : State) : Prop :=
  n + k < 2 ^ 32 ∧ ∀ cap, s.encDstCap = some cap → (n + k + 7) / 8 ≤ cap

/-- Bit n is the one BW.APPENDBIT faults on, with this cause: the capacity test comes first (R91, R196). -/
def BitFaults (n : Nat) (cause : Cause) (s : State) : Prop :=
  (∃ cap, s.encDstCap = some cap ∧ cap ≤ n / 8) ∧ cause = .outputOverflow ∨
  (∀ cap, s.encDstCap = some cap → n / 8 < cap) ∧ 2 ^ 32 - 1 < n + 1 ∧ cause = .bitCountOverflow

/-- Of the bits n, n+1, ... the first that BW.APPENDBIT faults on is bit n + b, with this cause (R92: "a fault at bit b leaves
bits 0 to b-1 written"). -/
def FirstFault (n b : Nat) (cause : Cause) (s : State) : Prop :=
  BitFaults (n + b) cause s ∧ ∀ j other, j < b → ¬BitFaults (n + j) other s

/-- DST of `t` reads as DST of `s` at every offset outside `first` .. `past`-1. -/
def DstSameOutside (first past : Nat) (s t : State) : Prop :=
  ∀ a, a < first ∨ past ≤ a → t.dst.read a = s.dst.read a

/-- How many of n bytes P_EXPECTED_BYTES leaves room for (R153). -/
def keptBytes (n : Nat) (s : State) : Nat := min n (s.pExpectedBytes.toNat - s.decBytesWritten.toNat)

/-- R153: `t`'s output is `s`'s with `bytes` after it, cut at P_EXPECTED_BYTES; no other DST byte changed. -/
structure OutputAppended (bytes : List Symbol) (s t : State) : Prop where
  count : t.decBytesWritten.toNat = s.decBytesWritten.toNat + keptBytes bytes.length s
  stored : ∀ j, j < keptBytes bytes.length s → t.dst.read (s.decBytesWritten.toNat + j) = bytes[j]?
  others : DstSameOutside s.decBytesWritten.toNat (s.decBytesWritten.toNat + keptBytes bytes.length s) s t

/-- R154: the dictionary, WIDTH and DEC.prevCode of `t` are those of `s` after ADD(parent, first), the width check and the new
DEC.prevCode, for the word `code`. -/
structure TableUpdated (parent : Code) (first : Symbol) (code : Code) (s t : State) : Prop where
  epoch : s.dictSize + 1 = 4096 → s.width = .w12 → t.dict = rootTable ∧ t.width = .w9 ∧ t.decPrevCode = none
  wider : s.dictSize + 1 = 2 ^ s.width.bits → s.width ≠ .w12 →
    t.dict = s.dict ++ [{ parent := some parent, value := first }] ∧ t.width.bits = s.width.bits + 1 ∧
      t.decPrevCode = some code
  same : s.dictSize + 1 ≠ 2 ^ s.width.bits →
    t.dict = s.dict ++ [{ parent := some parent, value := first }] ∧ t.width = s.width ∧ t.decPrevCode = some code

/-- The REF row of a width (R76). -/
def refRow : Width → Code → Instr
  | .w9, c => .cw9Ref c
  | .w10, c => .cw10Ref c
  | .w11, c => .cw11Ref c
  | .w12, c => .cw12Ref c

/-- The KWK row of a width (R76). -/
def kwkRow : Width → Code → Instr
  | .w9, c => .cw9Kwk c
  | .w10, c => .cw10Kwk c
  | .w11, c => .cw11Kwk c
  | .w12, c => .cw12Kwk c

/-- The OOR row of a width (R76). -/
def oorRow : Width → Code → Instr
  | .w9, c => .cw9Oor c
  | .w10, c => .cw10Oor c
  | .w11, c => .cw11Oor c
  | .w12, c => .cw12Oor c

/-- What the host can see when a command has ended (R174, R175, R197; 93 U7, U8): STATUS, CAUSE, the results while DONE, and
FAULT_CODE, FAULT_POS after causes 1 and 2. -/
def SameOutcome (s t : State) : Prop :=
  s.status = t.status ∧ s.cause = t.cause ∧ hostBytes s = hostBytes t ∧ hostCompBits s = hostCompBits t ∧
    hostCompBytes s = hostCompBytes t ∧ hostOutBytes s = hostOutBytes t ∧
    (s.cause = .badLiteral ∨ s.cause = .codeOutOfRange → s.faultCode = t.faultCode ∧ s.faultPos = t.faultPos)

/-- Both commands ended with the same outcome, or both were stopped for the same reason. -/
def SameResult (x y : Host.Outcome State Fault Refusal) : Prop :=
  (∃ s t, x = .next s ∧ y = .next t ∧ SameOutcome s t) ∨ (∃ r, x = .fault r ∧ y = .fault r)

end Sys2Proof.Machine
end

