-- ==== Sys2Proof/Certificates/Slice0/Obligations.lean ====
section
/-! DEFINITION. The statements for the provers. Each docstring names the rule it formalises and, where a clause is the model's
own choice, the log entry. -/

open Sys2Proof Sys2Proof.Machine

/-! ## Reset, invariant, progress -/

/-- R210: hardware reset, from any state, gives the registers of R42 and leaves SRC and DST alone; after it the codec does
nothing, however long, until the host makes a move. -/
def Obligations.HardwareResetGivesFreshRegisters : Prop :=
  ∀ s : State, ∃ t, hostMove .hwReset s = .next t ∧
    t.dictSize = 256 ∧ (∀ i, i < 256 → t.dict[i]? = some { parent := none, value := BitVec.ofNat 8 i }) ∧
    t.width = .w9 ∧ t.encCode = none ∧ t.decPrevCode = none ∧
    t.encInPos = 0 ∧ t.decBytesWritten = 0 ∧ t.bwBitsWritten = 0 ∧ t.brBitsRead = 0 ∧
    t.status = .idle ∧ t.cause = .none ∧ t.src = s.src ∧ t.dst = s.dst ∧
    (t.inbox = [] → ∀ n, core.run n t = .next t)

/-- R42, for the model's own initial state: the values R42 states; the rest is as logs 3, 4, 5, 9 to 12 say. -/
def Obligations.ResetStateIsFresh : Prop :=
  State.reset.dictSize = 256 ∧
  (∀ i, i < 256 → State.reset.dict[i]? = some { parent := none, value := BitVec.ofNat 8 i }) ∧
  State.reset.width = .w9 ∧ State.reset.encCode = none ∧ State.reset.decPrevCode = none ∧
  State.reset.encInPos = 0 ∧ State.reset.decBytesWritten = 0 ∧ State.reset.bwBitsWritten = 0 ∧ State.reset.brBitsRead = 0 ∧
  State.reset.status = .idle ∧ State.reset.cause = .none ∧ Cause.none.number = 0 ∧
  step State.reset = .next State.reset

/-- The invariant of R41 holds at reset. -/
def Obligations.ResetMeetsInvariant : Prop := Inv State.reset

/-- Every step, whatever the host does, keeps the invariant of R41. -/
def Obligations.StepKeepsInvariant : Prop :=
  ∀ s t : State, Inv s → step s = .next t → Inv t

/-- From a state that meets R41, with the SRC bytes of a running command in place and a host that keeps to R59, R212, R213, a
step is never stopped, and the SRC bytes of a command still running are still in place. -/
def Obligations.StepNeverStops : Prop :=
  ∀ s : State, Inv s → RunSupplied s →
    (∀ m rest, s.inbox = m :: rest → MoveAllowed m { s with inbox := rest }) →
    ∃ t, step s = .next t ∧ RunSupplied t

/-! ## A step runs the decoded instruction -/

/-- R5, R11, R81, R134, R147: when the host makes no move (an empty `inbox`, or its move is to wait, which is taken off), a
step of a running command runs the instruction that the decoder reads from the next input byte or from the next code word;
after the last input byte it runs ENC.FINISH and, unless that faulted, the normal end; when R147's condition is false it is the
decoder's end; when no command runs it changes nothing. Every other waiting move of the host is what the step makes, taken off
(that the moves wait in a list: log 12). -/
def Obligations.StepRunsDecodedInstruction : Prop :=
  (∀ s u : State, (s.inbox = [] ∧ u = s ∨ ∃ rest, s.inbox = .wait :: rest ∧ u = { s with inbox := rest }) →
    (u.status = .busy → u.command = .encode → encContinue u = true → ∀ v i rest, inputByte u = some v →
      decodeBytes (symbolCtx v u) [v] = .ok (i, rest) → i.wf = true ∧ step s = exec i u) ∧
    (u.status = .busy → u.command = .encode → encContinue u = false → ∀ t, exec .encFinish u = .next t →
      step s = if t.status = .busy then (encEnd t).done else .next t) ∧
    (u.status = .busy → u.command = .decode → decContinue u = true → ∀ bits i rest, nextWordBits u = some bits →
      decode (wordCtx u) bits = .ok (i, rest) → i.wf = true ∧ step s = exec i u) ∧
    (u.status = .busy → u.command = .decode → decContinue u = false → step s = .next (decEnd u)) ∧
    (u.status ≠ .busy → step s = .next u)) ∧
  (∀ (s : State) (m : HostMove) (rest : List HostMove), s.inbox = m :: rest → m ≠ .wait →
    step s = hostMove m { s with inbox := rest })

/-- The state that log 15 gives for a table word: its next step runs exactly the instruction the decoder reads from that word. -/
def Obligations.WithFetchWordRunsTableWord : Prop :=
  ∀ (s : State) (nbits w : Nat) (i : Instr), decodeTableWord nbits w = some i →
    step (s.withFetchWord nbits w) = exec i (s.withFetchWord nbits w)

/-! ## Encodings -/

/-- R71, R76, R81: in a state where a row's condition holds, the decoder reads the row's instruction back from its own words,
with every operand at every value, and leaves the bits behind them. -/
def Obligations.DecodeOfEncodeIsSame : Prop :=
  ∀ (ctx : Ctx) (i : Instr) (bits rest : List Bool), i.wf = true → selects ctx i = true → encode i = some bits →
    decode ctx (bits ++ rest) = .ok (i, rest)

/-- R71, R76, R80: what the decoder reads is well formed, its row's condition holds in that context, and the bits it took are
the row's own words, cut short where the stream ends (the missing bits being zeros). -/
def Obligations.DecodeReadsItsOwnWords : Prop :=
  ∀ (ctx : Ctx) (bits rest : List Bool) (i : Instr), decode ctx bits = .ok (i, rest) →
    i.wf = true ∧ selects ctx i = true ∧
    ∃ word, encode i = some word ∧ rest = bits.drop word.length ∧ bits ≠ [] ∧
      bits.take word.length ++ List.replicate (word.length - bits.length) false = word

/-- R76: in every context of a code word of the decoder that the codec can be in, every word is in exactly one row: each
non-empty bit sequence decodes, and at most one instruction with those words has its row's condition hold. -/
def Obligations.EveryWordHasOneRow : Prop :=
  ∀ (w : Width) (prevNil : Bool) (size : Nat), (prevNil = true → w = .w9) →
    (∀ bits, bits ≠ [] → ∃ i, decode (.word w prevNil size) bits = .ok (i, bits.drop w.bits)) ∧
    (∀ i j bits, i.wf = true → j.wf = true → selects (.word w prevNil size) i = true → selects (.word w prevNil size) j = true →
      encode i = some bits → encode j = some bits → i = j)

/-- Words written out from R71 and the opcode table: `001010100` (84/9) at the start of a stream is CW9.LIT 84, `100000000` is
CW9.BADLIT 0; with DICT.size 258 and a previous code 257/9, 258/9, 259/9 are REF, KWK, OOR; 1027/11 with DICT.size 1027 is
KWK; the input byte 0x4f is EXTEND or EMIT. -/
def Obligations.SampleWordsDecode : Prop :=
  decode (.word .w9 true 256) [false, false, true, false, true, false, true, false, false] = .ok (.cw9Lit 84, []) ∧
  decode (.word .w9 true 256) [false, false, false, false, false, false, false, false, true] = .ok (.cw9Badlit 0, []) ∧
  decode (.word .w9 false 258) [true, false, false, false, false, false, false, false, true] = .ok (.cw9Ref 257, []) ∧
  decode (.word .w9 false 258) [false, true, false, false, false, false, false, false, true] = .ok (.cw9Kwk 258, []) ∧
  decode (.word .w9 false 258) [true, true, false, false, false, false, false, false, true] = .ok (.cw9Oor 259, []) ∧
  decode (.word .w11 false 1027) [true, true, false, false, false, false, false, false, false, false, true] =
    .ok (.cw11Kwk 1027, []) ∧
  decode (.symbol true) [true, true, true, true, false, false, true, false] = .ok (.encExtend 0x4f, []) ∧
  decode (.symbol false) [true, true, true, true, false, false, true, false] = .ok (.encEmit 0x4f, [])

/-! ## Bit writer -/

/-- R90, R93, R94: BW.INIT empties the writer; BW.BYTECOUNT and BW.BITCOUNT answer ceil(bitsWritten/8) and bitsWritten. They
write nothing else (the result field is the model's own: log 11). -/
def Obligations.WriterInitAndCounts : Prop :=
  ∀ s : State,
    exec .bwInit s = .next { s with bwBitsWritten := 0 } ∧
    exec .bwBytecount s = .next { s with result := .count ((s.bwBitsWritten.toNat + 7) / 8) } ∧
    exec .bwBitcount s = .next { s with result := .count s.bwBitsWritten.toNat }

/-- R91: BW.APPENDBIT, in the order of its tests: OutputOverflow, BitCountOverflow, else one bit of one DST byte and the count.
A byte met at its bit 0 counts as 0. -/
def Obligations.AppendBitStoresOneBit : Prop :=
  ∀ (bit : Bool) (s : State),
    (∀ cap, s.encDstCap = some cap → cap ≤ s.bwBitsWritten.toNat / 8 →
      exec (.bwAppendbit bit) s = .next { s with status := .fault, cause := .outputOverflow }) ∧
    ((∀ cap, s.encDstCap = some cap → s.bwBitsWritten.toNat / 8 < cap) →
      (2 ^ 32 - 1 < s.bwBitsWritten.toNat + 1 →
        exec (.bwAppendbit bit) s = .next { s with status := .fault, cause := .bitCountOverflow }) ∧
      (s.bwBitsWritten.toNat + 1 ≤ 2 ^ 32 - 1 → ∀ old : Symbol,
        (s.bwBitsWritten.toNat % 8 = 0 → old = 0) →
        (s.bwBitsWritten.toNat % 8 ≠ 0 → s.dst.read (s.bwBitsWritten.toNat / 8) = some old) →
        ∃ t, exec (.bwAppendbit bit) s = .next t ∧
          t = { s with dst := t.dst, bwBitsWritten := t.bwBitsWritten } ∧
          t.bwBitsWritten.toNat = s.bwBitsWritten.toNat + 1 ∧
          t.dst.read (s.bwBitsWritten.toNat / 8) =
            some ((old &&& ~~~((1 : Symbol) <<< (s.bwBitsWritten.toNat % 8))) |||
              (BitVec.ofNat 8 bit.toNat <<< (s.bwBitsWritten.toNat % 8))) ∧
          DstSameOutside (s.bwBitsWritten.toNat / 8) (s.bwBitsWritten.toNat / 8 + 1) s t))

/-- R92: BW.APPENDBITS on a writer that holds a bit sequence appends the low bits of the value, least significant first,
and changes nothing but DST and the count; at the first bit that BW.APPENDBIT faults on, the bits before it are
written and the command ends. -/
def Obligations.AppendBitsAppendsLowBits : Prop :=
  ∀ (value width : Nat) (bits : List Bool) (s : State), WriterHolds bits s →
    (width = 0 ∨ BitsFit bits.length width s → ∃ t, exec (.bwAppendbits value width) s = .next t ∧
      t = { s with dst := t.dst, bwBitsWritten := t.bwBitsWritten } ∧
      WriterHolds (bits ++ valueBits width value) t ∧ DstSameOutside (bits.length / 8) ((bits.length + width + 7) / 8) s t) ∧
    (width ≠ 0 → ¬BitsFit bits.length width s → ∃ t b cause, exec (.bwAppendbits value width) s = .next t ∧
      b < width ∧ FirstFault bits.length b cause s ∧
      t = { s with dst := t.dst, bwBitsWritten := t.bwBitsWritten, status := .fault, cause := cause } ∧
      WriterHolds (bits ++ valueBits b value) t ∧ DstSameOutside (bits.length / 8) ((bits.length + b + 7) / 8) s t)

/-- R95: BW.RELEASE answers the DST bytes below BW.BYTECOUNT() and empties the writer; DST itself keeps its bytes. -/
def Obligations.ReleaseReturnsWrittenBytes : Prop :=
  ∀ (s : State) (bytes : List Symbol), bytes.length = (s.bwBitsWritten.toNat + 7) / 8 →
    (∀ a, a < bytes.length → s.dst.read a = bytes[a]?) →
    exec .bwRelease s = .next { s with bwBitsWritten := 0, result := .bytes bytes }

/-- R96, R52: the released bytes of a writer that holds a bit sequence are its packed buffer: stream bit n is bit n of the
sequence, and every padding bit of the last byte is 0. -/
def Obligations.ReleasedPaddingIsZero : Prop :=
  ∀ (s : State) (bits : List Bool), WriterHolds bits s → ∃ bytes,
    exec .bwRelease s = .next { s with bwBitsWritten := 0, result := .bytes bytes } ∧
    bytes.length = (bits.length + 7) / 8 ∧
    ∀ n, n < 8 * bytes.length → (streamBits bytes)[n]? = some (bits.getD n false)

/-! ## Bit reader -/

/-- R100: BR.OPEN refuses a valid bit count above 8 times the byte capacity with BadParameters, and else opens the stream at
bit 0. -/
def Obligations.OpenChecksValidBits : Prop :=
  ∀ (byteCapacity validBits : Count32) (s : State),
    (8 * byteCapacity.toNat < validBits.toNat →
      exec (.brOpen byteCapacity validBits) s = .next { s with status := .fault, cause := .badParameters }) ∧
    (validBits.toNat ≤ 8 * byteCapacity.toNat →
      exec (.brOpen byteCapacity validBits) s =
        .next { s with brByteCapacity := byteCapacity, brValidBits := validBits, brBitsRead := 0 })

/-- R101, R103: BR.READBIT answers `end` with nothing changed at the end of the stream, else the bit at BR.bitsRead and moves
past it; BR.EOS says which. -/
def Obligations.ReadBitReadsOneBit : Prop :=
  ∀ s : State,
    (s.brValidBits.toNat ≤ s.brBitsRead.toNat →
      exec .brReadbit s = .next { s with result := .bit none } ∧ exec .brEos s = .next { s with result := .flag true }) ∧
    (s.brBitsRead.toNat < s.brValidBits.toNat →
      exec .brEos s = .next { s with result := .flag false } ∧
      ∀ byte, s.src.read (s.brBitsRead.toNat / 8) = some byte →
        exec .brReadbit s = .next { s with
          brBitsRead := s.brBitsRead + 1
          result := .bit (some (byte.getLsbD (s.brBitsRead.toNat % 8))) })

/-- R102: BR.READBITS reads as many of the wanted bits as are valid, the first one into bit 0 of the result, and moves past
them. -/
def Obligations.ReadBitsReadsUpToWidth : Prop :=
  ∀ (width : Nat) (bits : List Bool) (s : State), bits.length = min width (s.brValidBits.toNat - s.brBitsRead.toNat) →
    SrcHolds s.brBitsRead.toNat bits s →
    ∃ t, exec (.brReadbits width) s = .next t ∧
      t = { s with brBitsRead := t.brBitsRead, result := .count (bitsValue bits) } ∧
      t.brBitsRead.toNat = s.brBitsRead.toNat + bits.length ∧ bitsValue bits < 2 ^ width ∧
      ∀ b, (bitsValue bits).testBit b = bits.getD b false

/-! ## Dictionary -/

/-- R111: DICT.RESET leaves the 256 roots and DICT.size 256, and touches nothing else. -/
def Obligations.DictResetLeavesRoots : Prop :=
  ∀ s : State, ∃ t, exec .dictReset s = .next t ∧ t = { s with dict := t.dict } ∧ t.dictSize = 256 ∧
    ∀ i, i < 256 → t.dict[i]? = some { parent := none, value := BitVec.ofNat 8 i }

/-- R112: DICT.FIND answers the lowest populated index with exactly that pair, or NotFound when there is none; in a table with
its roots a search below NIL answers the root code of the value. It writes nothing (the result field: log 11). -/
def Obligations.FindAnswersLowestMatch : Prop :=
  ∀ (parent : OptCode) (value : Symbol) (s : State), ∃ r, exec (.dictFind parent value) s = .next { s with result := .code r } ∧
    (s.dictSize ≤ 4096 →
      (r = none ↔ ∀ i : Nat, s.dict[i]? ≠ some { parent := parent, value := value }) ∧
      (∀ c, r = some c ↔ s.dict[c.toNat]? = some { parent := parent, value := value } ∧
        ∀ i, i < c.toNat → s.dict[i]? ≠ some { parent := parent, value := value })) ∧
    (DictWf s.dict → parent = none → r = some (rootCode value))

/-- R113: DICT.ADD on a full table answers false and changes nothing; else it appends the entry and answers true. -/
def Obligations.AddAppendsEntry : Prop :=
  ∀ (parent : Code) (value : Symbol) (s : State),
    (s.dictSize = 4096 → exec (.dictAdd parent value) s = .next { s with result := .flag false }) ∧
    (s.dictSize ≠ 4096 → exec (.dictAdd parent value) s = .next { s with
      dict := s.dict ++ [{ parent := some parent, value := value }]
      result := .flag true })

/-- R114: DICT.GROW raises WIDTH by one when DICT.size is 2^WIDTH, resets the table and WIDTH at 4096 and 12 and answers true
then, and otherwise changes nothing. -/
def Obligations.GrowFollowsTable : Prop :=
  ∀ s : State,
    (s.dictSize = 512 → s.width = .w9 → exec .dictGrow s = .next { s with width := .w10, result := .flag false }) ∧
    (s.dictSize = 1024 → s.width = .w10 → exec .dictGrow s = .next { s with width := .w11, result := .flag false }) ∧
    (s.dictSize = 2048 → s.width = .w11 → exec .dictGrow s = .next { s with width := .w12, result := .flag false }) ∧
    (s.dictSize = 4096 → s.width = .w12 →
      ∃ t, exec .dictGrow s = .next t ∧ t = { s with dict := t.dict, width := .w9, result := .flag true } ∧
        t.dictSize = 256 ∧ ∀ i, i < 256 → t.dict[i]? = some { parent := none, value := BitVec.ofNat 8 i }) ∧
    (s.dictSize ≠ 2 ^ s.width.bits → exec .dictGrow s = .next { s with result := .flag false })

/-- R115, R120: on a populated code of a well-formed table DICT.SEQ answers Seq(code) and its first byte, and writes only the
scratch buffer, the collected symbols in the order of the walk. That S beyond the walk is unchanged is the model's frame (log
4; 93 U9 allows any value), and R120 is an inference the spec marks as derived. -/
def Obligations.SeqAnswersSequence : Prop :=
  ∀ (code : Code) (s : State), DictWf s.dict → code.toNat < s.dictSize →
    ∃ bytes first scratch, exec (.dictSeq code) s = .next { s with scratch := scratch, result := .seq bytes first } ∧
      IsSeq s.dict code bytes ∧ bytes.head? = some first ∧ (∀ other, IsSeq s.dict code other → other = bytes) ∧
      (∀ i, i < bytes.length → scratch[i]? = bytes.reverse[i]?) ∧
      (∀ i, bytes.length ≤ i → scratch[i]? = s.scratch[i]?)

/-- R117: the sequence of a root code is one byte long, that of a dynamic code i at most i - 254 bytes. -/
def Obligations.SequenceDepthBound : Prop :=
  ∀ (dict : List Entry) (code : Code) (bytes : List Symbol), DictWf dict → IsSeq dict code bytes →
    (code.toNat < 256 → bytes = [codeSymbol code]) ∧ (256 ≤ code.toNat → bytes.length + 254 ≤ code.toNat)

/-! ## Encoder steps -/

/-- R131: ENC.INIT. -/
def Obligations.EncInitState : Prop :=
  ∀ s : State, ∃ t, exec .encInit s = .next t ∧
    t = { s with dict := t.dict, width := .w9, encCode := none, encInPos := 0, bwBitsWritten := 0 } ∧
    t.dictSize = 256 ∧ ∀ i, i < 256 → t.dict[i]? = some { parent := none, value := BitVec.ofNat 8 i }

/-- R132: where an input byte is left and DICT.FIND finds (ENC.code, value), ENC.EXTEND writes ENC.code and ENC.inPos only;
with ENC.code NIL the find gives the root code. -/
def Obligations.ExtendMovesMatch : Prop :=
  ∀ (value : Symbol) (s : State), DictWf s.dict → s.encInPos.toNat < s.pInputBytes.toNat →
    (∀ idx : Code, s.dict[idx.toNat]? = some { parent := s.encCode, value := value } →
      (∀ i, i < idx.toNat → s.dict[i]? ≠ some { parent := s.encCode, value := value }) →
      exec (.encExtend value) s = .next { s with encCode := some idx, encInPos := s.encInPos + 1 }) ∧
    (s.encCode = none →
      exec (.encExtend value) s = .next { s with encCode := some (rootCode value), encInPos := s.encInPos + 1 })

/-- R133: where an input byte is left and no entry is (ENC.code, value), ENC.EMIT appends ENC.code at WIDTH bits, makes the
width check, adds the entry unless the check reset, and starts the next match at the root code; when the emission faults, at
its first bit that does not fit, the bits before it are written and none of the later lines runs. -/
def Obligations.EmitWritesCodeThenGrows : Prop :=
  ∀ (value : Symbol) (code : Code) (bits : List Bool) (s : State),
    s.encInPos.toNat < s.pInputBytes.toNat → s.encCode = some code → WriterHolds bits s → EncSizes s.width s.dictSize →
    (∀ i : Nat, s.dict[i]? ≠ some { parent := some code, value := value }) →
    (BitsFit bits.length s.width.bits s → ∃ t, exec (.encEmit value) s = .next t ∧
      t = { s with
        dst := t.dst, bwBitsWritten := t.bwBitsWritten, dict := t.dict, width := t.width,
        encCode := some (rootCode value), encInPos := s.encInPos + 1 } ∧
      WriterHolds (bits ++ valueBits s.width.bits code.toNat) t ∧
      DstSameOutside (bits.length / 8) ((bits.length + s.width.bits + 7) / 8) s t ∧
      (s.dictSize = 4096 → t.dict = rootTable ∧ t.width = .w9) ∧
      (s.dictSize = 2 ^ s.width.bits → s.dictSize ≠ 4096 →
        t.dict = s.dict ++ [{ parent := some code, value := value }] ∧ t.width.bits = s.width.bits + 1) ∧
      (s.dictSize ≠ 2 ^ s.width.bits →
        t.dict = s.dict ++ [{ parent := some code, value := value }] ∧ t.width = s.width)) ∧
    (¬BitsFit bits.length s.width.bits s → ∃ t b cause, exec (.encEmit value) s = .next t ∧
      b < s.width.bits ∧ FirstFault bits.length b cause s ∧
      t = { s with dst := t.dst, bwBitsWritten := t.bwBitsWritten, status := .fault, cause := cause } ∧
      WriterHolds (bits ++ valueBits b code.toNat) t)

/-- R134: ENC.FINISH does nothing when ENC.code is NIL, and else appends ENC.code at WIDTH bits and does nothing more. -/
def Obligations.FinishWritesLastCode : Prop :=
  ∀ s : State,
    (s.encCode = none → exec .encFinish s = .next s) ∧
    (∀ code bits, s.encCode = some code → WriterHolds bits s →
      (BitsFit bits.length s.width.bits s → ∃ t, exec .encFinish s = .next t ∧
        t = { s with dst := t.dst, bwBitsWritten := t.bwBitsWritten } ∧
        WriterHolds (bits ++ valueBits s.width.bits code.toNat) t ∧
        DstSameOutside (bits.length / 8) ((bits.length + s.width.bits + 7) / 8) s t) ∧
      (¬BitsFit bits.length s.width.bits s → ∃ t b cause, exec .encFinish s = .next t ∧
        b < s.width.bits ∧ FirstFault bits.length b cause s ∧
        t = { s with dst := t.dst, bwBitsWritten := t.bwBitsWritten, status := .fault, cause := cause } ∧
        WriterHolds (bits ++ valueBits b code.toNat) t))

/-! ## Decoder steps -/

/-- R146: DEC.INIT raises BadParameters before anything else is done, or opens the reader and makes the dictionary, WIDTH,
DEC.prevCode and DEC.bytesWritten fresh. DEC.firstByte gets no stated value (a free one and the draw count: log 8). -/
def Obligations.DecInitState : Prop :=
  ∀ s : State,
    (8 * s.pCompBytes.toNat < s.pCompBits.toNat →
      exec .decInit s = .next { s with status := .fault, cause := .badParameters }) ∧
    (s.pCompBits.toNat ≤ 8 * s.pCompBytes.toNat → ∃ t, exec .decInit s = .next t ∧
      t = { s with
        brByteCapacity := s.pCompBytes, brValidBits := s.pCompBits, brBitsRead := 0, dict := t.dict, width := .w9,
        decPrevCode := none, decBytesWritten := 0, decFirstByte := t.decFirstByte, freeTick := t.freeTick } ∧
      t.dictSize = 256 ∧ ∀ i, i < 256 → t.dict[i]? = some { parent := none, value := BitVec.ofNat 8 i })

/-- R148: DEC.FETCH reads the next WIDTH bits, or the fewer that are left with zeros above them, into DEC.code. -/
def Obligations.FetchReadsCode : Prop :=
  ∀ (bits : List Bool) (s : State), bits.length = min s.width.bits (s.brValidBits.toNat - s.brBitsRead.toNat) →
    SrcHolds s.brBitsRead.toNat bits s →
    ∃ t, exec .decFetch s = .next t ∧ t = { s with decCode := t.decCode, brBitsRead := t.brBitsRead } ∧
      t.decCode.toNat = bitsValue bits ∧ t.brBitsRead.toNat = s.brBitsRead.toNat + bits.length

/-- R153: DEC.WRITE stores the bytes in order from offset DEC.bytesWritten on, drops those that P_EXPECTED_BYTES leaves no room
for, and changes nothing else. -/
def Obligations.WriteCutsAtExpectedBytes : Prop :=
  ∀ (bytes : List Symbol) (s : State), ∃ t, exec (.decWrite bytes) s = .next t ∧
    t = { s with dst := t.dst, decBytesWritten := t.decBytesWritten } ∧ OutputAppended bytes s t

/-- R154: DEC.UPDATE adds (DEC.prevCode, DEC.firstByte), makes the width check, and sets DEC.prevCode to NIL after an epoch
reset and else to DEC.code. DICT.ADD always has room (R119). -/
def Obligations.UpdateAddsThenGrows : Prop :=
  ∀ (prev : Code) (s : State), s.decPrevCode = some prev → s.dictSize < 4096 → ∃ t, exec .decUpdate s = .next t ∧
    t = { s with dict := t.dict, width := t.width, decPrevCode := t.decPrevCode } ∧
    TableUpdated prev s.decFirstByte s.decCode s t

/-- R149: DEC.LIT writes the byte, sets DEC.firstByte and DEC.prevCode to the code, and touches neither dictionary nor WIDTH. -/
def Obligations.LitWritesByte : Prop :=
  ∀ s : State, s.decPrevCode = none → s.decCode.toNat < 256 → ∃ t, exec .decLit s = .next t ∧
    t = { s with
      dst := t.dst, decBytesWritten := t.decBytesWritten, decFirstByte := codeSymbol s.decCode,
      decPrevCode := some s.decCode } ∧
    OutputAppended [codeSymbol s.decCode] s t

/-- R151: DEC.KWK writes Seq(DEC.prevCode) and its first byte again, sets DEC.firstByte to that byte, and updates the table. -/
def Obligations.KwkWritesPreviousAndFirst : Prop :=
  ∀ (prev : Code) (s : State), DictWf s.dict → s.decPrevCode = some prev → prev.toNat < s.dictSize → s.dictSize < 4096 →
    s.decCode.toNat = s.dictSize →
    ∃ t bytes first, exec .decKwk s = .next t ∧ IsSeq s.dict prev bytes ∧ bytes.head? = some first ∧
      t = { s with
        dst := t.dst, decBytesWritten := t.decBytesWritten, decFirstByte := first, scratch := t.scratch,
        dict := t.dict, width := t.width, decPrevCode := t.decPrevCode } ∧
      OutputAppended (bytes ++ [first]) s t ∧ TableUpdated prev first s.decCode s t

/-- R152: DEC.REF writes Seq(DEC.code), sets DEC.firstByte to its first byte, and updates the table. -/
def Obligations.RefWritesSequence : Prop :=
  ∀ (prev : Code) (s : State), DictWf s.dict → s.decPrevCode = some prev → s.dictSize < 4096 → s.decCode.toNat < s.dictSize →
    ∃ t bytes first, exec .decRef s = .next t ∧ IsSeq s.dict s.decCode bytes ∧ bytes.head? = some first ∧
      t = { s with
        dst := t.dst, decBytesWritten := t.decBytesWritten, decFirstByte := first, scratch := t.scratch,
        dict := t.dict, width := t.width, decPrevCode := t.decPrevCode } ∧
      OutputAppended bytes s t ∧ TableUpdated prev first s.decCode s t

/-! ## Code words: whole decoder steps -/

/-- CW9.LIT (R76, R148, R149): the first word of an epoch, below 256, is fetched and its byte written. -/
def Obligations.LiteralWordWritesByte : Prop :=
  ∀ (v : Symbol) (s : State), s.width = .w9 → s.decPrevCode = none → ∃ t, exec (.cw9Lit v) s = .next t ∧
    t = { s with
      decCode := rootCode v, brBitsRead := t.brBitsRead, dst := t.dst, decBytesWritten := t.decBytesWritten,
      decFirstByte := v, decPrevCode := some (rootCode v) } ∧
    t.brBitsRead.toNat = s.brBitsRead.toNat + min 9 (s.brValidBits.toNat - s.brBitsRead.toNat) ∧
    OutputAppended [v] s t

/-- CW9.BADLIT (R189, R150): the first word of an epoch, 256 + c, ends the command with BadLiteral (CAUSE 1), its value in
FAULT_CODE and the stream bit number of its first bit in FAULT_POS; only the fetch has taken effect. -/
def Obligations.BadLiteralWordFaults : Prop :=
  ∀ (c : BitVec 8) (s : State), s.width = .w9 → s.decPrevCode = none → ∃ t, exec (.cw9Badlit c) s = .next t ∧
    t = { s with
      decCode := t.decCode, brBitsRead := t.brBitsRead, status := .fault, cause := .badLiteral, faultCode := t.faultCode,
      faultPos := s.brBitsRead } ∧
    t.cause.number = 1 ∧ t.decCode.toNat = 256 + c.toNat ∧ t.faultCode.toNat = 256 + c.toNat ∧
    t.brBitsRead.toNat = s.brBitsRead.toNat + min 9 (s.brValidBits.toNat - s.brBitsRead.toNat)

/-- CW9.OOR, CW10.OOR, CW11.OOR, CW12.OOR (R190, R150): a later word above DICT.size ends the command with CodeOutOfRange (CAUSE
2); only the fetch has taken effect. -/
def Obligations.OutOfRangeWordFaults : Prop :=
  ∀ (c : Code) (s : State), s.decPrevCode ≠ none → s.dictSize < c.toNat → ∃ t, exec (oorRow s.width c) s = .next t ∧
    t = { s with
      decCode := c, brBitsRead := t.brBitsRead, status := .fault, cause := .codeOutOfRange, faultCode := c,
      faultPos := s.brBitsRead } ∧
    t.cause.number = 2 ∧
    t.brBitsRead.toNat = s.brBitsRead.toNat + min s.width.bits (s.brValidBits.toNat - s.brBitsRead.toNat)

/-- CW9.REF, CW10.REF, CW11.REF, CW12.REF (R76, R148, R152, R154): a later word below DICT.size. -/
def Obligations.RefWordWritesSequence : Prop :=
  ∀ (c prev : Code) (s : State), DictWf s.dict → s.decPrevCode = some prev → s.dictSize < 4096 → c.toNat < s.dictSize →
    ∃ t bytes first, exec (refRow s.width c) s = .next t ∧ IsSeq s.dict c bytes ∧ bytes.head? = some first ∧
      t = { s with
        decCode := c, brBitsRead := t.brBitsRead, dst := t.dst, decBytesWritten := t.decBytesWritten, decFirstByte := first,
        scratch := t.scratch, dict := t.dict, width := t.width, decPrevCode := t.decPrevCode } ∧
      t.brBitsRead.toNat = s.brBitsRead.toNat + min s.width.bits (s.brValidBits.toNat - s.brBitsRead.toNat) ∧
      OutputAppended bytes s t ∧ TableUpdated prev first c s t

/-- CW9.KWK, CW10.KWK, CW11.KWK, CW12.KWK (R76, R148, R151, R154): a later word equal to DICT.size. -/
def Obligations.KwkWordWritesPreviousAndFirst : Prop :=
  ∀ (c prev : Code) (s : State), DictWf s.dict → s.decPrevCode = some prev → prev.toNat < s.dictSize → s.dictSize < 4096 →
    c.toNat = s.dictSize →
    ∃ t bytes first, exec (kwkRow s.width c) s = .next t ∧ IsSeq s.dict prev bytes ∧ bytes.head? = some first ∧
      t = { s with
        decCode := c, brBitsRead := t.brBitsRead, dst := t.dst, decBytesWritten := t.decBytesWritten, decFirstByte := first,
        scratch := t.scratch, dict := t.dict, width := t.width, decPrevCode := t.decPrevCode } ∧
      t.brBitsRead.toNat = s.brBitsRead.toNat + min s.width.bits (s.brValidBits.toNat - s.brBitsRead.toNat) ∧
      OutputAppended (bytes ++ [first]) s t ∧ TableUpdated prev first c s t

/-! ## Commands -/

/-- R171, R135: LZW.ENCODE given while not BUSY, its input in place, ends in DONE or in one of its two faults. In DONE,
R_COMP_BYTES = ceil(R_COMP_BITS / 8), the host reads R_COMP_BYTES bytes of DST, CAUSE is 0, and an empty input gives 0 bits.
SRC, the parameter registers, ENC_DST_CAP and the host's further moves are as before. -/
def Obligations.EncodeCommandEnds : Prop :=
  ∀ s : State, s.status ≠ .busy → SrcSupplied s.pInputBytes.toNat s → ∃ t, exec .lzwEncode s = .next t ∧
    (t.status = .done ∧ t.cause = .none ∧ t.rCompBytes.toNat = (t.rCompBits.toNat + 7) / 8 ∧
      hostCompBits t = some t.rCompBits ∧ hostCompBytes t = some t.rCompBytes ∧
      (∃ bytes, hostBytes t = some bytes ∧ bytes.length = t.rCompBytes.toNat) ∧
      (s.pInputBytes = 0 → t.rCompBits = 0) ∨
     t.status = .fault ∧ (t.cause = .outputOverflow ∨ t.cause = .bitCountOverflow)) ∧
    t.src = s.src ∧ t.pInputBytes = s.pInputBytes ∧ t.pCompBytes = s.pCompBytes ∧ t.pCompBits = s.pCompBits ∧
    t.pExpectedBytes = s.pExpectedBytes ∧ t.encDstCap = s.encDstCap ∧ t.inbox = s.inbox

/-- R172, R155: LZW.DECODE given while not BUSY, its valid bits in place, ends in BadParameters exactly when P_COMP_BITS is above
8 × P_COMP_BYTES, and else in DONE or in one of its two stream faults. In DONE the host reads R_OUT_BYTES bytes of DST, at most
P_EXPECTED_BYTES, and CAUSE is 0; a stream fault's position lies inside the valid bits. -/
def Obligations.DecodeCommandEnds : Prop :=
  ∀ s : State, s.status ≠ .busy → SrcSupplied ((s.pCompBits.toNat + 7) / 8) s → ∃ t, exec .lzwDecode s = .next t ∧
    (8 * s.pCompBytes.toNat < s.pCompBits.toNat ∧ t.status = .fault ∧ t.cause = .badParameters ∨
     s.pCompBits.toNat ≤ 8 * s.pCompBytes.toNat ∧
      (t.status = .done ∧ t.cause = .none ∧ t.rOutBytes.toNat ≤ s.pExpectedBytes.toNat ∧ hostOutBytes t = some t.rOutBytes ∧
        (∃ bytes, hostBytes t = some bytes ∧ bytes.length = t.rOutBytes.toNat) ∨
       t.status = .fault ∧ (t.cause = .badLiteral ∨ t.cause = .codeOutOfRange) ∧
        t.faultPos.toNat < s.pCompBits.toNat)) ∧
    t.src = s.src ∧ t.pInputBytes = s.pInputBytes ∧ t.pCompBytes = s.pCompBytes ∧ t.pCompBits = s.pCompBits ∧
    t.pExpectedBytes = s.pExpectedBytes ∧ t.encDstCap = s.encDstCap ∧ t.inbox = s.inbox

/-- R176: a command given while BUSY changes no state, in either form. -/
def Obligations.CommandWhileBusyChangesNothing : Prop :=
  ∀ s : State, s.status = .busy →
    exec .lzwEncode s = .next s ∧ exec .lzwDecode s = .next s ∧ ∀ form c, giveCommand form c s = .next s

/-- R171, R172, R198: a command given in the step-by-step form while not BUSY, after a fault or not, is BUSY with CAUSE 0 and the
working registers of R42 when its initialisation has run; for LZW.DECODE where P_COMP_BITS is at most 8 × P_COMP_BYTES (else R192:
DecodeCommandEnds, DecInitState). -/
def Obligations.StepwiseCommandStartsFresh : Prop :=
  ∀ s : State, s.status ≠ .busy →
    (∃ t, giveCommand .stepwise .encode s = .next t ∧ t.status = .busy ∧ t.cause = .none ∧ t.dict = rootTable ∧ t.width = .w9 ∧
      t.encCode = none ∧ t.encInPos = 0 ∧ t.bwBitsWritten = 0 ∧ t.src = s.src) ∧
    (s.pCompBits.toNat ≤ 8 * s.pCompBytes.toNat →
      ∃ t, giveCommand .stepwise .decode s = .next t ∧ t.status = .busy ∧ t.cause = .none ∧ t.dict = rootTable ∧ t.width = .w9 ∧
        t.decPrevCode = none ∧ t.decBytesWritten = 0 ∧ t.brBitsRead = 0 ∧ t.brValidBits = s.pCompBits ∧
        t.brByteCapacity = s.pCompBytes ∧ t.src = s.src)

/-- R194, R197: fault entry. STATUS, CAUSE (1 to 5, 0 for none), and for causes 1 and 2 FAULT_CODE and FAULT_POS, are all that changes, and the host has no
result to read. -/
def Obligations.FaultEntryWritesStatusAndCause : Prop :=
  ∀ (f : CodecFault) (s : State),
    raiseFault f s =
      (match f with
        | .badLiteral code position =>
          { s with status := .fault, cause := .badLiteral, faultCode := code, faultPos := position }
        | .codeOutOfRange code position =>
          { s with status := .fault, cause := .codeOutOfRange, faultCode := code, faultPos := position }
        | .outputOverflow => { s with status := .fault, cause := .outputOverflow }
        | .badParameters => { s with status := .fault, cause := .badParameters }
        | .bitCountOverflow => { s with status := .fault, cause := .bitCountOverflow }) ∧
    Cause.none.number = 0 ∧
    (raiseFault f s).cause.number =
      (match f with
        | .badLiteral _ _ => 1
        | .codeOutOfRange _ _ => 2
        | .outputOverflow => 3
        | .badParameters => 4
        | .bitCountOverflow => 5) ∧
    hostBytes (raiseFault f s) = none ∧ hostCompBits (raiseFault f s) = none ∧ hostCompBytes (raiseFault f s) = none ∧
    hostOutBytes (raiseFault f s) = none ∧ ∀ a, hostByte (raiseFault f s) a = none

/-- R174: the only ways STATUS changes in a step. -/
def Obligations.StatusTransitions : Prop :=
  ∀ s t : State, step s = .next t →
    t.status = s.status ∨
    (∃ rest, s.inbox = .hwReset :: rest ∧ t.status = .idle) ∨
    (∃ form c rest, s.inbox = .give form c :: rest ∧ s.status ≠ .busy ∧
      (form = .stepwise ∧ t.status = .busy ∨ t.status = .done ∨ t.status = .fault)) ∨
    (s.status = .busy ∧ (s.inbox = [] ∨ ∃ rest, s.inbox = .wait :: rest) ∧ (t.status = .done ∨ t.status = .fault))

/-- R175, R205: while STATUS is DONE, every move but a command and a reset leaves the results the host reads as they are. -/
def Obligations.ResultsStayUntilNextCommand : Prop :=
  ∀ s t : State, s.status = .done → step s = .next t →
    (∀ m rest, s.inbox = m :: rest → m ≠ .hwReset ∧ ∀ form c, m ≠ .give form c) →
    t.status = .done ∧ t.cause = s.cause ∧ hostBytes t = hostBytes s ∧ hostCompBits t = hostCompBits s ∧
      hostCompBytes t = hostCompBytes s ∧ hostOutBytes t = hostOutBytes s ∧ ∀ a, hostByte t a = hostByte s a

/-- R35, R56, R63: no instruction writes SRC, a parameter register or ENC_DST_CAP, or takes a move of the host. -/
def Obligations.InstructionsNeverWriteSource : Prop :=
  ∀ (i : Instr) (s t : State), exec i s = .next t →
    t.src = s.src ∧ t.pInputBytes = s.pInputBytes ∧ t.pCompBytes = s.pCompBytes ∧ t.pCompBits = s.pCompBits ∧
      t.pExpectedBytes = s.pExpectedBytes ∧ t.encDstCap = s.encDstCap ∧ t.inbox = s.inbox

/-- R59, R213 as the model has them (log 12): while BUSY a move on SRC, DST or a parameter register is no move at all. -/
def Obligations.HostCannotTouchBuffersWhileBusy : Prop :=
  ∀ s : State, s.status = .busy →
    (∀ p v, hostMove (.setParam p v) s = .refused .hostMoveWhileBusy) ∧
    (∀ bytes, hostMove (.placeSrc bytes) s = .refused .hostMoveWhileBusy) ∧
    (∀ cap, hostMove (.supplyDst cap) s = .refused .hostMoveWhileBusy)

/-! ## Whole-machine rules -/

/-- R5, R136: LZW.ENCODE as one transaction and step by step come to the same state: the command's first lines, one step for each
input byte, one for FINISH and the end. -/
def Obligations.EncodeStepsAgreeWithTransaction : Prop :=
  ∀ s : State, s.status ≠ .busy → s.inbox = [] →
    core.run (s.pInputBytes.toNat + 2) { s with inbox := [.give .stepwise .encode] } = exec .lzwEncode s

/-- R5, R156, R219: LZW.DECODE as one transaction and step by step come to the same state, within P_COMP_BITS steps beside the
command's first lines and its end. -/
def Obligations.DecodeStepsAgreeWithTransaction : Prop :=
  ∀ s : State, s.status ≠ .busy → s.inbox = [] →
    core.run (s.pCompBits.toNat + 2) { s with inbox := [.give .stepwise .decode] } = exec .lzwDecode s

/-- R211: the outcome of a command does not depend on what was before it: two states that agree on SRC, the parameter registers
and ENC_DST_CAP give the same outcome, whatever else they hold. -/
def Obligations.CommandIgnoresHistory : Prop :=
  ∀ s s' : State, s.status ≠ .busy → s'.status ≠ .busy → s.src = s'.src → s.pInputBytes = s'.pInputBytes →
    s.pCompBytes = s'.pCompBytes → s.pCompBits = s'.pCompBits → s.pExpectedBytes = s'.pExpectedBytes →
    s.encDstCap = s'.encDstCap →
    SameResult (exec .lzwEncode s) (exec .lzwEncode s') ∧ SameResult (exec .lzwDecode s) (exec .lzwDecode s')

/-- R104, R145: the outcome of LZW.DECODE is a function of the first P_COMP_BITS bits of SRC, P_COMP_BITS and P_EXPECTED_BYTES,
once the check of R100 has passed; an inference the spec marks as derived (from R100 to R103 and R156). -/
def Obligations.DecodeDependsOnValidBitsOnly : Prop :=
  ∀ s s' : State, s.status ≠ .busy → s'.status ≠ .busy → s.pCompBits = s'.pCompBits → s.pExpectedBytes = s'.pExpectedBytes →
    s.pCompBits.toNat ≤ 8 * s.pCompBytes.toNat → s'.pCompBits.toNat ≤ 8 * s'.pCompBytes.toNat →
    (∀ n, n < s.pCompBits.toNat → s.src.bitAt n = s'.src.bitAt n) →
    SameResult (exec .lzwDecode s) (exec .lzwDecode s')

/-- R130: the outcome of LZW.ENCODE is a function of the input bytes and of ENC_DST_CAP: SRC beyond P_INPUT_BYTES and the
parameters of the other command play no part. -/
def Obligations.EncodeDependsOnInputOnly : Prop :=
  ∀ s s' : State, s.status ≠ .busy → s'.status ≠ .busy → s.pInputBytes = s'.pInputBytes → s.encDstCap = s'.encDstCap →
    (∀ a, a < s.pInputBytes.toNat → s.src.read a = s'.src.read a) →
    SameResult (exec .lzwEncode s) (exec .lzwEncode s')

/-- R140: for every byte sequence whose LZW.ENCODE ends in DONE, LZW.DECODE of its output, with R_COMP_BITS, R_COMP_BYTES and
the input's length as parameters, ends in DONE with the sequence itself; and with 12 bits a byte below 2^32 (R139) and a DST
that has room (R65), LZW.ENCODE does end in DONE. The states before the two commands are arbitrary otherwise. -/
def Obligations.DecodeOfEncodeReturnsInput : Prop :=
  ∀ (input : List Symbol) (s : State), s.status ≠ .busy →
    (∀ a, a < input.length → s.src.read a = input[a]?) → s.pInputBytes.toNat = input.length →
    (12 * input.length < 2 ^ 32 → (∀ cap, s.encDstCap = some cap → (12 * input.length + 7) / 8 ≤ cap) →
      ∃ t, exec .lzwEncode s = .next t ∧ t.status = .done) ∧
    (∀ t, exec .lzwEncode s = .next t → t.status = .done → ∃ stream, hostBytes t = some stream ∧
      ∀ u : State, u.status ≠ .busy → (∀ a, a < stream.length → u.src.read a = stream[a]?) →
        u.pCompBits = t.rCompBits → u.pCompBytes = t.rCompBytes → u.pExpectedBytes.toNat = input.length →
        ∃ v, exec .lzwDecode u = .next v ∧ v.status = .done ∧ v.rOutBytes.toNat = input.length ∧ hostBytes v = some input)

/-- R65, R139: with 12 bits a byte below 2^32 and a DST of ceil(12 × P_INPUT_BYTES / 8) bytes, an encode never faults, and it
writes at most 12 bits, and at least one word of 9 bits, for a non-empty input. -/
def Obligations.EncodeFitsTwelveBitsPerByte : Prop :=
  ∀ s : State, s.status ≠ .busy → SrcSupplied s.pInputBytes.toNat s → 12 * s.pInputBytes.toNat < 2 ^ 32 →
    (∀ cap, s.encDstCap = some cap → (12 * s.pInputBytes.toNat + 7) / 8 ≤ cap) →
    ∃ t, exec .lzwEncode s = .next t ∧ t.status = .done ∧ t.rCompBits.toNat ≤ 12 * s.pInputBytes.toNat ∧
      (0 < s.pInputBytes.toNat → 9 ≤ t.rCompBits.toNat)

/-- R159 (a), R186: with P_EXPECTED_BYTES = N not above the length of the result, the result is its first N bytes. -/
def Obligations.OutputTruncationGivesFirstBytes : Prop :=
  ∀ (s t : State) (bytes : List Symbol) (n : Count32), s.status ≠ .busy → exec .lzwDecode s = .next t →
    hostBytes t = some bytes → n.toNat ≤ bytes.length →
    ∃ u, exec .lzwDecode { s with pExpectedBytes := n } = .next u ∧ u.status = .done ∧ u.rOutBytes = n ∧
      hostBytes u = some (bytes.take n.toNat)

/-! ## Where the model stops -/

/-- Logs 5, 13, 17, 18: the places where an operation stops by name: a DST or SRC byte that holds no value, a code that is not
populated, a walk past the scratch buffer, a NIL where a Code must stand, a row in a state where its condition does not hold
(an input byte left and DICT.FIND's answer; the class of the word, R76; for a code-word row also its WIDTH). -/
def Obligations.StopsAreNamed : Prop :=
  ∀ s : State,
    (∀ bit, (∀ cap, s.encDstCap = some cap → s.bwBitsWritten.toNat / 8 < cap) → s.bwBitsWritten.toNat + 1 < 2 ^ 32 →
      s.bwBitsWritten.toNat % 8 ≠ 0 → s.dst.read (s.bwBitsWritten.toNat / 8) = none →
      exec (.bwAppendbit bit) s = .fault .dstUnwritten) ∧
    (∀ a, a < (s.bwBitsWritten.toNat + 7) / 8 → s.dst.read a = none → exec .bwRelease s = .fault .dstUnwritten) ∧
    (s.brBitsRead.toNat < s.brValidBits.toNat → s.src.read (s.brBitsRead.toNat / 8) = none →
      exec .brReadbit s = .fault .srcUnwritten ∧ (∀ width, width ≠ 0 → exec (.brReadbits width) s = .fault .srcUnwritten) ∧
      exec .decFetch s = .fault .srcUnwritten) ∧
    (∀ code : Code, s.dictSize ≤ code.toNat → exec (.dictSeq code) s = .fault .seqUnpopulated) ∧
    (∀ (code : Code) (e : Entry), s.dict[code.toNat]? = some e → e.parent = some code →
      exec (.dictSeq code) s = .fault .scratchOverflow) ∧
    (s.decPrevCode = none → exec .decUpdate s = .fault .nilCode) ∧
    (∀ v, s.encInPos.toNat < s.pInputBytes.toNat → s.encCode = none →
      (∀ i : Nat, s.dict[i]? ≠ some { parent := none, value := v }) → exec (.encEmit v) s = .fault .nilCode) ∧
    (∀ v, s.pInputBytes.toNat ≤ s.encInPos.toNat ∨ (∀ i : Nat, s.dict[i]? ≠ some { parent := s.encCode, value := v }) →
      exec (.encExtend v) s = .refused .notSelected) ∧
    (∀ v, s.pInputBytes.toNat ≤ s.encInPos.toNat ∨ (∃ i : Nat, s.dict[i]? = some { parent := s.encCode, value := v }) →
      exec (.encEmit v) s = .refused .notSelected) ∧
    (s.decPrevCode ≠ none ∨ 256 ≤ s.decCode.toNat → exec .decLit s = .refused .notSelected) ∧
    (s.decPrevCode = none ∨ s.decCode.toNat ≠ s.dictSize → exec .decKwk s = .refused .notSelected) ∧
    (s.decPrevCode = none ∨ s.dictSize ≤ s.decCode.toNat → exec .decRef s = .refused .notSelected) ∧
    (s.width ≠ .w9 ∨ s.decPrevCode ≠ none →
      (∀ v, exec (.cw9Lit v) s = .refused .notSelected) ∧ ∀ c, exec (.cw9Badlit c) s = .refused .notSelected) ∧
    (∀ (w : Width) (c : Code),
      (w ≠ s.width ∨ s.decPrevCode = none ∨ s.dictSize ≤ c.toNat → exec (refRow w c) s = .refused .notSelected) ∧
      (w ≠ s.width ∨ s.decPrevCode = none ∨ c.toNat ≠ s.dictSize → exec (kwkRow w c) s = .refused .notSelected) ∧
      (w ≠ s.width ∨ s.decPrevCode = none ∨ c.toNat ≤ s.dictSize → exec (oorRow w c) s = .refused .notSelected))

/-- R35, R65, R212: while no command runs, each move of the host on a parameter register, SRC or DST's capacity writes what it
names and nothing else. That SRC holds no value behind the bytes placed is the model's (log 5), that the capacity is a field is
log 9. -/
def Obligations.HostMovesWriteWhatTheyName : Prop :=
  ∀ s : State, s.status ≠ .busy →
    (∀ v, hostMove (.setParam .inputBytes v) s = .next { s with pInputBytes := v } ∧
      hostMove (.setParam .compBytes v) s = .next { s with pCompBytes := v } ∧
      hostMove (.setParam .compBits v) s = .next { s with pCompBits := v } ∧
      hostMove (.setParam .expectedBytes v) s = .next { s with pExpectedBytes := v }) ∧
    (∀ bytes, ∃ t, hostMove (.placeSrc bytes) s = .next t ∧ t = { s with src := t.src } ∧
      ∀ a, t.src.read a = bytes[a]?) ∧
    (∀ cap, hostMove (.supplyDst cap) s = .next { s with encDstCap := cap })
end

