-- ==== Sys2Proof/Laws/State.lean ====
section
/-! SUPPORT. One lemma per field per named update, so that no proof unfolds one. -/

namespace Sys2Proof.Machine

/-! ### raiseFault -/

@[simp] theorem raiseFault_dict (f : CodecFault) (s : State) : (raiseFault f s).dict = s.dict := rfl
@[simp] theorem raiseFault_width (f : CodecFault) (s : State) : (raiseFault f s).width = s.width := rfl
@[simp] theorem raiseFault_encCode (f : CodecFault) (s : State) : (raiseFault f s).encCode = s.encCode := rfl
@[simp] theorem raiseFault_encInPos (f : CodecFault) (s : State) : (raiseFault f s).encInPos = s.encInPos := rfl
@[simp] theorem raiseFault_decPrevCode (f : CodecFault) (s : State) : (raiseFault f s).decPrevCode = s.decPrevCode := rfl
@[simp] theorem raiseFault_decFirstByte (f : CodecFault) (s : State) : (raiseFault f s).decFirstByte = s.decFirstByte := rfl
@[simp] theorem raiseFault_decBytesWritten (f : CodecFault) (s : State) : (raiseFault f s).decBytesWritten = s.decBytesWritten := rfl
@[simp] theorem raiseFault_decCode (f : CodecFault) (s : State) : (raiseFault f s).decCode = s.decCode := rfl
@[simp] theorem raiseFault_bwBitsWritten (f : CodecFault) (s : State) : (raiseFault f s).bwBitsWritten = s.bwBitsWritten := rfl
@[simp] theorem raiseFault_brBitsRead (f : CodecFault) (s : State) : (raiseFault f s).brBitsRead = s.brBitsRead := rfl
@[simp] theorem raiseFault_brValidBits (f : CodecFault) (s : State) : (raiseFault f s).brValidBits = s.brValidBits := rfl
@[simp] theorem raiseFault_brByteCapacity (f : CodecFault) (s : State) : (raiseFault f s).brByteCapacity = s.brByteCapacity := rfl
@[simp] theorem raiseFault_scratch (f : CodecFault) (s : State) : (raiseFault f s).scratch = s.scratch := rfl
@[simp] theorem raiseFault_pInputBytes (f : CodecFault) (s : State) : (raiseFault f s).pInputBytes = s.pInputBytes := rfl
@[simp] theorem raiseFault_pCompBytes (f : CodecFault) (s : State) : (raiseFault f s).pCompBytes = s.pCompBytes := rfl
@[simp] theorem raiseFault_pCompBits (f : CodecFault) (s : State) : (raiseFault f s).pCompBits = s.pCompBits := rfl
@[simp] theorem raiseFault_pExpectedBytes (f : CodecFault) (s : State) : (raiseFault f s).pExpectedBytes = s.pExpectedBytes := rfl
@[simp] theorem raiseFault_rCompBits (f : CodecFault) (s : State) : (raiseFault f s).rCompBits = s.rCompBits := rfl
@[simp] theorem raiseFault_rCompBytes (f : CodecFault) (s : State) : (raiseFault f s).rCompBytes = s.rCompBytes := rfl
@[simp] theorem raiseFault_rOutBytes (f : CodecFault) (s : State) : (raiseFault f s).rOutBytes = s.rOutBytes := rfl
@[simp] theorem raiseFault_status (f : CodecFault) (s : State) : (raiseFault f s).status = .fault := rfl
@[simp] theorem raiseFault_cause (f : CodecFault) (s : State) : (raiseFault f s).cause = f.cause := rfl
@[simp] theorem raiseFault_faultCode (f : CodecFault) (s : State) : (raiseFault f s).faultCode = f.codeOr s.faultCode := rfl
@[simp] theorem raiseFault_faultPos (f : CodecFault) (s : State) : (raiseFault f s).faultPos = f.posOr s.faultPos := rfl
@[simp] theorem raiseFault_src (f : CodecFault) (s : State) : (raiseFault f s).src = s.src := rfl
@[simp] theorem raiseFault_dst (f : CodecFault) (s : State) : (raiseFault f s).dst = s.dst := rfl
@[simp] theorem raiseFault_encDstCap (f : CodecFault) (s : State) : (raiseFault f s).encDstCap = s.encDstCap := rfl
@[simp] theorem raiseFault_command (f : CodecFault) (s : State) : (raiseFault f s).command = s.command := rfl
@[simp] theorem raiseFault_result (f : CodecFault) (s : State) : (raiseFault f s).result = s.result := rfl
@[simp] theorem raiseFault_inbox (f : CodecFault) (s : State) : (raiseFault f s).inbox = s.inbox := rfl
@[simp] theorem raiseFault_freeTick (f : CodecFault) (s : State) : (raiseFault f s).freeTick = s.freeTick := rfl

/-! ### beginCommand -/

@[simp] theorem beginCommand_dict (c : Command) (s : State) : (beginCommand c s).dict = s.dict := rfl
@[simp] theorem beginCommand_width (c : Command) (s : State) : (beginCommand c s).width = s.width := rfl
@[simp] theorem beginCommand_encCode (c : Command) (s : State) : (beginCommand c s).encCode = s.encCode := rfl
@[simp] theorem beginCommand_encInPos (c : Command) (s : State) : (beginCommand c s).encInPos = s.encInPos := rfl
@[simp] theorem beginCommand_decPrevCode (c : Command) (s : State) : (beginCommand c s).decPrevCode = s.decPrevCode := rfl
@[simp] theorem beginCommand_decFirstByte (c : Command) (s : State) : (beginCommand c s).decFirstByte = s.decFirstByte := rfl
@[simp] theorem beginCommand_decBytesWritten (c : Command) (s : State) : (beginCommand c s).decBytesWritten = s.decBytesWritten := rfl
@[simp] theorem beginCommand_decCode (c : Command) (s : State) : (beginCommand c s).decCode = s.decCode := rfl
@[simp] theorem beginCommand_bwBitsWritten (c : Command) (s : State) : (beginCommand c s).bwBitsWritten = s.bwBitsWritten := rfl
@[simp] theorem beginCommand_brBitsRead (c : Command) (s : State) : (beginCommand c s).brBitsRead = s.brBitsRead := rfl
@[simp] theorem beginCommand_brValidBits (c : Command) (s : State) : (beginCommand c s).brValidBits = s.brValidBits := rfl
@[simp] theorem beginCommand_brByteCapacity (c : Command) (s : State) : (beginCommand c s).brByteCapacity = s.brByteCapacity := rfl
@[simp] theorem beginCommand_scratch (c : Command) (s : State) : (beginCommand c s).scratch = s.scratch := rfl
@[simp] theorem beginCommand_pInputBytes (c : Command) (s : State) : (beginCommand c s).pInputBytes = s.pInputBytes := rfl
@[simp] theorem beginCommand_pCompBytes (c : Command) (s : State) : (beginCommand c s).pCompBytes = s.pCompBytes := rfl
@[simp] theorem beginCommand_pCompBits (c : Command) (s : State) : (beginCommand c s).pCompBits = s.pCompBits := rfl
@[simp] theorem beginCommand_pExpectedBytes (c : Command) (s : State) : (beginCommand c s).pExpectedBytes = s.pExpectedBytes := rfl
@[simp] theorem beginCommand_rCompBits (c : Command) (s : State) : (beginCommand c s).rCompBits = Config.freeCount s.freeTick := rfl
@[simp] theorem beginCommand_rCompBytes (c : Command) (s : State) : (beginCommand c s).rCompBytes = Config.freeCount (s.freeTick + 1) := rfl
@[simp] theorem beginCommand_rOutBytes (c : Command) (s : State) : (beginCommand c s).rOutBytes = Config.freeCount (s.freeTick + 2) := rfl
@[simp] theorem beginCommand_status (c : Command) (s : State) : (beginCommand c s).status = .busy := rfl
@[simp] theorem beginCommand_cause (c : Command) (s : State) : (beginCommand c s).cause = .none := rfl
@[simp] theorem beginCommand_faultCode (c : Command) (s : State) : (beginCommand c s).faultCode = Config.freeCode s.freeTick := rfl
@[simp] theorem beginCommand_faultPos (c : Command) (s : State) : (beginCommand c s).faultPos = Config.freeCount (s.freeTick + 3) := rfl
@[simp] theorem beginCommand_src (c : Command) (s : State) : (beginCommand c s).src = s.src := rfl
@[simp] theorem beginCommand_dst (c : Command) (s : State) : (beginCommand c s).dst = [] := rfl
@[simp] theorem beginCommand_encDstCap (c : Command) (s : State) : (beginCommand c s).encDstCap = s.encDstCap := rfl
@[simp] theorem beginCommand_command (c : Command) (s : State) : (beginCommand c s).command = c := rfl
@[simp] theorem beginCommand_result (c : Command) (s : State) : (beginCommand c s).result = s.result := rfl
@[simp] theorem beginCommand_inbox (c : Command) (s : State) : (beginCommand c s).inbox = s.inbox := rfl
@[simp] theorem beginCommand_freeTick (c : Command) (s : State) : (beginCommand c s).freeTick = s.freeTick + 4 := rfl

/-! ### dictReset -/

@[simp] theorem dictReset_dict (s : State) : (dictReset s).dict = rootTable := rfl
@[simp] theorem dictReset_width (s : State) : (dictReset s).width = s.width := rfl
@[simp] theorem dictReset_encCode (s : State) : (dictReset s).encCode = s.encCode := rfl
@[simp] theorem dictReset_encInPos (s : State) : (dictReset s).encInPos = s.encInPos := rfl
@[simp] theorem dictReset_decPrevCode (s : State) : (dictReset s).decPrevCode = s.decPrevCode := rfl
@[simp] theorem dictReset_decFirstByte (s : State) : (dictReset s).decFirstByte = s.decFirstByte := rfl
@[simp] theorem dictReset_decBytesWritten (s : State) : (dictReset s).decBytesWritten = s.decBytesWritten := rfl
@[simp] theorem dictReset_decCode (s : State) : (dictReset s).decCode = s.decCode := rfl
@[simp] theorem dictReset_bwBitsWritten (s : State) : (dictReset s).bwBitsWritten = s.bwBitsWritten := rfl
@[simp] theorem dictReset_brBitsRead (s : State) : (dictReset s).brBitsRead = s.brBitsRead := rfl
@[simp] theorem dictReset_brValidBits (s : State) : (dictReset s).brValidBits = s.brValidBits := rfl
@[simp] theorem dictReset_brByteCapacity (s : State) : (dictReset s).brByteCapacity = s.brByteCapacity := rfl
@[simp] theorem dictReset_scratch (s : State) : (dictReset s).scratch = s.scratch := rfl
@[simp] theorem dictReset_pInputBytes (s : State) : (dictReset s).pInputBytes = s.pInputBytes := rfl
@[simp] theorem dictReset_pCompBytes (s : State) : (dictReset s).pCompBytes = s.pCompBytes := rfl
@[simp] theorem dictReset_pCompBits (s : State) : (dictReset s).pCompBits = s.pCompBits := rfl
@[simp] theorem dictReset_pExpectedBytes (s : State) : (dictReset s).pExpectedBytes = s.pExpectedBytes := rfl
@[simp] theorem dictReset_rCompBits (s : State) : (dictReset s).rCompBits = s.rCompBits := rfl
@[simp] theorem dictReset_rCompBytes (s : State) : (dictReset s).rCompBytes = s.rCompBytes := rfl
@[simp] theorem dictReset_rOutBytes (s : State) : (dictReset s).rOutBytes = s.rOutBytes := rfl
@[simp] theorem dictReset_status (s : State) : (dictReset s).status = s.status := rfl
@[simp] theorem dictReset_cause (s : State) : (dictReset s).cause = s.cause := rfl
@[simp] theorem dictReset_faultCode (s : State) : (dictReset s).faultCode = s.faultCode := rfl
@[simp] theorem dictReset_faultPos (s : State) : (dictReset s).faultPos = s.faultPos := rfl
@[simp] theorem dictReset_src (s : State) : (dictReset s).src = s.src := rfl
@[simp] theorem dictReset_dst (s : State) : (dictReset s).dst = s.dst := rfl
@[simp] theorem dictReset_encDstCap (s : State) : (dictReset s).encDstCap = s.encDstCap := rfl
@[simp] theorem dictReset_command (s : State) : (dictReset s).command = s.command := rfl
@[simp] theorem dictReset_result (s : State) : (dictReset s).result = s.result := rfl
@[simp] theorem dictReset_inbox (s : State) : (dictReset s).inbox = s.inbox := rfl
@[simp] theorem dictReset_freeTick (s : State) : (dictReset s).freeTick = s.freeTick := rfl

/-! ### bwInit -/

@[simp] theorem bwInit_dict (s : State) : (bwInit s).dict = s.dict := rfl
@[simp] theorem bwInit_width (s : State) : (bwInit s).width = s.width := rfl
@[simp] theorem bwInit_encCode (s : State) : (bwInit s).encCode = s.encCode := rfl
@[simp] theorem bwInit_encInPos (s : State) : (bwInit s).encInPos = s.encInPos := rfl
@[simp] theorem bwInit_decPrevCode (s : State) : (bwInit s).decPrevCode = s.decPrevCode := rfl
@[simp] theorem bwInit_decFirstByte (s : State) : (bwInit s).decFirstByte = s.decFirstByte := rfl
@[simp] theorem bwInit_decBytesWritten (s : State) : (bwInit s).decBytesWritten = s.decBytesWritten := rfl
@[simp] theorem bwInit_decCode (s : State) : (bwInit s).decCode = s.decCode := rfl
@[simp] theorem bwInit_bwBitsWritten (s : State) : (bwInit s).bwBitsWritten = 0 := rfl
@[simp] theorem bwInit_brBitsRead (s : State) : (bwInit s).brBitsRead = s.brBitsRead := rfl
@[simp] theorem bwInit_brValidBits (s : State) : (bwInit s).brValidBits = s.brValidBits := rfl
@[simp] theorem bwInit_brByteCapacity (s : State) : (bwInit s).brByteCapacity = s.brByteCapacity := rfl
@[simp] theorem bwInit_scratch (s : State) : (bwInit s).scratch = s.scratch := rfl
@[simp] theorem bwInit_pInputBytes (s : State) : (bwInit s).pInputBytes = s.pInputBytes := rfl
@[simp] theorem bwInit_pCompBytes (s : State) : (bwInit s).pCompBytes = s.pCompBytes := rfl
@[simp] theorem bwInit_pCompBits (s : State) : (bwInit s).pCompBits = s.pCompBits := rfl
@[simp] theorem bwInit_pExpectedBytes (s : State) : (bwInit s).pExpectedBytes = s.pExpectedBytes := rfl
@[simp] theorem bwInit_rCompBits (s : State) : (bwInit s).rCompBits = s.rCompBits := rfl
@[simp] theorem bwInit_rCompBytes (s : State) : (bwInit s).rCompBytes = s.rCompBytes := rfl
@[simp] theorem bwInit_rOutBytes (s : State) : (bwInit s).rOutBytes = s.rOutBytes := rfl
@[simp] theorem bwInit_status (s : State) : (bwInit s).status = s.status := rfl
@[simp] theorem bwInit_cause (s : State) : (bwInit s).cause = s.cause := rfl
@[simp] theorem bwInit_faultCode (s : State) : (bwInit s).faultCode = s.faultCode := rfl
@[simp] theorem bwInit_faultPos (s : State) : (bwInit s).faultPos = s.faultPos := rfl
@[simp] theorem bwInit_src (s : State) : (bwInit s).src = s.src := rfl
@[simp] theorem bwInit_dst (s : State) : (bwInit s).dst = s.dst := rfl
@[simp] theorem bwInit_encDstCap (s : State) : (bwInit s).encDstCap = s.encDstCap := rfl
@[simp] theorem bwInit_command (s : State) : (bwInit s).command = s.command := rfl
@[simp] theorem bwInit_result (s : State) : (bwInit s).result = s.result := rfl
@[simp] theorem bwInit_inbox (s : State) : (bwInit s).inbox = s.inbox := rfl
@[simp] theorem bwInit_freeTick (s : State) : (bwInit s).freeTick = s.freeTick := rfl

/-! ### encInit -/

@[simp] theorem encInit_dict (s : State) : (encInit s).dict = rootTable := rfl
@[simp] theorem encInit_width (s : State) : (encInit s).width = .w9 := rfl
@[simp] theorem encInit_encCode (s : State) : (encInit s).encCode = none := rfl
@[simp] theorem encInit_encInPos (s : State) : (encInit s).encInPos = 0 := rfl
@[simp] theorem encInit_decPrevCode (s : State) : (encInit s).decPrevCode = s.decPrevCode := rfl
@[simp] theorem encInit_decFirstByte (s : State) : (encInit s).decFirstByte = s.decFirstByte := rfl
@[simp] theorem encInit_decBytesWritten (s : State) : (encInit s).decBytesWritten = s.decBytesWritten := rfl
@[simp] theorem encInit_decCode (s : State) : (encInit s).decCode = s.decCode := rfl
@[simp] theorem encInit_bwBitsWritten (s : State) : (encInit s).bwBitsWritten = 0 := rfl
@[simp] theorem encInit_brBitsRead (s : State) : (encInit s).brBitsRead = s.brBitsRead := rfl
@[simp] theorem encInit_brValidBits (s : State) : (encInit s).brValidBits = s.brValidBits := rfl
@[simp] theorem encInit_brByteCapacity (s : State) : (encInit s).brByteCapacity = s.brByteCapacity := rfl
@[simp] theorem encInit_scratch (s : State) : (encInit s).scratch = s.scratch := rfl
@[simp] theorem encInit_pInputBytes (s : State) : (encInit s).pInputBytes = s.pInputBytes := rfl
@[simp] theorem encInit_pCompBytes (s : State) : (encInit s).pCompBytes = s.pCompBytes := rfl
@[simp] theorem encInit_pCompBits (s : State) : (encInit s).pCompBits = s.pCompBits := rfl
@[simp] theorem encInit_pExpectedBytes (s : State) : (encInit s).pExpectedBytes = s.pExpectedBytes := rfl
@[simp] theorem encInit_rCompBits (s : State) : (encInit s).rCompBits = s.rCompBits := rfl
@[simp] theorem encInit_rCompBytes (s : State) : (encInit s).rCompBytes = s.rCompBytes := rfl
@[simp] theorem encInit_rOutBytes (s : State) : (encInit s).rOutBytes = s.rOutBytes := rfl
@[simp] theorem encInit_status (s : State) : (encInit s).status = s.status := rfl
@[simp] theorem encInit_cause (s : State) : (encInit s).cause = s.cause := rfl
@[simp] theorem encInit_faultCode (s : State) : (encInit s).faultCode = s.faultCode := rfl
@[simp] theorem encInit_faultPos (s : State) : (encInit s).faultPos = s.faultPos := rfl
@[simp] theorem encInit_src (s : State) : (encInit s).src = s.src := rfl
@[simp] theorem encInit_dst (s : State) : (encInit s).dst = s.dst := rfl
@[simp] theorem encInit_encDstCap (s : State) : (encInit s).encDstCap = s.encDstCap := rfl
@[simp] theorem encInit_command (s : State) : (encInit s).command = s.command := rfl
@[simp] theorem encInit_result (s : State) : (encInit s).result = s.result := rfl
@[simp] theorem encInit_inbox (s : State) : (encInit s).inbox = s.inbox := rfl
@[simp] theorem encInit_freeTick (s : State) : (encInit s).freeTick = s.freeTick := rfl

/-! ### nextInput -/

@[simp] theorem nextInput_dict (s : State) : (nextInput s).dict = s.dict := rfl
@[simp] theorem nextInput_width (s : State) : (nextInput s).width = s.width := rfl
@[simp] theorem nextInput_encCode (s : State) : (nextInput s).encCode = s.encCode := rfl
@[simp] theorem nextInput_encInPos (s : State) : (nextInput s).encInPos = BitVec.ofNat 32 (s.encInPos.toNat + 1) := rfl
@[simp] theorem nextInput_decPrevCode (s : State) : (nextInput s).decPrevCode = s.decPrevCode := rfl
@[simp] theorem nextInput_decFirstByte (s : State) : (nextInput s).decFirstByte = s.decFirstByte := rfl
@[simp] theorem nextInput_decBytesWritten (s : State) : (nextInput s).decBytesWritten = s.decBytesWritten := rfl
@[simp] theorem nextInput_decCode (s : State) : (nextInput s).decCode = s.decCode := rfl
@[simp] theorem nextInput_bwBitsWritten (s : State) : (nextInput s).bwBitsWritten = s.bwBitsWritten := rfl
@[simp] theorem nextInput_brBitsRead (s : State) : (nextInput s).brBitsRead = s.brBitsRead := rfl
@[simp] theorem nextInput_brValidBits (s : State) : (nextInput s).brValidBits = s.brValidBits := rfl
@[simp] theorem nextInput_brByteCapacity (s : State) : (nextInput s).brByteCapacity = s.brByteCapacity := rfl
@[simp] theorem nextInput_scratch (s : State) : (nextInput s).scratch = s.scratch := rfl
@[simp] theorem nextInput_pInputBytes (s : State) : (nextInput s).pInputBytes = s.pInputBytes := rfl
@[simp] theorem nextInput_pCompBytes (s : State) : (nextInput s).pCompBytes = s.pCompBytes := rfl
@[simp] theorem nextInput_pCompBits (s : State) : (nextInput s).pCompBits = s.pCompBits := rfl
@[simp] theorem nextInput_pExpectedBytes (s : State) : (nextInput s).pExpectedBytes = s.pExpectedBytes := rfl
@[simp] theorem nextInput_rCompBits (s : State) : (nextInput s).rCompBits = s.rCompBits := rfl
@[simp] theorem nextInput_rCompBytes (s : State) : (nextInput s).rCompBytes = s.rCompBytes := rfl
@[simp] theorem nextInput_rOutBytes (s : State) : (nextInput s).rOutBytes = s.rOutBytes := rfl
@[simp] theorem nextInput_status (s : State) : (nextInput s).status = s.status := rfl
@[simp] theorem nextInput_cause (s : State) : (nextInput s).cause = s.cause := rfl
@[simp] theorem nextInput_faultCode (s : State) : (nextInput s).faultCode = s.faultCode := rfl
@[simp] theorem nextInput_faultPos (s : State) : (nextInput s).faultPos = s.faultPos := rfl
@[simp] theorem nextInput_src (s : State) : (nextInput s).src = s.src := rfl
@[simp] theorem nextInput_dst (s : State) : (nextInput s).dst = s.dst := rfl
@[simp] theorem nextInput_encDstCap (s : State) : (nextInput s).encDstCap = s.encDstCap := rfl
@[simp] theorem nextInput_command (s : State) : (nextInput s).command = s.command := rfl
@[simp] theorem nextInput_result (s : State) : (nextInput s).result = s.result := rfl
@[simp] theorem nextInput_inbox (s : State) : (nextInput s).inbox = s.inbox := rfl
@[simp] theorem nextInput_freeTick (s : State) : (nextInput s).freeTick = s.freeTick := rfl

/-! ### encExtend -/

@[simp] theorem encExtend_dict (idx : Code) (s : State) : (encExtend idx s).dict = s.dict := rfl
@[simp] theorem encExtend_width (idx : Code) (s : State) : (encExtend idx s).width = s.width := rfl
@[simp] theorem encExtend_encCode (idx : Code) (s : State) : (encExtend idx s).encCode = some idx := rfl
@[simp] theorem encExtend_encInPos (idx : Code) (s : State) : (encExtend idx s).encInPos = BitVec.ofNat 32 (s.encInPos.toNat + 1) := rfl
@[simp] theorem encExtend_decPrevCode (idx : Code) (s : State) : (encExtend idx s).decPrevCode = s.decPrevCode := rfl
@[simp] theorem encExtend_decFirstByte (idx : Code) (s : State) : (encExtend idx s).decFirstByte = s.decFirstByte := rfl
@[simp] theorem encExtend_decBytesWritten (idx : Code) (s : State) : (encExtend idx s).decBytesWritten = s.decBytesWritten := rfl
@[simp] theorem encExtend_decCode (idx : Code) (s : State) : (encExtend idx s).decCode = s.decCode := rfl
@[simp] theorem encExtend_bwBitsWritten (idx : Code) (s : State) : (encExtend idx s).bwBitsWritten = s.bwBitsWritten := rfl
@[simp] theorem encExtend_brBitsRead (idx : Code) (s : State) : (encExtend idx s).brBitsRead = s.brBitsRead := rfl
@[simp] theorem encExtend_brValidBits (idx : Code) (s : State) : (encExtend idx s).brValidBits = s.brValidBits := rfl
@[simp] theorem encExtend_brByteCapacity (idx : Code) (s : State) : (encExtend idx s).brByteCapacity = s.brByteCapacity := rfl
@[simp] theorem encExtend_scratch (idx : Code) (s : State) : (encExtend idx s).scratch = s.scratch := rfl
@[simp] theorem encExtend_pInputBytes (idx : Code) (s : State) : (encExtend idx s).pInputBytes = s.pInputBytes := rfl
@[simp] theorem encExtend_pCompBytes (idx : Code) (s : State) : (encExtend idx s).pCompBytes = s.pCompBytes := rfl
@[simp] theorem encExtend_pCompBits (idx : Code) (s : State) : (encExtend idx s).pCompBits = s.pCompBits := rfl
@[simp] theorem encExtend_pExpectedBytes (idx : Code) (s : State) : (encExtend idx s).pExpectedBytes = s.pExpectedBytes := rfl
@[simp] theorem encExtend_rCompBits (idx : Code) (s : State) : (encExtend idx s).rCompBits = s.rCompBits := rfl
@[simp] theorem encExtend_rCompBytes (idx : Code) (s : State) : (encExtend idx s).rCompBytes = s.rCompBytes := rfl
@[simp] theorem encExtend_rOutBytes (idx : Code) (s : State) : (encExtend idx s).rOutBytes = s.rOutBytes := rfl
@[simp] theorem encExtend_status (idx : Code) (s : State) : (encExtend idx s).status = s.status := rfl
@[simp] theorem encExtend_cause (idx : Code) (s : State) : (encExtend idx s).cause = s.cause := rfl
@[simp] theorem encExtend_faultCode (idx : Code) (s : State) : (encExtend idx s).faultCode = s.faultCode := rfl
@[simp] theorem encExtend_faultPos (idx : Code) (s : State) : (encExtend idx s).faultPos = s.faultPos := rfl
@[simp] theorem encExtend_src (idx : Code) (s : State) : (encExtend idx s).src = s.src := rfl
@[simp] theorem encExtend_dst (idx : Code) (s : State) : (encExtend idx s).dst = s.dst := rfl
@[simp] theorem encExtend_encDstCap (idx : Code) (s : State) : (encExtend idx s).encDstCap = s.encDstCap := rfl
@[simp] theorem encExtend_command (idx : Code) (s : State) : (encExtend idx s).command = s.command := rfl
@[simp] theorem encExtend_result (idx : Code) (s : State) : (encExtend idx s).result = s.result := rfl
@[simp] theorem encExtend_inbox (idx : Code) (s : State) : (encExtend idx s).inbox = s.inbox := rfl
@[simp] theorem encExtend_freeTick (idx : Code) (s : State) : (encExtend idx s).freeTick = s.freeTick := rfl

/-! ### wordFetched -/

@[simp] theorem wordFetched_dict (w : Code) (s : State) : (wordFetched w s).dict = s.dict := rfl
@[simp] theorem wordFetched_width (w : Code) (s : State) : (wordFetched w s).width = s.width := rfl
@[simp] theorem wordFetched_encCode (w : Code) (s : State) : (wordFetched w s).encCode = s.encCode := rfl
@[simp] theorem wordFetched_encInPos (w : Code) (s : State) : (wordFetched w s).encInPos = s.encInPos := rfl
@[simp] theorem wordFetched_decPrevCode (w : Code) (s : State) : (wordFetched w s).decPrevCode = s.decPrevCode := rfl
@[simp] theorem wordFetched_decFirstByte (w : Code) (s : State) : (wordFetched w s).decFirstByte = s.decFirstByte := rfl
@[simp] theorem wordFetched_decBytesWritten (w : Code) (s : State) : (wordFetched w s).decBytesWritten = s.decBytesWritten := rfl
@[simp] theorem wordFetched_decCode (w : Code) (s : State) : (wordFetched w s).decCode = w := rfl
@[simp] theorem wordFetched_bwBitsWritten (w : Code) (s : State) : (wordFetched w s).bwBitsWritten = s.bwBitsWritten := rfl
@[simp] theorem wordFetched_brBitsRead (w : Code) (s : State) : (wordFetched w s).brBitsRead = BitVec.ofNat 32 (s.brBitsRead.toNat + fetchLength s.width.bits s) := rfl
@[simp] theorem wordFetched_brValidBits (w : Code) (s : State) : (wordFetched w s).brValidBits = s.brValidBits := rfl
@[simp] theorem wordFetched_brByteCapacity (w : Code) (s : State) : (wordFetched w s).brByteCapacity = s.brByteCapacity := rfl
@[simp] theorem wordFetched_scratch (w : Code) (s : State) : (wordFetched w s).scratch = s.scratch := rfl
@[simp] theorem wordFetched_pInputBytes (w : Code) (s : State) : (wordFetched w s).pInputBytes = s.pInputBytes := rfl
@[simp] theorem wordFetched_pCompBytes (w : Code) (s : State) : (wordFetched w s).pCompBytes = s.pCompBytes := rfl
@[simp] theorem wordFetched_pCompBits (w : Code) (s : State) : (wordFetched w s).pCompBits = s.pCompBits := rfl
@[simp] theorem wordFetched_pExpectedBytes (w : Code) (s : State) : (wordFetched w s).pExpectedBytes = s.pExpectedBytes := rfl
@[simp] theorem wordFetched_rCompBits (w : Code) (s : State) : (wordFetched w s).rCompBits = s.rCompBits := rfl
@[simp] theorem wordFetched_rCompBytes (w : Code) (s : State) : (wordFetched w s).rCompBytes = s.rCompBytes := rfl
@[simp] theorem wordFetched_rOutBytes (w : Code) (s : State) : (wordFetched w s).rOutBytes = s.rOutBytes := rfl
@[simp] theorem wordFetched_status (w : Code) (s : State) : (wordFetched w s).status = s.status := rfl
@[simp] theorem wordFetched_cause (w : Code) (s : State) : (wordFetched w s).cause = s.cause := rfl
@[simp] theorem wordFetched_faultCode (w : Code) (s : State) : (wordFetched w s).faultCode = s.faultCode := rfl
@[simp] theorem wordFetched_faultPos (w : Code) (s : State) : (wordFetched w s).faultPos = s.faultPos := rfl
@[simp] theorem wordFetched_src (w : Code) (s : State) : (wordFetched w s).src = s.src := rfl
@[simp] theorem wordFetched_dst (w : Code) (s : State) : (wordFetched w s).dst = s.dst := rfl
@[simp] theorem wordFetched_encDstCap (w : Code) (s : State) : (wordFetched w s).encDstCap = s.encDstCap := rfl
@[simp] theorem wordFetched_command (w : Code) (s : State) : (wordFetched w s).command = s.command := rfl
@[simp] theorem wordFetched_result (w : Code) (s : State) : (wordFetched w s).result = s.result := rfl
@[simp] theorem wordFetched_inbox (w : Code) (s : State) : (wordFetched w s).inbox = s.inbox := rfl
@[simp] theorem wordFetched_freeTick (w : Code) (s : State) : (wordFetched w s).freeTick = s.freeTick := rfl

/-! ### decEnd -/

@[simp] theorem decEnd_dict (s : State) : (decEnd s).dict = s.dict := rfl
@[simp] theorem decEnd_width (s : State) : (decEnd s).width = s.width := rfl
@[simp] theorem decEnd_encCode (s : State) : (decEnd s).encCode = s.encCode := rfl
@[simp] theorem decEnd_encInPos (s : State) : (decEnd s).encInPos = s.encInPos := rfl
@[simp] theorem decEnd_decPrevCode (s : State) : (decEnd s).decPrevCode = s.decPrevCode := rfl
@[simp] theorem decEnd_decFirstByte (s : State) : (decEnd s).decFirstByte = s.decFirstByte := rfl
@[simp] theorem decEnd_decBytesWritten (s : State) : (decEnd s).decBytesWritten = s.decBytesWritten := rfl
@[simp] theorem decEnd_decCode (s : State) : (decEnd s).decCode = s.decCode := rfl
@[simp] theorem decEnd_bwBitsWritten (s : State) : (decEnd s).bwBitsWritten = s.bwBitsWritten := rfl
@[simp] theorem decEnd_brBitsRead (s : State) : (decEnd s).brBitsRead = s.brBitsRead := rfl
@[simp] theorem decEnd_brValidBits (s : State) : (decEnd s).brValidBits = s.brValidBits := rfl
@[simp] theorem decEnd_brByteCapacity (s : State) : (decEnd s).brByteCapacity = s.brByteCapacity := rfl
@[simp] theorem decEnd_scratch (s : State) : (decEnd s).scratch = s.scratch := rfl
@[simp] theorem decEnd_pInputBytes (s : State) : (decEnd s).pInputBytes = s.pInputBytes := rfl
@[simp] theorem decEnd_pCompBytes (s : State) : (decEnd s).pCompBytes = s.pCompBytes := rfl
@[simp] theorem decEnd_pCompBits (s : State) : (decEnd s).pCompBits = s.pCompBits := rfl
@[simp] theorem decEnd_pExpectedBytes (s : State) : (decEnd s).pExpectedBytes = s.pExpectedBytes := rfl
@[simp] theorem decEnd_rCompBits (s : State) : (decEnd s).rCompBits = s.rCompBits := rfl
@[simp] theorem decEnd_rCompBytes (s : State) : (decEnd s).rCompBytes = s.rCompBytes := rfl
@[simp] theorem decEnd_rOutBytes (s : State) : (decEnd s).rOutBytes = s.decBytesWritten := rfl
@[simp] theorem decEnd_status (s : State) : (decEnd s).status = .done := rfl
@[simp] theorem decEnd_cause (s : State) : (decEnd s).cause = s.cause := rfl
@[simp] theorem decEnd_faultCode (s : State) : (decEnd s).faultCode = s.faultCode := rfl
@[simp] theorem decEnd_faultPos (s : State) : (decEnd s).faultPos = s.faultPos := rfl
@[simp] theorem decEnd_src (s : State) : (decEnd s).src = s.src := rfl
@[simp] theorem decEnd_dst (s : State) : (decEnd s).dst = s.dst := rfl
@[simp] theorem decEnd_encDstCap (s : State) : (decEnd s).encDstCap = s.encDstCap := rfl
@[simp] theorem decEnd_command (s : State) : (decEnd s).command = s.command := rfl
@[simp] theorem decEnd_result (s : State) : (decEnd s).result = s.result := rfl
@[simp] theorem decEnd_inbox (s : State) : (decEnd s).inbox = s.inbox := rfl
@[simp] theorem decEnd_freeTick (s : State) : (decEnd s).freeTick = s.freeTick := rfl

end Sys2Proof.Machine
end

