-- ==== Sys2Proof/Laws/Dictionary.lean ====
section
/-! SUPPORT. What the dictionary operations do (42_dictionary.md). -/

namespace Sys2Proof.Machine

@[simp] theorem rootTable_length : rootTable.length = 256 := by simp [rootTable, Config.firstCode]

theorem rootTable_getElem? (i : Nat) : rootTable[i]? = if i < 256 then some (rootEntry i) else none := by
  simp only [rootTable, Config.firstCode, List.getElem?_map]
  split
  · rw [List.getElem?_range ‹_›]; rfl
  · rw [List.getElem?_eq_none (by simp; omega)]; rfl

/-- The fresh dictionary is well formed (R41 items a to c). -/
theorem dictWf_rootTable : DictWf rootTable where
  atLeast := by simp [Config.firstCode]
  atMost := by simp [Config.maxDictEntries]
  roots := fun i hi => by rw [rootTable_getElem?]; exact if_pos hi
  parents := fun i e hi he => by
    rw [rootTable_getElem?, if_neg (by simp [Config.firstCode] at hi; omega)] at he; cases he

theorem nodup_rootTable : rootTable.Nodup := by
  rw [rootTable, List.nodup_map_iff_inj_on List.nodup_range]
  intro i hi j hj h
  simp only [Config.firstCode, List.mem_range] at hi hj
  have := congrArg (fun e => BitVec.toNat (Entry.value e)) h
  simp only [rootEntry, BitVec.toNat_ofNat] at this
  omega

/-- A dictionary of 256 entries is the roots (R41 item b). -/
theorem DictWf.eq_rootTable {dict : List Entry} (h : DictWf dict) (hl : dict.length = 256) : dict = rootTable := by
  apply List.ext_getElem?
  intro i
  rw [rootTable_getElem?]
  split
  · exact h.roots i ‹_›
  · exact List.getElem?_eq_none (by omega)

/-! ## DICT.FIND -/

/-- R112: the lowest index whose entry has exactly that parent and that value. -/
theorem findEntry_eq_some (dict : List Entry) (parent : OptCode) (value : Symbol) (i : Nat) :
    findEntry dict parent value = some i ↔
      dict[i]? = some { parent, value } ∧ ∀ j, j < i → dict[j]? ≠ some { parent, value } := by
  rw [findEntry, List.findIdx?_eq_some_iff_getElem]
  constructor
  · rintro ⟨hi, hp, hlt⟩
    refine ⟨?_, fun j hj => ?_⟩
    · rw [List.getElem?_eq_getElem hi]
      simp only [Bool.and_eq_true, decide_eq_true_eq] at hp
      exact congrArg some (by rw [← hp.1, ← hp.2])
    · rw [List.getElem?_eq_getElem (by omega)]
      intro h
      have := hlt j hj
      simp only [Option.some.injEq] at h
      simp [h] at this
  · rintro ⟨h, hlt⟩
    obtain ⟨hi, he⟩ := List.getElem?_eq_some_iff.mp h
    refine ⟨hi, by simp [he], fun j hj => ?_⟩
    have := hlt j hj
    rw [List.getElem?_eq_getElem (by omega)] at this
    simp only [Bool.not_eq_true, Bool.and_eq_false_iff, decide_eq_false_iff_not]
    by_contra hc
    push Not at hc
    exact this (congrArg some (by rw [← hc.1, ← hc.2]))

theorem findEntry_eq_none (dict : List Entry) (parent : OptCode) (value : Symbol) :
    findEntry dict parent value = none ↔ ({ parent, value } : Entry) ∉ dict := by
  rw [findEntry, List.findIdx?_eq_none_iff]
  constructor
  · intro h hm
    have := h _ hm
    simp at this
  · intro h e he
    simp only [Bool.and_eq_false_iff, decide_eq_false_iff_not]
    by_contra hc
    push Not at hc
    exact h (by rw [← hc.1, ← hc.2]; exact he)

theorem indexCode_toNat (i : Nat) (h : i < 4096) : (indexCode i).toNat = i := by
  simp only [indexCode, BitVec.toNat_ofNat]; exact Nat.mod_eq_of_lt h

/-- R112: a found code is the index of an entry with that pair, below DICT.size. -/
theorem dictFind_some {s : State} (hwf : DictWf s.dict) {parent : OptCode} {value : Symbol} {c : Code}
    (h : dictFind parent value s = some c) : s.dict[c.toNat]? = some { parent, value } ∧ c.toNat < s.dictSize := by
  rw [dictFind, Option.map_eq_some_iff] at h
  obtain ⟨i, hi, hc⟩ := h
  have he := ((findEntry_eq_some _ _ _ _).mp hi).1
  have hlt : i < s.dict.length := (List.getElem?_eq_some_iff.mp he).1
  have := hwf.atMost
  simp only [Config.maxDictEntries] at this
  rw [← hc, indexCode_toNat i (by omega)]
  exact ⟨he, hlt⟩

theorem dictFind_none {s : State} {parent : OptCode} {value : Symbol} :
    dictFind parent value s = none ↔ ({ parent, value } : Entry) ∉ s.dict := by
  rw [dictFind, Option.map_eq_none_iff, findEntry_eq_none]

@[simp] theorem rootCode_toNat (v : Symbol) : (rootCode v).toNat = v.toNat := by
  have := v.isLt
  simp only [rootCode, BitVec.toNat_setWidth]; omega

theorem rootEntry_toNat (v : Symbol) : rootEntry v.toNat = { parent := none, value := v } := by
  simp [rootEntry]

/-- R112 case a: FIND(NIL, v) is the root of v. -/
theorem dictFind_nil {s : State} (hwf : DictWf s.dict) (v : Symbol) : dictFind none v s = some (rootCode v) := by
  have hroot : s.dict[v.toNat]? = some { parent := none, value := v } := by
    rw [hwf.roots v.toNat v.isLt, rootEntry_toNat]
  have : findEntry s.dict none v = some v.toNat := by
    rw [findEntry_eq_some]
    refine ⟨hroot, fun j hj he => ?_⟩
    have hv := v.isLt
    rw [hwf.roots j (by simp [Config.firstCode]; omega)] at he
    have := congrArg BitVec.toNat (Entry.mk.inj (Option.some.inj he)).2
    simp only [BitVec.toNat_ofNat] at this; omega
  rw [dictFind, this, Option.map_some]
  congr 1
  apply BitVec.eq_of_toNat_eq
  rw [indexCode_toNat _ (by have := v.isLt; omega), rootCode_toNat]

/-! ## DICT.ADD -/

theorem dictAdd_full (parent : Code) (value : Symbol) (s : State) (h : s.dictSize = 4096) :
    dictAdd parent value s = (false, s) := by simp [dictAdd, Config.maxDictEntries, h]

theorem dictAdd_room (parent : Code) (value : Symbol) (s : State) (h : s.dictSize ≠ 4096) :
    dictAdd parent value s = (true, { s with dict := s.dict ++ [{ parent := some parent, value }] }) := by
  simp [dictAdd, Config.maxDictEntries, h]

/-- DICT.ADD changes the dictionary only. -/
theorem dictAdd_frame (parent : Code) (value : Symbol) (s : State) :
    ∃ d, (dictAdd parent value s).2 = { s with dict := d } := by
  unfold dictAdd; split
  · exact ⟨s.dict, rfl⟩
  · exact ⟨_, rfl⟩

/-- An added entry whose parent is populated keeps the dictionary well formed (R41 items a to c). -/
theorem DictWf.add {dict : List Entry} (h : DictWf dict) (parent : Code) (value : Symbol) (hp : parent.toNat < dict.length)
    (hl : dict.length < 4096) : DictWf (dict ++ [{ parent := some parent, value }]) where
  atLeast := by have := h.atLeast; simp; omega
  atMost := by simp [Config.maxDictEntries]; omega
  roots := fun i hi => by
    have := h.atLeast
    rw [List.getElem?_append_left (by omega)]; exact h.roots i hi
  parents := fun i e hi he => by
    by_cases hlt : i < dict.length
    · rw [List.getElem?_append_left hlt] at he; exact h.parents i e hi he
    · rw [List.getElem?_append_right (by omega)] at he
      have hlt' := (List.getElem?_eq_some_iff.mp he).1
      simp at hlt'
      have : i - dict.length = 0 := by omega
      simp [this] at he
      exact ⟨parent, by rw [← he], by omega⟩

/-! ## DICT.GROW -/

/-- R114, R116: an epoch reset, a wider WIDTH, or nothing. -/
theorem dictGrow_cases (s : State) :
    (s.width = .w12 ∧ s.dictSize = 4096 ∧ dictGrow s = (true, { s with dict := rootTable, width := .w9 })) ∨
    (s.dictSize = 2 ^ s.width.bits ∧ ∃ w, w.bits = s.width.bits + 1 ∧ dictGrow s = (false, { s with width := w })) ∨
    (s.dictSize ≠ 2 ^ s.width.bits ∧ dictGrow s = (false, s)) := by
  unfold dictGrow
  by_cases h : widthCheck s = true
  · have hs : s.dictSize = 2 ^ s.width.bits := by simpa [widthCheck] using h
    rw [if_pos h]
    cases hw : s.width with
    | w9 => exact .inr (.inl ⟨by rw [hs, hw], .w10, rfl, rfl⟩)
    | w10 => exact .inr (.inl ⟨by rw [hs, hw], .w11, rfl, rfl⟩)
    | w11 => exact .inr (.inl ⟨by rw [hs, hw], .w12, rfl, rfl⟩)
    | w12 => exact .inl ⟨rfl, by rw [hs, hw]; rfl, rfl⟩
  · rw [if_neg h]
    exact .inr (.inr ⟨by simpa [widthCheck] using h, rfl⟩)

/-- DICT.GROW changes the dictionary and WIDTH only. -/
theorem dictGrow_frame (s : State) : ∃ d w, (dictGrow s).2 = { s with dict := d, width := w } := by
  rcases dictGrow_cases s with ⟨_, _, h⟩ | ⟨_, w, _, h⟩ | ⟨_, h⟩ <;> rw [h]
  · exact ⟨_, _, rfl⟩
  · exact ⟨s.dict, w, rfl⟩
  · exact ⟨s.dict, s.width, rfl⟩

/-! ## DICT.SEQ -/

/-- The walk of R115 collects the sequence of the code, last symbol first, when the scratch buffer has room for it. -/
theorem dictWalk_of_seqRev {dict : List Entry} {c : Code} {l : List Symbol} (h : SeqRev dict c l) (room : Nat)
    (hl : l.length ≤ room) : dictWalk dict room (some c) = .ok l := by
  induction h generalizing room with
  | root c e he hn =>
    cases room with
    | zero => simp at hl
    | succ room => cases room <;> simp [dictWalk, he, hn]
  | dynamic c p e rest he hp _ ih =>
    cases room with
    | zero => simp at hl
    | succ room => simp [dictWalk, he, hp, ih room (by simpa using hl)]

theorem seqRev_of_dictWalk {dict : List Entry} (room : Nat) (c : Code) (l : List Symbol)
    (h : dictWalk dict room (some c) = .ok l) : SeqRev dict c l := by
  induction room generalizing c l with
  | zero => simp [dictWalk] at h
  | succ room ih =>
    rw [dictWalk] at h
    split at h
    · cases h
    · rename_i e he
      split at h
      · rename_i rest hrest
        cases h
        cases hp : e.parent with
        | none =>
          rw [hp] at hrest
          have : rest = [] := by cases room <;> simp [dictWalk] at hrest <;> exact hrest
          subst this; exact .root c e he hp
        | some p => rw [hp] at hrest; exact .dynamic c p e rest he hp (ih p rest hrest)
      · cases h

theorem SeqRev.unique {dict : List Entry} {c : Code} {l l' : List Symbol} (h : SeqRev dict c l) (h' : SeqRev dict c l') :
    l = l' := by
  have h1 := dictWalk_of_seqRev h (max l.length l'.length) (by omega)
  have h2 := dictWalk_of_seqRev h' (max l.length l'.length) (by omega)
  rw [h1] at h2; exact Except.ok.inj h2

theorem SeqRev.ne_nil {dict : List Entry} {c : Code} {l : List Symbol} (h : SeqRev dict c l) : l ≠ [] := by
  cases h <;> simp

/-- R117, R120: every populated code has a sequence, of at most code - 254 symbols (1 for a root). -/
theorem DictWf.exists_seqRev {dict : List Entry} (h : DictWf dict) (c : Code) (hc : c.toNat < dict.length) :
    ∃ l, SeqRev dict c l ∧ l.length ≤ (if c.toNat < 256 then 1 else c.toNat - 254) := by
  induction hn : c.toNat using Nat.strong_induction_on generalizing c with
  | _ n ih =>
    obtain ⟨e, he⟩ : ∃ e, dict[c.toNat]? = some e := ⟨_, List.getElem?_eq_getElem hc⟩
    by_cases hroot : c.toNat < 256
    · have := h.roots c.toNat hroot
      refine ⟨[e.value], .root c e he ?_, by rw [if_pos (by omega)]; simp⟩
      rw [he] at this; rw [Option.some.inj this]; rfl
    · obtain ⟨p, hp, hlt⟩ := h.parents c.toNat e (by simp [Config.firstCode]; omega) he
      obtain ⟨l, hl, hlen⟩ := ih p.toNat (by omega) p (by omega) rfl
      refine ⟨e.value :: l, .dynamic c p e l he hp hl, ?_⟩
      rw [if_neg (by omega)]
      simp only [List.length_cons]
      split at hlen <;> omega

/-- What DICT.SEQ does to a populated code of a well-formed dictionary (R115, R120): Seq(code) and its first byte; it writes
the scratch buffer only. -/
theorem dictSeq_ok {s : State} (h : DictWf s.dict) (c : Code) (hc : c.toNat < s.dictSize) :
    ∃ bytes first, IsSeq s.dict c bytes ∧ bytes.head? = some first ∧
      bytes.length ≤ (if c.toNat < 256 then 1 else c.toNat - 254) ∧
      dictSeq c s = .ret (bytes, first) { s with scratch := bytes.reverse ++ s.scratch.drop bytes.length } := by
  obtain ⟨l, hl, hlen⟩ := h.exists_seqRev c hc
  have hc12 : c.toNat < 4096 := c.isLt
  have hroom : l.length ≤ Config.scratchCapacity := by
    simp only [Config.scratchCapacity]; split at hlen <;> omega
  obtain ⟨first, hf⟩ : ∃ f, l.getLast? = some f := ⟨_, List.getLast?_eq_some_getLast hl.ne_nil⟩
  refine ⟨l.reverse, first, by simpa [IsSeq] using hl, by rw [List.head?_reverse, hf], by simpa using hlen, ?_⟩
  rw [dictSeq, dictWalk_of_seqRev hl _ hroom]
  simp [hf]

/-- DICT.SEQ ends with a sequence and the scratch buffer written, or stops. -/
theorem dictSeq_cases (c : Code) (s : State) :
    (∃ bytes first, IsSeq s.dict c bytes ∧ bytes.head? = some first ∧
      dictSeq c s = .ret (bytes, first) { s with scratch := bytes.reverse ++ s.scratch.drop bytes.length }) ∨
    ∃ r, dictSeq c s = .stop r := by
  unfold dictSeq
  cases hw : dictWalk s.dict Config.scratchCapacity (some c) with
  | error r => exact .inr ⟨r, rfl⟩
  | ok l =>
    have hl := seqRev_of_dictWalk _ _ _ hw
    obtain ⟨first, hf⟩ : ∃ f, l.getLast? = some f := ⟨_, List.getLast?_eq_some_getLast hl.ne_nil⟩
    refine .inl ⟨l.reverse, first, by simpa [IsSeq] using hl, by rw [List.head?_reverse, hf], ?_⟩
    simp [hf]

/-- R120: within an epoch a sequence is stable when entries are added. -/
theorem SeqRev.append {dict : List Entry} {c : Code} {l : List Symbol} (h : SeqRev dict c l) (more : List Entry) :
    SeqRev (dict ++ more) c l := by
  induction h with
  | root c e he hn =>
    exact .root c e (by rw [List.getElem?_append_left (List.getElem?_eq_some_iff.mp he).1]; exact he) hn
  | dynamic c p e rest he hp _ ih =>
    exact .dynamic c p e rest (by rw [List.getElem?_append_left (List.getElem?_eq_some_iff.mp he).1]; exact he) hp ih

/-- R110: the sequence of a new entry is its parent's, followed by its value. -/
theorem SeqRev.added {dict : List Entry} {p : Code} {l : List Symbol} (h : SeqRev dict p l) (v : Symbol) (c : Code)
    (hc : c.toNat = dict.length) : SeqRev (dict ++ [{ parent := some p, value := v }]) c (v :: l) :=
  .dynamic c p { parent := some p, value := v } l (by rw [hc]; simp) rfl (h.append _)

/-- R110: the sequence of a root code is its symbol. -/
theorem DictWf.seqRev_root {dict : List Entry} (h : DictWf dict) (v : Symbol) : SeqRev dict (rootCode v) [v] := by
  have := h.roots v.toNat v.isLt
  rw [rootEntry_toNat] at this
  exact .root (rootCode v) { parent := none, value := v } (by rw [rootCode_toNat]; exact this) rfl

/-- R32: a sequence never outgrows the scratch buffer, whose length stays 4096. -/
theorem scratch_length {s : State} (hs : s.scratch.length = 4096) (bytes : List Symbol) (h : bytes.length ≤ 4096) :
    (bytes.reverse ++ s.scratch.drop bytes.length).length = 4096 := by simp; omega

end Sys2Proof.Machine
end

