-- ==== Sys2Proof/Laws/Bits.lean ====
section
/-! SUPPORT. Bits of values, bytes and packed buffers (30_encoding.md rules R71, R72, R78). -/

namespace Sys2Proof

@[simp] theorem valueBits_length (w n : Nat) : (valueBits w n).length = w := by simp [valueBits]

theorem valueBits_succ (w n : Nat) : valueBits (w + 1) n = n.testBit 0 :: valueBits w (n / 2) := by
  apply List.ext_getElem
  · simp
  · intro i h1 h2
    cases i with
    | zero => simp [valueBits]
    | succ i => simp [valueBits, Nat.testBit_succ]

theorem bitsValue_lt (bits : List Bool) : bitsValue bits < 2 ^ bits.length := by
  induction bits with
  | nil => simp [bitsValue]
  | cons b rest ih =>
    simp only [bitsValue, List.length_cons, Nat.pow_succ]
    cases b <;> simp <;> omega

/-- R72: the value of a value's bits is its low bits. -/
theorem bitsValue_valueBits (w n : Nat) : bitsValue (valueBits w n) = n % 2 ^ w := by
  induction w generalizing n with
  | zero => simp [valueBits, bitsValue, Nat.mod_one]
  | succ w ih =>
    rw [valueBits_succ, bitsValue, ih, Nat.pow_succ, Nat.mul_comm (2 ^ w) 2, Nat.mod_mul]
    simp only [Nat.testBit_zero]
    rcases Nat.mod_two_eq_zero_or_one n with h | h <;> simp [h]

theorem bitsValue_valueBits_of_lt (w n : Nat) (h : n < 2 ^ w) : bitsValue (valueBits w n) = n := by
  rw [bitsValue_valueBits, Nat.mod_eq_of_lt h]

/-- R72, the other way round. -/
theorem valueBits_bitsValue (bits : List Bool) : valueBits bits.length (bitsValue bits) = bits := by
  induction bits with
  | nil => rfl
  | cons b rest ih =>
    rw [List.length_cons, valueBits_succ, bitsValue]
    cases b
    · simp [ih]
    · rw [show (true.toNat + 2 * bitsValue rest) / 2 = bitsValue rest by simp; omega, ih]
      simp [Nat.testBit_zero]

theorem bitsValue_append (xs ys : List Bool) : bitsValue (xs ++ ys) = bitsValue xs + 2 ^ xs.length * bitsValue ys := by
  induction xs with
  | nil => simp [bitsValue]
  | cons b rest ih => simp only [List.cons_append, bitsValue, ih, List.length_cons, Nat.pow_succ]; ring

theorem bitsValue_replicate_false (k : Nat) : bitsValue (List.replicate k false) = 0 := by
  induction k with
  | zero => rfl
  | succ k ih => simp [List.replicate_succ, bitsValue, ih]

@[simp] theorem byteBits_length (b : Symbol) : (byteBits b).length = 8 := by simp [byteBits]

theorem byteBits_eq_valueBits (b : Symbol) : byteBits b = valueBits 8 b.toNat := by
  simp [byteBits, valueBits, BitVec.getLsbD]

@[simp] theorem streamBits_nil : streamBits [] = [] := rfl

@[simp] theorem streamBits_cons (b : Symbol) (rest : List Symbol) :
    streamBits (b :: rest) = byteBits b ++ streamBits rest := rfl

@[simp] theorem streamBits_append (xs ys : List Symbol) : streamBits (xs ++ ys) = streamBits xs ++ streamBits ys := by
  simp [streamBits]

@[simp] theorem streamBits_length (bytes : List Symbol) : (streamBits bytes).length = 8 * bytes.length := by
  induction bytes with
  | nil => rfl
  | cons b rest ih => simp [ih]; omega

theorem streamBits_getElem? (bytes : List Symbol) (n : Nat) :
    (streamBits bytes)[n]? = (bytes[n / 8]?).map fun b => b.getLsbD (n % 8) := by
  induction bytes generalizing n with
  | nil => simp
  | cons b rest ih =>
    rw [streamBits_cons]
    by_cases h : n < 8
    · rw [List.getElem?_append_left (by simpa), show n / 8 = 0 by omega]
      simp [byteBits, h, Nat.mod_eq_of_lt h]
    · rw [List.getElem?_append_right (by simp; omega), ih, byteBits_length,
        show n / 8 = (n - 8) / 8 + 1 by omega, show (n - 8) % 8 = n % 8 by omega]
      simp

theorem bitsValue_streamBits_byte (v : Symbol) : bitsValue (byteBits v) = v.toNat := by
  rw [byteBits_eq_valueBits, bitsValue_valueBits_of_lt _ _ v.isLt]

namespace Machine

theorem packBits_full (b0 b1 b2 b3 b4 b5 b6 b7 : Bool) (rest : List Bool) :
    packBits (b0 :: b1 :: b2 :: b3 :: b4 :: b5 :: b6 :: b7 :: rest) =
      packByte [b0, b1, b2, b3, b4, b5, b6, b7] :: packBits rest := by
  simp [packBits]

/-- A bit sequence of 8 or more is its first 8 and the rest. -/
theorem packBits_append_byte (xs rest : List Bool) (h : xs.length = 8) :
    packBits (xs ++ rest) = packByte xs :: packBits rest := by
  match xs, h with
  | [b0, b1, b2, b3, b4, b5, b6, b7], _ => exact packBits_full b0 b1 b2 b3 b4 b5 b6 b7 rest

theorem packBits_short (xs : List Bool) (h : xs ≠ []) (h8 : xs.length ≤ 8) : packBits xs = [packByte xs] := by
  match xs, h, h8 with
  | [_], _, _ => rfl
  | [_, _], _, _ => rfl
  | [_, _, _], _, _ => rfl
  | [_, _, _, _], _, _ => rfl
  | [_, _, _, _, _], _, _ => rfl
  | [_, _, _, _, _, _], _, _ => rfl
  | [_, _, _, _, _, _, _], _, _ => rfl
  | [_, _, _, _, _, _, _, _], _, _ => rfl

@[simp] theorem packBits_nil : packBits [] = [] := rfl

/-- Every bit sequence is a whole number of bytes and fewer than 8 bits. -/
theorem split_bits (xs : List Bool) :
    ∃ full tail, xs = full ++ tail ∧ full.length = 8 * (xs.length / 8) ∧ tail.length = xs.length % 8 :=
  ⟨xs.take (8 * (xs.length / 8)), xs.drop (8 * (xs.length / 8)), (List.take_append_drop _ _).symm, by
    rw [List.length_take]; omega, by rw [List.length_drop]; omega⟩

theorem packBits_append_full (full rest : List Bool) (k : Nat) (h : full.length = 8 * k) :
    packBits (full ++ rest) = packBits full ++ packBits rest := by
  induction k generalizing full with
  | zero => simp [List.length_eq_zero_iff.mp h]
  | succ k ih =>
    obtain ⟨a, b, hab, ha⟩ : ∃ a b, full = a ++ b ∧ a.length = 8 :=
      ⟨full.take 8, full.drop 8, (List.take_append_drop 8 full).symm, by rw [List.length_take]; omega⟩
    have hb : b.length = 8 * k := by have := congrArg List.length hab; simp at this; omega
    rw [hab, List.append_assoc, packBits_append_byte a _ ha, packBits_append_byte a _ ha, ih b hb]
    rfl

theorem packBits_length (xs : List Bool) : (packBits xs).length = (xs.length + 7) / 8 := by
  induction hk : xs.length / 8 generalizing xs with
  | zero =>
    rcases eq_or_ne xs [] with rfl | hx
    · rfl
    · rw [packBits_short xs hx (by omega)]
      have : 0 < xs.length := List.length_pos_iff.mpr hx
      simp; omega
  | succ k ih =>
    obtain ⟨a, b, hab, ha⟩ : ∃ a b, xs = a ++ b ∧ a.length = 8 :=
      ⟨xs.take 8, xs.drop 8, (List.take_append_drop 8 xs).symm, by rw [List.length_take]; omega⟩
    have hl : xs.length = 8 + b.length := by rw [hab]; simp [ha]
    rw [hab, packBits_append_byte a _ ha, List.length_cons, ih b (by omega)]
    simp [ha]; omega

theorem byteBits_packByte (xs : List Bool) (h : xs.length ≤ 8) :
    byteBits (packByte xs) = xs ++ List.replicate (8 - xs.length) false := by
  have hlt : bitsValue xs < 2 ^ 8 := Nat.lt_of_lt_of_le (bitsValue_lt xs) (Nat.pow_le_pow_right (by omega) h)
  have hv : bitsValue (xs ++ List.replicate (8 - xs.length) false) = bitsValue xs := by
    rw [bitsValue_append, bitsValue_replicate_false]; simp
  have hl : (xs ++ List.replicate (8 - xs.length) false).length = 8 := by simp; omega
  rw [byteBits_eq_valueBits, packByte, BitVec.toNat_ofNat, Nat.mod_eq_of_lt hlt, ← hv]
  have := valueBits_bitsValue (xs ++ List.replicate (8 - xs.length) false)
  rwa [hl] at this

/-- R78: the packed buffer of a bit sequence reads back as the sequence and zero padding. -/
theorem streamBits_packBits (xs : List Bool) :
    streamBits (packBits xs) = xs ++ List.replicate (8 * ((xs.length + 7) / 8) - xs.length) false := by
  induction hk : xs.length / 8 generalizing xs with
  | zero =>
    rcases eq_or_ne xs [] with rfl | hx
    · rfl
    · have hp : 0 < xs.length := List.length_pos_iff.mpr hx
      rw [packBits_short xs hx (by omega), streamBits_cons, streamBits_nil, List.append_nil,
        byteBits_packByte xs (by omega), show 8 * ((xs.length + 7) / 8) = 8 by omega]
  | succ k ih =>
    obtain ⟨a, b, hab, ha⟩ : ∃ a b, xs = a ++ b ∧ a.length = 8 :=
      ⟨xs.take 8, xs.drop 8, (List.take_append_drop 8 xs).symm, by rw [List.length_take]; omega⟩
    have hl : xs.length = 8 + b.length := by rw [hab]; simp [ha]
    rw [hab, packBits_append_byte a _ ha, streamBits_cons, ih b (by omega), byteBits_packByte a (by omega)]
    simp [ha, show 8 * ((8 + b.length + 7) / 8) - (8 + b.length) = 8 * ((b.length + 7) / 8) - b.length by omega]

theorem setBit_zero (bit : Bool) : setBit 0 0 bit = packByte [bit] := by cases bit <;> rfl

/-- R91 on a byte whose bits from p up are 0: bit p becomes the new bit, the others keep. -/
theorem setBit_packByte (xs : List Bool) (bit : Bool) (h : xs.length < 8) :
    setBit (packByte xs) xs.length bit = packByte (xs ++ [bit]) := by
  have hlt : bitsValue xs < 2 ^ xs.length := bitsValue_lt xs
  have key : packByte (xs ++ [bit]) = BitVec.ofNat 8 (bitsValue xs + 2 ^ xs.length * bit.toNat) := by
    rw [packByte, bitsValue_append]; simp [bitsValue]
  rw [key]
  unfold setBit packByte
  generalize bitsValue xs = v at *
  generalize xs.length = p at *
  have : ∀ p : Fin 8, ∀ v : Fin (2 ^ p.val), ∀ bit : Bool,
      ((BitVec.ofNat 8 v.val &&& ~~~((1 : Symbol) <<< p.val)) ||| (BitVec.ofNat 8 bit.toNat <<< p.val)) =
        BitVec.ofNat 8 (v.val + 2 ^ p.val * bit.toNat) := by decide +kernel
  exact this ⟨p, h⟩ ⟨v, hlt⟩ bit

end Machine

end Sys2Proof
end

