-- ==== Sys2Proof/Laws/Memory.lean ====
section
/-! SUPPORT. One byte of a buffer: read after write, the canonical form, a byte sequence as a buffer. -/

namespace Sys2Proof.Machine

@[simp] theorem Memory.read_nil (a : Nat) : Memory.read [] a = none := rfl

@[simp] theorem Memory.read_write_same (m : Memory) (a : Nat) (v : Symbol) : (m.write a v).read a = some v := by
  induction m with
  | nil => simp [Memory.write, Memory.read]
  | cons c rest ih =>
    obtain ⟨b, u⟩ := c
    unfold Memory.write
    split
    · simp [Memory.read]
    · split
      · simp [Memory.read]
      · simp [Memory.read, show b ≠ a by omega, ih]

theorem Memory.read_write_other (m : Memory) (a x : Nat) (v : Symbol) (h : x ≠ a) :
    (m.write a v).read x = m.read x := by
  induction m with
  | nil => simp [Memory.write, Memory.read, Ne.symm h]
  | cons c rest ih =>
    obtain ⟨b, u⟩ := c
    unfold Memory.write
    split
    · simp [Memory.read, Ne.symm h]
    · split
      · subst_vars
        simp [Memory.read, Ne.symm h]
      · simp only [Memory.read, ih]

theorem Memory.read_write (m : Memory) (a x : Nat) (v : Symbol) :
    (m.write a v).read x = if x = a then some v else m.read x := by
  split
  · subst_vars; simp
  · exact m.read_write_other a x v ‹_›

theorem Memory.wf_cons (c : Host.Cell) (rest : Memory) :
    Memory.wf (c :: rest) = true ↔ (∀ d ∈ rest.head?, c.1 < d.1) ∧ Memory.wf rest = true := by
  cases rest with
  | nil => simp [Memory.wf]
  | cons d rest => obtain ⟨a, u⟩ := c; obtain ⟨b, v⟩ := d; simp [Memory.wf]

/-- A write's first offset is the target's or the old first one. -/
theorem Memory.write_head (m : Memory) (a : Nat) (v : Symbol) :
    ∀ d ∈ (m.write a v).head?, d.1 = a ∨ (d.1 < a ∧ ∃ e ∈ m.head?, e.1 = d.1) := by
  cases m with
  | nil => simp [Memory.write]
  | cons c rest =>
    obtain ⟨b, u⟩ := c
    unfold Memory.write
    split
    · simp
    · split
      · simp
      · simp; omega

/-- Every write keeps the canonical form. -/
theorem Memory.wf_write (m : Memory) (a : Nat) (v : Symbol) (h : m.wf = true) : (m.write a v).wf = true := by
  induction m with
  | nil => rfl
  | cons c rest ih =>
    obtain ⟨b, u⟩ := c
    rw [Memory.wf_cons] at h
    unfold Memory.write
    split
    · rw [Memory.wf_cons, Memory.wf_cons]; exact ⟨by simpa, h⟩
    · split
      · subst_vars; rw [Memory.wf_cons]; exact h
      · rw [Memory.wf_cons]
        refine ⟨fun d hd => ?_, ih h.2⟩
        rcases Memory.write_head rest a v d hd with hd | ⟨_, e, he, hed⟩
        · simp only; omega
        · have := h.1 e he; simp only at this ⊢; omega

theorem Memory.read_ofBytesFrom (bytes : List Symbol) (k a : Nat) :
    (Memory.ofBytesFrom k bytes).read a = if k ≤ a then bytes[a - k]? else none := by
  induction bytes generalizing k with
  | nil => simp [Memory.ofBytesFrom]
  | cons v rest ih =>
    simp only [Memory.ofBytesFrom, Memory.read, ih]
    by_cases h : k = a
    · subst h; simp
    · by_cases h2 : k + 1 ≤ a
      · rw [if_neg h, if_pos h2, if_pos (by omega), show a - k = (a - (k + 1)) + 1 by omega]; simp
      · rw [if_neg h, if_neg h2, if_neg (by omega)]

/-- A placed byte sequence reads back at its offsets, and holds nothing elsewhere. -/
@[simp] theorem Memory.read_ofBytes (bytes : List Symbol) (a : Nat) : (Memory.ofBytes bytes).read a = bytes[a]? := by
  simp [Memory.ofBytes, Memory.read_ofBytesFrom]

theorem Memory.wf_ofBytesFrom (bytes : List Symbol) (k : Nat) : (Memory.ofBytesFrom k bytes).wf = true := by
  induction bytes generalizing k with
  | nil => rfl
  | cons v rest ih =>
    simp only [Memory.ofBytesFrom]
    rw [Memory.wf_cons]
    refine ⟨fun d hd => ?_, ih (k + 1)⟩
    cases rest with
    | nil => simp [Memory.ofBytesFrom] at hd
    | cons w rest => simp [Memory.ofBytesFrom] at hd; subst hd; simp

@[simp] theorem Memory.wf_ofBytes (bytes : List Symbol) : (Memory.ofBytes bytes).wf = true :=
  Memory.wf_ofBytesFrom bytes 0

theorem Memory.write_ofBytesFrom_end (bytes : List Symbol) (k : Nat) (v : Symbol) :
    (Memory.ofBytesFrom k bytes).write (k + bytes.length) v = Memory.ofBytesFrom k (bytes ++ [v]) := by
  induction bytes generalizing k with
  | nil => simp [Memory.ofBytesFrom, Memory.write]
  | cons u rest ih =>
    have := ih (k + 1)
    simp only [Memory.ofBytesFrom, Memory.write, List.cons_append, List.length_cons]
    rw [if_neg (by omega), if_neg (by omega), show k + (rest.length + 1) = k + 1 + rest.length by omega, this]

/-- A write at the first free offset appends. -/
theorem Memory.write_ofBytes_end (bytes : List Symbol) (v : Symbol) :
    (Memory.ofBytes bytes).write bytes.length v = Memory.ofBytes (bytes ++ [v]) := by
  simpa [Memory.ofBytes] using Memory.write_ofBytesFrom_end bytes 0 v

theorem Memory.write_ofBytesFrom_last (bytes : List Symbol) (k : Nat) (u v : Symbol) :
    (Memory.ofBytesFrom k (bytes ++ [u])).write (k + bytes.length) v = Memory.ofBytesFrom k (bytes ++ [v]) := by
  induction bytes generalizing k with
  | nil => simp [Memory.ofBytesFrom, Memory.write]
  | cons w rest ih =>
    have := ih (k + 1)
    simp only [Memory.ofBytesFrom, Memory.write, List.cons_append, List.length_cons]
    rw [if_neg (by omega), if_neg (by omega), show k + (rest.length + 1) = k + 1 + rest.length by omega, this]

/-- A write at the last offset replaces the last byte. -/
theorem Memory.write_ofBytes_last (bytes : List Symbol) (u v : Symbol) :
    (Memory.ofBytes (bytes ++ [u])).write bytes.length v = Memory.ofBytes (bytes ++ [v]) := by
  simpa [Memory.ofBytes] using Memory.write_ofBytesFrom_last bytes 0 u v

theorem Memory.readRange_eq_some (m : Memory) (a n : Nat) (bs : List Symbol) :
    m.readRange a n = some bs ↔ bs.length = n ∧ ∀ i, i < n → m.read (a + i) = bs[i]? := by
  induction n generalizing a bs with
  | zero =>
    simp only [Memory.readRange, Option.some.injEq]
    constructor
    · rintro rfl; simp
    · rintro ⟨h, -⟩; exact (List.length_eq_zero_iff.mp h).symm
  | succ n ih =>
    simp only [Memory.readRange, bind, Option.bind]
    cases hv : m.read a with
    | none =>
      simp only [false_iff, not_and, reduceCtorEq]
      intro hl h
      have := h 0 (by omega)
      cases bs with
      | nil => simp at hl
      | cons v rest => simp [hv] at this
    | some v =>
      simp only
      cases hr : m.readRange (a + 1) n with
      | none =>
        simp only [false_iff, not_and, reduceCtorEq]
        intro hl h
        cases bs with
        | nil => simp at hl
        | cons w rest =>
          have hrest := (ih (a + 1) rest).mpr ⟨by simpa using hl, fun i hi => by
            have := h (i + 1) (by omega)
            rw [show a + 1 + i = a + (i + 1) by omega, this]; simp⟩
          rw [hr] at hrest; cases hrest
      | some rest =>
        have hrest := (ih (a + 1) rest).mp hr
        simp only [pure, Option.some.injEq]
        constructor
        · rintro rfl
          refine ⟨by simp [hrest.1], fun i hi => ?_⟩
          cases i with
          | zero => simpa using hv
          | succ i => rw [show a + (i + 1) = a + 1 + i by omega, hrest.2 i (by omega)]; simp
        · rintro ⟨hl, h⟩
          cases bs with
          | nil => simp at hl
          | cons w tail =>
            have h0 := h 0 (by omega)
            simp [hv] at h0
            have ht : m.readRange (a + 1) n = some tail := (ih (a + 1) tail).mpr ⟨by simpa using hl, fun i hi => by
              have := h (i + 1) (by omega)
              rw [show a + 1 + i = a + (i + 1) by omega, this]; simp⟩
            rw [hr] at ht; cases ht; rw [h0]

/-- A placed byte sequence reads back whole. -/
@[simp] theorem Memory.readRange_ofBytes (bytes : List Symbol) :
    (Memory.ofBytes bytes).readRange 0 bytes.length = some bytes := by
  rw [Memory.readRange_eq_some]; simp

theorem Memory.ofBytesFrom_injective (k : Nat) (xs ys : List Symbol)
    (h : Memory.ofBytesFrom k xs = Memory.ofBytesFrom k ys) : xs = ys := by
  induction xs generalizing k ys with
  | nil => cases ys with
    | nil => rfl
    | cons y ys => simp [Memory.ofBytesFrom] at h
  | cons x xs ih => cases ys with
    | nil => simp [Memory.ofBytesFrom] at h
    | cons y ys =>
      simp only [Memory.ofBytesFrom, List.cons.injEq, Prod.mk.injEq, true_and] at h
      rw [h.1, ih _ _ h.2]

/-- A buffer holds one byte sequence. -/
theorem Memory.ofBytes_injective (xs ys : List Symbol) (h : Memory.ofBytes xs = Memory.ofBytes ys) : xs = ys :=
  Memory.ofBytesFrom_injective 0 xs ys h

end Sys2Proof.Machine
end

