-- ==== Sys2Proof/Laws/Reader.lean ====
section
/-! SUPPORT. What the BitReader operations do (41_bitreader.md). -/

namespace Sys2Proof.Machine

theorem bitAt_ofBytes (bytes : List Symbol) (n : Nat) : (Memory.ofBytes bytes).bitAt n = (streamBits bytes)[n]? := by
  rw [Memory.bitAt, Memory.read_ofBytes, streamBits_getElem?]

theorem srcBits_eq_some (m : Memory) (n k : Nat) (bits : List Bool) :
    srcBits m n k = some bits ↔ bits.length = k ∧ ∀ i, i < k → m.bitAt (n + i) = bits[i]? := by
  induction k generalizing n bits with
  | zero =>
    simp only [srcBits, Option.some.injEq]
    constructor
    · rintro rfl; simp
    · rintro ⟨h, -⟩; exact (List.length_eq_zero_iff.mp h).symm
  | succ k ih =>
    simp only [srcBits, bind, Option.bind, pure]
    cases hv : m.bitAt n with
    | none =>
      simp only [reduceCtorEq, false_iff, not_and]
      intro hl h
      have := h 0 (by omega)
      cases bits with
      | nil => simp at hl
      | cons b rest => simp [hv] at this
    | some v =>
      cases hr : srcBits m (n + 1) k with
      | none =>
        simp only [reduceCtorEq, false_iff, not_and]
        intro hl h
        cases bits with
        | nil => simp at hl
        | cons b rest =>
          have := (ih (n + 1) rest).mpr ⟨by simpa using hl, fun i hi => by
            rw [show n + 1 + i = n + (i + 1) by omega, h (i + 1) (by omega)]; simp⟩
          rw [hr] at this; cases this
      | some rest =>
        have hrest := (ih (n + 1) rest).mp hr
        simp only [Option.some.injEq]
        constructor
        · rintro rfl
          refine ⟨by simp [hrest.1], fun i hi => ?_⟩
          cases i with
          | zero => simpa using hv
          | succ i => rw [show n + (i + 1) = n + 1 + i by omega, hrest.2 i (by omega)]; simp
        · rintro ⟨hl, h⟩
          cases bits with
          | nil => simp at hl
          | cons b tail =>
            have h0 := h 0 (by omega)
            simp [hv] at h0
            have ht := (ih (n + 1) tail).mpr ⟨by simpa using hl, fun i hi => by
              rw [show n + 1 + i = n + (i + 1) by omega, h (i + 1) (by omega)]; simp⟩
            rw [hr] at ht; cases ht; rw [h0]

theorem srcBits_length (m : Memory) (n k : Nat) (bits : List Bool) (h : srcBits m n k = some bits) : bits.length = k :=
  ((srcBits_eq_some m n k bits).mp h).1

/-- The reader moved on by k bits. -/
def readAhead (k : Nat) (s : State) : State := { s with brBitsRead := BitVec.ofNat 32 (s.brBitsRead.toNat + k) }

theorem readAhead_zero (s : State) : readAhead 0 s = s := by simp [readAhead]

theorem endOfStream_iff (s : State) : endOfStream s = true ↔ s.brValidBits.toNat ≤ s.brBitsRead.toNat := by
  simp [endOfStream]

theorem or_shift (v b : Nat) (r : Bool) (h : v < 2 ^ b) : v ||| (r.toNat <<< b) = v + 2 ^ b * r.toNat := by
  rw [Nat.or_comm, ← Nat.shiftLeft_add_eq_or_of_lt h, Nat.shiftLeft_eq]; ring

/-- R102's loop: with v collected in b bits, it adds the bits at the position, shifted by b, and moves past them. -/
theorem brReadFrom_eq (b k v : Nat) (s : State) (hv : v < 2 ^ b) :
    brReadFrom b k v s =
      match srcBits s.src s.brBitsRead.toNat (fetchLength k s) with
      | none => .stop .srcUnwritten
      | some bits => .ret (v + 2 ^ b * bitsValue bits) (readAhead (fetchLength k s) s) := by
  induction k generalizing b v s with
  | zero => simp [brReadFrom, fetchLength, srcBits, bitsValue, readAhead_zero]
  | succ k ih =>
    rw [brReadFrom, brReadBit]
    by_cases he : endOfStream s = true
    · have hle := (endOfStream_iff s).mp he
      have : fetchLength (k + 1) s = 0 := by simp [fetchLength]; omega
      simp [he, Flow.bind, this, srcBits, bitsValue, readAhead_zero]
    · have hlt : s.brBitsRead.toNat < s.brValidBits.toNat := by
        have := mt (endOfStream_iff s).mpr he; omega
      have hb := s.brValidBits.isLt
      have hfl : fetchLength (k + 1) s = fetchLength k (readAhead 1 s) + 1 := by
        simp only [fetchLength, readAhead, BitVec.toNat_ofNat]
        rw [Nat.mod_eq_of_lt (by omega)]; omega
      have hpos : (readAhead 1 s).brBitsRead.toNat = s.brBitsRead.toNat + 1 := by
        simp only [readAhead, BitVec.toNat_ofNat]; exact Nat.mod_eq_of_lt (by omega)
      rw [hfl]
      simp only [he, Bool.false_eq_true, if_false, srcBits, bind, Option.bind, pure]
      cases hbit : s.src.bitAt s.brBitsRead.toNat with
      | none => rfl
      | some r =>
        have hv' : v + 2 ^ b * r.toNat < 2 ^ (b + 1) := by
          rw [Nat.pow_succ]; cases r <;> simp <;> omega
        have hs : (readAhead 1 s).src = s.src := rfl
        have := ih (b + 1) (v ||| (r.toNat <<< b)) (readAhead 1 s) (by rw [or_shift v b r hv]; exact hv')
        simp only [Flow.bind]
        rw [show ({ s with brBitsRead := BitVec.ofNat 32 (s.brBitsRead.toNat + 1) } : State) = readAhead 1 s from rfl,
          this, hpos, hs]
        cases srcBits s.src (s.brBitsRead.toNat + 1) (fetchLength k (readAhead 1 s)) with
        | none => rfl
        | some rest =>
          simp only [bitsValue, or_shift v b r hv]
          congr 1
          · rw [Nat.pow_succ]; ring
          · unfold readAhead at hpos ⊢
            simp only [hpos, State.mk.injEq, and_true, true_and]
            congr 1; omega

/-- What BR.READBITS does (R102): the bits at the position, at most `width` and no more than are valid, as a number. -/
theorem brReadBits_eq (width : Nat) (s : State) :
    brReadBits width s =
      match srcBits s.src s.brBitsRead.toNat (fetchLength width s) with
      | none => .stop .srcUnwritten
      | some bits => .ret (bitsValue bits) (readAhead (fetchLength width s) s) := by
  rw [brReadBits, brReadFrom_eq 0 width 0 s (by simp)]
  cases srcBits s.src s.brBitsRead.toNat (fetchLength width s) <;> simp

/-- What a BR.READBITS moves past never leaves the valid bits. -/
theorem readAhead_bound (k : Nat) (s : State) (h : s.brBitsRead.toNat ≤ s.brValidBits.toNat) :
    (readAhead (fetchLength k s) s).brBitsRead.toNat = s.brBitsRead.toNat + fetchLength k s ∧
      s.brBitsRead.toNat + fetchLength k s ≤ s.brValidBits.toNat := by
  have hb := s.brValidBits.isLt
  have : s.brBitsRead.toNat + fetchLength k s ≤ s.brValidBits.toNat := by simp [fetchLength]; omega
  refine ⟨?_, this⟩
  simp only [readAhead, BitVec.toNat_ofNat]
  exact Nat.mod_eq_of_lt (by omega)

/-- SRC supplied below the valid bits: the bits of every fetch are there. -/
theorem srcBits_supplied (s : State) (h : SrcSupplied ((s.brValidBits.toNat + 7) / 8) s) (n k : Nat)
    (hk : n + k ≤ s.brValidBits.toNat) : ∃ bits, srcBits s.src n k = some bits := by
  induction k generalizing n with
  | zero => exact ⟨[], rfl⟩
  | succ k ih =>
    obtain ⟨rest, hrest⟩ := ih (n + 1) (by omega)
    have := h (n / 8) (by omega)
    obtain ⟨b, hb⟩ := Option.isSome_iff_exists.mp this
    exact ⟨b.getLsbD (n % 8) :: rest, by simp [srcBits, Memory.bitAt, hb, hrest]⟩

/-- Bits that SRC holds, as a fetch collects them. -/
theorem srcBits_of_srcHolds (n k : Nat) (bits : List Bool) (s : State) (h : bits.length = k) (hs : SrcHolds n bits s) :
    srcBits s.src n k = some bits := by
  rw [srcBits_eq_some]
  refine ⟨h, fun i hi => ?_⟩
  have hb : bits[i]? = some bits[i] := List.getElem?_eq_getElem (by omega)
  rw [hb]; exact hs i _ hb

/-- What a fetch moves past never wraps BR.bitsRead. -/
theorem fetch_position (k : Nat) (s : State) :
    (BitVec.ofNat 32 (s.brBitsRead.toNat + fetchLength k s)).toNat = s.brBitsRead.toNat + fetchLength k s := by
  have h1 := s.brBitsRead.isLt
  have h2 := s.brValidBits.isLt
  rw [BitVec.toNat_ofNat]
  apply Nat.mod_eq_of_lt
  simp only [fetchLength]; omega

end Sys2Proof.Machine
end

