-- ==== Sys2Proof/Laws/Decoder.lean ====
section
/-! SUPPORT. What the decoder's steps do (44_decoder.md). -/

namespace Sys2Proof.Machine

/-! ## DEC.WRITE -/

/-- How many more bytes the decoder may write (R153). -/
def outputRoom (s : State) : Nat := s.pExpectedBytes.toNat - s.decBytesWritten.toNat

theorem decWrite_full (bytes : List Symbol) (s : State) (h : s.pExpectedBytes.toNat ≤ s.decBytesWritten.toNat) :
    decWrite bytes s = s := by
  induction bytes with
  | nil => rfl
  | cons b rest ih => rw [decWrite, if_neg (by omega), ih]

/-- The decoder with `out` written (R28). -/
def withOutput (out : List Symbol) (s : State) : State :=
  { s with dst := Memory.ofBytes out, decBytesWritten := BitVec.ofNat 32 out.length }

theorem withOutput_self (out : List Symbol) (s : State) (hdst : DstHolds out s) (hlen : out.length = s.decBytesWritten.toNat) :
    withOutput out s = s := by
  have h0 : BitVec.ofNat 32 out.length = s.decBytesWritten := by
    apply BitVec.eq_of_toNat_eq; rw [hlen]; simp
  unfold withOutput; rw [h0, ← hdst]

/-- DEC.WRITE on a DST that holds `out` (R153): the bytes for which there is room are appended, the rest is dropped. -/
theorem decWrite_holds (bytes out : List Symbol) (s : State) (hdst : DstHolds out s)
    (hlen : out.length = s.decBytesWritten.toNat) :
    decWrite bytes s = withOutput (out ++ bytes.take (outputRoom s)) s := by
  induction bytes generalizing out s with
  | nil => simp [decWrite, withOutput_self out s hdst hlen]
  | cons b rest ih =>
    by_cases hroom : s.decBytesWritten.toNat < s.pExpectedBytes.toNat
    · have hb := s.pExpectedBytes.isLt
      have hn : (BitVec.ofNat 32 (s.decBytesWritten.toNat + 1)).toNat = s.decBytesWritten.toNat + 1 := by
        rw [BitVec.toNat_ofNat]; exact Nat.mod_eq_of_lt (by omega)
      have hw : ({ s with
          dst := s.dst.write s.decBytesWritten.toNat b
          decBytesWritten := BitVec.ofNat 32 (s.decBytesWritten.toNat + 1) } : State) = withOutput (out ++ [b]) s := by
        unfold DstHolds at hdst
        simp only [withOutput, hdst, ← hlen, Memory.write_ofBytes_end, List.length_append, List.length_cons, List.length_nil,
          Nat.zero_add]
      have hl : (out ++ [b]).length = (withOutput (out ++ [b]) s).decBytesWritten.toNat := by
        show _ = (BitVec.ofNat 32 (out ++ [b]).length).toNat
        rw [List.length_append, List.length_singleton, hlen, hn]
      have hr : outputRoom s = outputRoom (withOutput (out ++ [b]) s) + 1 := by
        simp only [outputRoom, ← hl, List.length_append, List.length_singleton, hlen]
        show _ = s.pExpectedBytes.toNat - _ + 1
        omega
      rw [decWrite, if_pos hroom, hw, ih (out ++ [b]) (withOutput (out ++ [b]) s) (by rfl) hl, hr, List.take_succ_cons]
      simp [withOutput]
    · rw [decWrite_full _ _ (by omega), show outputRoom s = 0 by simp [outputRoom]; omega]
      simp [withOutput_self out s hdst hlen]

/-- What fits never passes P_EXPECTED_BYTES. -/
theorem output_bound (bytes out : List Symbol) (s : State) (hlen : out.length = s.decBytesWritten.toNat)
    (h : s.decBytesWritten.toNat ≤ s.pExpectedBytes.toNat) :
    (out ++ bytes.take (outputRoom s)).length ≤ s.pExpectedBytes.toNat ∧
      (BitVec.ofNat 32 (out ++ bytes.take (outputRoom s)).length).toNat = (out ++ bytes.take (outputRoom s)).length := by
  have hb := s.pExpectedBytes.isLt
  have hle : (out ++ bytes.take (outputRoom s)).length ≤ s.pExpectedBytes.toNat := by
    simp only [outputRoom, List.length_append, List.length_take]; omega
  exact ⟨hle, by rw [BitVec.toNat_ofNat]; exact Nat.mod_eq_of_lt (by omega)⟩

/-- DEC.WRITE changes DST and DEC.bytesWritten only. -/
theorem decWrite_frame (bytes : List Symbol) (s : State) :
    ∃ d n, decWrite bytes s = { s with dst := d, decBytesWritten := n } := by
  induction bytes generalizing s with
  | nil => exact ⟨s.dst, s.decBytesWritten, rfl⟩
  | cons b rest ih =>
    rw [decWrite]; split
    · obtain ⟨d, n, h⟩ := ih { s with
        dst := s.dst.write s.decBytesWritten.toNat b
        decBytesWritten := BitVec.ofNat 32 (s.decBytesWritten.toNat + 1) }
      exact ⟨d, n, h⟩
    · exact ih s

/-- DEC.bytesWritten never passes P_EXPECTED_BYTES (R28, R153). -/
theorem decWrite_bound (bytes : List Symbol) (s : State) (h : s.decBytesWritten.toNat ≤ s.pExpectedBytes.toNat) :
    (decWrite bytes s).decBytesWritten.toNat ≤ s.pExpectedBytes.toNat := by
  induction bytes generalizing s with
  | nil => exact h
  | cons b rest ih =>
    rw [decWrite]; split
    · have hb := s.pExpectedBytes.isLt
      refine ih _ ?_
      simp only [BitVec.toNat_ofNat]
      rw [Nat.mod_eq_of_lt (by omega)]; omega
    · exact ih s h

/-! ## DEC.FETCH -/

/-- What DEC.FETCH does (R148): DEC.code holds the bits at the position, the position moves past them. -/
theorem decFetch_eq (s : State) :
    decFetch s =
      match nextWordBits s with
      | none => .stop .srcUnwritten
      | some bits => .ret () (wordFetched (fetchedCode (bitsValue bits)) s) := by
  rw [decFetch, brReadBits_eq, nextWordBits]
  cases srcBits s.src s.brBitsRead.toNat (fetchLength s.width.bits s) <;> rfl

/-- One decoder step is the class test and action on the word at the position (R156). -/
theorem decStep_eq (s : State) :
    decStep s =
      match nextWordBits s with
      | none => .stop .srcUnwritten
      | some bits => wordStep (fetchedCode (bitsValue bits)) s := by
  rw [decStep, decFetch_eq]
  cases nextWordBits s <;> rfl

/-! ## DEC.UPDATE -/

/-- R154, every case: the entry (DEC.prevCode, DEC.firstByte) added, then an epoch reset that makes DEC.prevCode NIL, or WIDTH
raised when DICT.size has reached 2^WIDTH, or neither. -/
theorem decUpdate_cases (p : Code) (s : State) (hp : s.decPrevCode = some p) (hsize : s.dictSize < 4096) :
    (s.width = .w12 ∧ s.dictSize + 1 = 4096 ∧
      decUpdate s = .ret () { s with dict := rootTable, width := .w9, decPrevCode := none }) ∨
    (s.dictSize + 1 = 2 ^ s.width.bits ∧ ∃ w, w.bits = s.width.bits + 1 ∧
      decUpdate s = .ret () { s with
        dict := s.dict ++ [{ parent := some p, value := s.decFirstByte }], width := w,
        decPrevCode := some s.decCode }) ∨
    (s.dictSize + 1 ≠ 2 ^ s.width.bits ∧
      decUpdate s = .ret () { s with
        dict := s.dict ++ [{ parent := some p, value := s.decFirstByte }], decPrevCode := some s.decCode }) := by
  have hadd := dictAdd_room p s.decFirstByte s (by omega)
  have hsz : ({ s with dict := s.dict ++ [{ parent := some p, value := s.decFirstByte }] } : State).dictSize =
      s.dictSize + 1 := by simp [State.dictSize]
  rcases dictGrow_cases { s with dict := s.dict ++ [{ parent := some p, value := s.decFirstByte }] } with
    ⟨hw, hs, h⟩ | ⟨hs, w, hw, h⟩ | ⟨hs, h⟩
  · exact .inl ⟨hw, hsz ▸ hs, by unfold decUpdate; rw [hp]; simp only [hadd, h]⟩
  · exact .inr (.inl ⟨hsz ▸ hs, w, hw, by unfold decUpdate; rw [hp]; simp only [hadd, h]⟩)
  · exact .inr (.inr ⟨hsz ▸ hs, by unfold decUpdate; rw [hp]; simp only [hadd, h]⟩)

/-- DEC.UPDATE changes the dictionary, WIDTH and DEC.prevCode only, or stops. -/
theorem decUpdate_frame (s : State) :
    (∃ d w p, decUpdate s = .ret () { s with dict := d, width := w, decPrevCode := p }) ∨ decUpdate s = .stop .nilCode := by
  unfold decUpdate
  split
  · exact .inr rfl
  · rename_i p _
    obtain ⟨d, hd⟩ := dictAdd_frame p s.decFirstByte s
    rw [hd]
    obtain ⟨d', w, h⟩ := dictGrow_frame { s with dict := d }
    refine .inl ?_
    split
    · rename_i t ht
      rw [ht] at h; simp only at h; subst h
      exact ⟨d', w, none, rfl⟩
    · rename_i t ht
      rw [ht] at h; simp only at h; subst h
      exact ⟨d', w, some s.decCode, rfl⟩

/-! ## The class test (R76, R150) -/

theorem classOf_lit (s : State) (c : Code) : classOf s c = .lit ↔ s.decPrevCode = none ∧ c.toNat < 256 := by
  unfold classOf classify
  cases s.decPrevCode with
  | none =>
    simp only [Option.isNone_none, if_true]
    split
    · simp; omega
    · simp; omega
  | some p =>
    simp only [Option.isNone_some, Bool.false_eq_true, if_false]
    split
    · simp
    · split <;> simp

theorem classOf_badlit (s : State) (c : Code) : classOf s c = .badlit ↔ s.decPrevCode = none ∧ 256 ≤ c.toNat := by
  unfold classOf classify
  cases s.decPrevCode with
  | none =>
    simp only [Option.isNone_none, if_true]
    split
    · simp; omega
    · simp; omega
  | some p =>
    simp only [Option.isNone_some, Bool.false_eq_true, if_false]
    split
    · simp
    · split <;> simp

theorem classOf_ref (s : State) (c : Code) : classOf s c = .ref ↔ s.decPrevCode ≠ none ∧ c.toNat < s.dictSize := by
  unfold classOf classify
  cases s.decPrevCode with
  | none => simp; split <;> simp
  | some p =>
    simp only [Option.isNone_some, Bool.false_eq_true, if_false]
    split
    · simp; omega
    · split <;> simp <;> omega

theorem classOf_kwk (s : State) (c : Code) : classOf s c = .kwk ↔ s.decPrevCode ≠ none ∧ c.toNat = s.dictSize := by
  unfold classOf classify
  cases s.decPrevCode with
  | none => simp; split <;> simp
  | some p =>
    simp only [Option.isNone_some, Bool.false_eq_true, if_false]
    split
    · simp; omega
    · split <;> simp <;> omega

theorem classOf_oor (s : State) (c : Code) : classOf s c = .oor ↔ s.decPrevCode ≠ none ∧ s.dictSize < c.toNat := by
  unfold classOf classify
  cases s.decPrevCode with
  | none => simp; split <;> simp
  | some p =>
    simp only [Option.isNone_some, Bool.false_eq_true, if_false]
    split
    · simp; omega
    · split <;> simp <;> omega

@[simp] theorem classOf_wordFetched (w c : Code) (s : State) : classOf (wordFetched w s) c = classOf s c := rfl

/-! ## DEC.LIT, DEC.KWK, DEC.REF -/

/-- DEC.LIT's frame: DST, DEC.bytesWritten, DEC.firstByte, DEC.prevCode. -/
theorem decLit_frame (s : State) :
    ∃ d n, decLit s = { s with
      dst := d, decBytesWritten := n, decFirstByte := codeSymbol s.decCode, decPrevCode := some s.decCode } := by
  obtain ⟨d, n, h⟩ := decWrite_frame [codeSymbol s.decCode] s
  exact ⟨d, n, by rw [decLit, h]⟩

/-- DEC.KWK, when DEC.prevCode is populated (R151): Seq(DEC.prevCode) and its first byte written, then UPDATE. -/
theorem decKwk_ok {s : State} (hwf : DictWf s.dict) (p : Code) (hp : s.decPrevCode = some p) (hlt : p.toNat < s.dictSize) :
    ∃ bytes first, IsSeq s.dict p bytes ∧ bytes.head? = some first ∧ bytes.length ≤ 4096 ∧
      decKwk s = decUpdate (decWrite (bytes ++ [first]) { s with
        scratch := bytes.reverse ++ s.scratch.drop bytes.length, decFirstByte := first }) := by
  obtain ⟨bytes, first, hseq, hfirst, hlen, h⟩ := dictSeq_ok hwf p hlt
  have := p.isLt
  exact ⟨bytes, first, hseq, hfirst, by split at hlen <;> omega, by
    have hk : decKwk s = (dictSeq p s).bind fun r t => decUpdate (decWrite (r.1 ++ [r.2]) { t with decFirstByte := r.2 }) := by
      rw [decKwk, hp]
    rw [hk, h]; rfl⟩

/-- DEC.REF, when DEC.code is populated (R152): Seq(DEC.code) written, then UPDATE. -/
theorem decRef_ok {s : State} (hwf : DictWf s.dict) (hlt : s.decCode.toNat < s.dictSize) :
    ∃ bytes first, IsSeq s.dict s.decCode bytes ∧ bytes.head? = some first ∧ bytes.length ≤ 4096 ∧
      decRef s = decUpdate (decWrite bytes { s with
        scratch := bytes.reverse ++ s.scratch.drop bytes.length, decFirstByte := first }) := by
  obtain ⟨bytes, first, hseq, hfirst, hlen, h⟩ := dictSeq_ok hwf s.decCode hlt
  have := s.decCode.isLt
  exact ⟨bytes, first, hseq, hfirst, by split at hlen <;> omega, by rw [decRef, h]; rfl⟩

end Sys2Proof.Machine
end

