-- ==== Sys2Proof/Laws/Writer.lean ====
section
/-! SUPPORT. What the BitWriter operations do (40_bitwriter.md). -/

namespace Sys2Proof.Machine

theorem toNat_ofNat32 (n : Nat) (h : n < 2 ^ 32) : (BitVec.ofNat 32 n).toNat = n := by
  rw [BitVec.toNat_ofNat, Nat.mod_eq_of_lt h]

theorem bitCountFull_false (n : Nat) : bitCountFull n = false ↔ n + 1 < 2 ^ 32 := by
  simp [bitCountFull]; omega

/-- R91, every case: the capacity test, the count test, and the byte. -/
theorem bwAppendBit_eq (bit : Bool) (s : State) :
    bwAppendBit bit s =
      if beyondCap (s.bwBitsWritten.toNat / 8) s then .raised (raiseFault .outputOverflow s)
      else if bitCountFull s.bwBitsWritten.toNat then .raised (raiseFault .bitCountOverflow s)
      else
        match (if s.bwBitsWritten.toNat % 8 = 0 then some 0 else s.dst.read (s.bwBitsWritten.toNat / 8)) with
        | none => .stop .dstUnwritten
        | some old => .ret () { s with
            dst := s.dst.write (s.bwBitsWritten.toNat / 8) (setBit old (s.bwBitsWritten.toNat % 8) bit)
            bwBitsWritten := BitVec.ofNat 32 (s.bwBitsWritten.toNat + 1) } := rfl

/-- A byte sequence and its last packed byte, for a bit count that is not a multiple of 8. -/
theorem packBits_split (xs : List Bool) :
    ∃ full tail, xs = full ++ tail ∧ full.length = 8 * (xs.length / 8) ∧ tail.length = xs.length % 8 ∧
      packBits xs = packBits full ++ packBits tail := by
  obtain ⟨full, tail, h, hf, ht⟩ := split_bits xs
  exact ⟨full, tail, h, hf, ht, by rw [h]; exact packBits_append_full full tail _ hf⟩

/-- Appending one bit to a packed buffer: a new byte at bit 0, else the last byte with one bit more (R91, R96). -/
theorem write_packBits (xs : List Bool) (bit : Bool) :
    ∃ old, (if xs.length % 8 = 0 then some 0 else (Memory.ofBytes (packBits xs)).read (xs.length / 8)) = some old ∧
      (Memory.ofBytes (packBits xs)).write (xs.length / 8) (setBit old (xs.length % 8) bit) =
        Memory.ofBytes (packBits (xs ++ [bit])) := by
  obtain ⟨full, tail, h, hf, ht, hp⟩ := packBits_split xs
  have hfl : (packBits full).length = xs.length / 8 := by rw [packBits_length, hf]; omega
  have happ : packBits (xs ++ [bit]) = packBits full ++ packBits (tail ++ [bit]) := by
    conv_lhs => rw [h, List.append_assoc]
    exact packBits_append_full full _ _ hf
  have hlast : packBits (tail ++ [bit]) = [packByte (tail ++ [bit])] :=
    packBits_short _ (by simp) (by simp; omega)
  by_cases h0 : xs.length % 8 = 0
  · have htail : tail = [] := List.length_eq_zero_iff.mp (by omega)
    refine ⟨0, by simp [h0], ?_⟩
    rw [h0, setBit_zero, hp, htail, happ, hlast, htail, ← hfl]
    simpa using Memory.write_ofBytes_end (packBits full) (packByte [bit])
  · have hne : tail ≠ [] := by intro hn; rw [hn] at ht; simp at ht; omega
    have hshort : packBits tail = [packByte tail] := packBits_short _ hne (by omega)
    refine ⟨packByte tail, ?_, ?_⟩
    · rw [if_neg h0, Memory.read_ofBytes, hp, hshort, ← hfl]; simp
    · rw [← ht, setBit_packByte tail bit (by omega), hp, hshort, happ, hlast, ← hfl]
      exact Memory.write_ofBytes_last _ _ _

/-- The writer with more bits in it. -/
def withBits (bits : List Bool) (s : State) : State :=
  { s with dst := Memory.ofBytes (packBits bits), bwBitsWritten := BitVec.ofNat 32 bits.length }

theorem withBits_self (bits : List Bool) (s : State) (h : WriterHolds bits s) : withBits bits s = s := by
  obtain ⟨h1, h2⟩ := h
  have : BitVec.ofNat 32 bits.length = s.bwBitsWritten := by
    apply BitVec.eq_of_toNat_eq; rw [← h2]; simp
  unfold withBits; rw [← h1, this]

theorem writerHolds_withBits (bits : List Bool) (s : State) (h : bits.length < 2 ^ 32) :
    WriterHolds bits (withBits bits s) := ⟨rfl, toNat_ofNat32 _ h⟩

/-- What BW.APPENDBIT does to a writer that holds `bits` (R91): a fault, the capacity test first (R196), or one bit more. -/
theorem bwAppendBit_holds (bit : Bool) (bits : List Bool) (s : State) (h : WriterHolds bits s) :
    bwAppendBit bit s =
      if beyondCap (bits.length / 8) s then .raised (raiseFault .outputOverflow s)
      else if bitCountFull bits.length then .raised (raiseFault .bitCountOverflow s)
      else .ret () (withBits (bits ++ [bit]) s) := by
  rw [bwAppendBit_eq, h.2]
  obtain ⟨old, hold, hw⟩ := write_packBits bits bit
  split
  · rfl
  · split
    · rfl
    · rw [h.1, hold]
      simp only [hw, withBits, List.length_append, List.length_cons, List.length_nil]

/-- The first fault BW.APPENDBITS meets while k bits are appended to n, if any: at bit n + j (R91, R92, R196). -/
def appendFault (s : State) : Nat → Nat → Option (CodecFault × Nat)
  | _, 0 => none
  | n, k + 1 =>
    if beyondCap (n / 8) s then some (.outputOverflow, n)
    else if bitCountFull n then some (.bitCountOverflow, n)
    else appendFault s (n + 1) k

/-- `b`, `b + 1`, ... of a value: the bits R92's loop appends from bit b on. -/
def valueBitsFrom (value b k : Nat) : List Bool := (List.range' b k).map value.testBit

theorem valueBitsFrom_zero (value k : Nat) : valueBitsFrom value 0 k = valueBits k value := by
  simp [valueBitsFrom, valueBits, List.range_eq_range']

theorem valueBitsFrom_succ (value b k : Nat) :
    valueBitsFrom value b (k + 1) = value.testBit b :: valueBitsFrom value (b + 1) k := by
  simp [valueBitsFrom, List.range'_succ]

theorem appendFault_withBits (bits : List Bool) (s : State) (n k : Nat) :
    appendFault (withBits bits s) n k = appendFault s n k := by
  induction k generalizing n with
  | zero => rfl
  | succ k ih => simp only [appendFault, ih]; rfl

theorem appendFault_at (s : State) (n k m : Nat) (f : CodecFault) (h : appendFault s n k = some (f, m)) :
    n ≤ m ∧ m < n + k := by
  induction k generalizing n with
  | zero => simp [appendFault] at h
  | succ k ih =>
    rw [appendFault] at h
    split at h
    · simp only [Option.some.injEq, Prod.mk.injEq] at h; omega
    · split at h
      · simp only [Option.some.injEq, Prod.mk.injEq] at h; omega
      · have := ih (n + 1) h; omega

/-- What the loop of R92 does to a writer that holds `bits`. -/
theorem bwAppendFrom_holds (value b k : Nat) (bits : List Bool) (s : State) (h : WriterHolds bits s) :
    bwAppendFrom value b k s =
      match appendFault s bits.length k with
      | none => .ret () (withBits (bits ++ valueBitsFrom value b k) s)
      | some (f, n) => .raised (raiseFault f (withBits (bits ++ valueBitsFrom value b (n - bits.length)) s)) := by
  induction k generalizing b bits s with
  | zero =>
    have : valueBitsFrom value b 0 = [] := rfl
    simp [bwAppendFrom, appendFault, this, withBits_self bits s h]
  | succ k ih =>
    rw [bwAppendFrom, bwAppendBit_holds _ bits s h, appendFault]
    have hnil : valueBitsFrom value b (bits.length - bits.length) = [] := by simp [valueBitsFrom]
    split
    · simp only [Flow.bind, hnil, List.append_nil, withBits_self bits s h]
    · split
      · simp only [Flow.bind, hnil, List.append_nil, withBits_self bits s h]
      · have hfull : bits.length + 1 < 2 ^ 32 := by
          rw [← bitCountFull_false]; simpa using ‹¬bitCountFull bits.length = true›
        have hh := writerHolds_withBits (bits ++ [valueBit value b]) s (by simpa using hfull)
        simp only [Flow.bind, ih (b + 1) _ _ hh, appendFault_withBits, List.length_append, List.length_cons,
          List.length_nil, Nat.zero_add]
        cases hx : appendFault s (bits.length + 1) k with
        | none => simp [valueBitsFrom_succ, withBits, valueBit]
        | some p =>
          obtain ⟨f, n⟩ := p
          have := (appendFault_at s _ k n f hx).1
          simp only
          rw [show n - bits.length = (n - (bits.length + 1)) + 1 by omega, valueBitsFrom_succ]
          simp [withBits, valueBit]

/-- What BW.APPENDBITS does to a writer that holds `bits` (R92): the low bits of the value appended, least significant first,
or a fault at the first bit that does not fit, with the bits before it written. -/
theorem bwAppendBits_holds (value width : Nat) (bits : List Bool) (s : State) (h : WriterHolds bits s) :
    bwAppendBits value width s =
      match appendFault s bits.length width with
      | none => .ret () (withBits (bits ++ valueBits width value) s)
      | some (f, n) => .raised (raiseFault f (withBits (bits ++ valueBits (n - bits.length) value) s)) := by
  simp only [bwAppendBits, bwAppendFrom_holds value 0 width bits s h, valueBitsFrom_zero]

/-- A number of bits fits the supplied DST and the 32-bit count. -/
theorem appendFault_none_iff (s : State) (n k : Nat) :
    appendFault s n k = none ↔ k = 0 ∨ (n + k < 2 ^ 32 ∧ ∀ cap, s.encDstCap = some cap → (n + k + 7) / 8 ≤ cap) := by
  have step : ∀ a, beyondCap a s = true ↔ ∃ cap, s.encDstCap = some cap ∧ cap ≤ a := by
    intro a; unfold beyondCap; cases s.encDstCap <;> simp
  induction k generalizing n with
  | zero => simp [appendFault]
  | succ k ih =>
    rw [appendFault]
    simp only [Nat.add_eq_zero_iff, one_ne_zero, and_false, false_or]
    by_cases hcap : beyondCap (n / 8) s
    · obtain ⟨cap, hc, hle⟩ := (step _).mp hcap
      simp only [hcap, if_true, reduceCtorEq, false_iff, not_and, not_forall]
      intro _; exact ⟨cap, hc, by omega⟩
    · by_cases hfull : bitCountFull n
      · rw [if_neg hcap, if_pos hfull]
        simp only [reduceCtorEq, false_iff, not_and]
        intro hx; simp [bitCountFull] at hfull; omega
      · have hfits : n + 1 < 2 ^ 32 := by rw [← bitCountFull_false]; simpa using hfull
        have hbyte : ∀ cap, s.encDstCap = some cap → n / 8 < cap := by
          intro cap hc; by_contra hx; exact hcap ((step _).mpr ⟨cap, hc, by omega⟩)
        simp only [hcap, hfull, if_false, ih, show n + 1 + k = n + (k + 1) by omega, Bool.false_eq_true]
        constructor
        · rintro (rfl | h)
          · exact ⟨by omega, fun cap hc => by have := hbyte cap hc; omega⟩
          · exact h
        · intro h; exact .inr h

/-- Reading a writer's buffer back: BW.RELEASE on a writer that holds `bits` (R95). -/
theorem bwRelease_holds (bits : List Bool) (s : State) (h : WriterHolds bits s) :
    bwRelease s = .ret (packBits bits) { s with bwBitsWritten := 0 } := by
  have hl : bwByteCount s = (packBits bits).length := by rw [bwByteCount, h.2, packBits_length]
  rw [bwRelease, hl, h.1, Memory.readRange_ofBytes]

/-- What the writer never touches: BW.APPENDBIT changes DST and BW.bitsWritten, or takes a fault. -/
theorem bwAppendBit_frame (bit : Bool) (s : State) :
    (∃ d n, bwAppendBit bit s = .ret () { s with dst := d, bwBitsWritten := n }) ∨
    (∃ f, bwAppendBit bit s = .raised (raiseFault f s)) ∨ bwAppendBit bit s = .stop .dstUnwritten := by
  rw [bwAppendBit_eq]
  split
  · exact .inr (.inl ⟨_, rfl⟩)
  · split
    · exact .inr (.inl ⟨_, rfl⟩)
    · split
      · exact .inr (.inr rfl)
      · exact .inl ⟨_, _, rfl⟩

theorem bwAppendFrom_frame (value b k : Nat) (s : State) :
    (∃ d n, bwAppendFrom value b k s = .ret () { s with dst := d, bwBitsWritten := n }) ∨
    (∃ f d n, bwAppendFrom value b k s = .raised (raiseFault f { s with dst := d, bwBitsWritten := n })) ∨
    bwAppendFrom value b k s = .stop .dstUnwritten := by
  induction k generalizing b s with
  | zero => exact .inl ⟨s.dst, s.bwBitsWritten, rfl⟩
  | succ k ih =>
    rw [bwAppendFrom]
    rcases bwAppendBit_frame (valueBit value b) s with ⟨d, n, h⟩ | ⟨f, h⟩ | h
    · rw [h]; simp only [Flow.bind]
      rcases ih (b + 1) { s with dst := d, bwBitsWritten := n } with ⟨d', n', h'⟩ | ⟨f, d', n', h'⟩ | h'
      · exact .inl ⟨d', n', h'⟩
      · exact .inr (.inl ⟨f, d', n', h'⟩)
      · exact .inr (.inr h')
    · rw [h]; exact .inr (.inl ⟨f, s.dst, s.bwBitsWritten, rfl⟩)
    · rw [h]; exact .inr (.inr rfl)

/-- BW.APPENDBITS changes DST and BW.bitsWritten only, or takes a fault after doing so, or stops. -/
theorem bwAppendBits_frame (value width : Nat) (s : State) :
    (∃ d n, bwAppendBits value width s = .ret () { s with dst := d, bwBitsWritten := n }) ∨
    (∃ f d n, bwAppendBits value width s = .raised (raiseFault f { s with dst := d, bwBitsWritten := n })) ∨
    bwAppendBits value width s = .stop .dstUnwritten :=
  bwAppendFrom_frame value 0 width s

/-- The fault BW.APPENDBITS meets, as R91 states its tests. -/
theorem appendFault_some (s : State) (n k m : Nat) (f : CodecFault) (h : appendFault s n k = some (f, m)) (hn : n < 2 ^ 32) :
    m < 2 ^ 32 ∧ BitFaults m f.cause s ∧ ∀ a, raiseFault f a = { a with status := .fault, cause := f.cause } := by
  induction k generalizing n with
  | zero => simp [appendFault] at h
  | succ k ih =>
    rw [appendFault] at h
    by_cases hcap : beyondCap (n / 8) s
    · rw [if_pos hcap] at h
      simp only [Option.some.injEq, Prod.mk.injEq] at h
      obtain ⟨rfl, rfl⟩ := h
      refine ⟨hn, .inl ⟨?_, rfl⟩, fun _ => rfl⟩
      unfold beyondCap at hcap
      cases hc : s.encDstCap with
      | none => rw [hc] at hcap; cases hcap
      | some cap => rw [hc] at hcap; exact ⟨cap, rfl, by simpa using hcap⟩
    · rw [if_neg hcap] at h
      by_cases hfull : bitCountFull n
      · rw [if_pos hfull] at h
        simp only [Option.some.injEq, Prod.mk.injEq] at h
        obtain ⟨rfl, rfl⟩ := h
        refine ⟨hn, .inr ⟨?_, by simpa [bitCountFull] using hfull, rfl⟩, fun _ => rfl⟩
        intro cap hc
        by_contra hx
        exact hcap (by simp [beyondCap, hc]; omega)
      · rw [if_neg hfull] at h
        exact ih _ h (by rw [← bitCountFull_false]; simpa using hfull)

/-- No bit that R91's tests let through is one it faults on. -/
theorem bitFaults_imp {n : Nat} {cause : Cause} {s : State} (h : BitFaults n cause s) :
    beyondCap (n / 8) s = true ∨ bitCountFull n = true := by
  rcases h with ⟨⟨cap, hc, hle⟩, _⟩ | ⟨_, hn, _⟩
  · exact .inl (by simp [beyondCap, hc, hle])
  · exact .inr (by simp only [bitCountFull, decide_eq_true_eq]; exact hn)

/-- The bits before the one BW.APPENDBITS faults on are faulted on by none. -/
theorem appendFault_first (s : State) (n k m : Nat) (f : CodecFault) (h : appendFault s n k = some (f, m)) (j : Nat)
    (hn : n ≤ j) (hm : j < m) (cause : Cause) : ¬BitFaults j cause s := by
  induction k generalizing n with
  | zero => simp [appendFault] at h
  | succ k ih =>
    rw [appendFault] at h
    split at h
    · simp only [Option.some.injEq, Prod.mk.injEq] at h; omega
    · split at h
      · simp only [Option.some.injEq, Prod.mk.injEq] at h; omega
      · rcases Nat.eq_or_lt_of_le hn with rfl | hlt
        · exact fun hb => (bitFaults_imp hb).elim ‹_› ‹_›
        · exact ih (n + 1) h hlt

/-- Everything BW.APPENDBITS can do on a writer that holds `bits` (R92): it fits, or it faults at a first bit. -/
theorem bwAppendBits_total (value width : Nat) (bits : List Bool) (s : State) (h : WriterHolds bits s) :
    ((width = 0 ∨ BitsFit bits.length width s) ∧
      bwAppendBits value width s = .ret () (withBits (bits ++ valueBits width value) s) ∧
      WriterHolds (bits ++ valueBits width value) (withBits (bits ++ valueBits width value) s)) ∨
    (width ≠ 0 ∧ ¬BitsFit bits.length width s ∧ ∃ b cause, b < width ∧ FirstFault bits.length b cause s ∧
      bwAppendBits value width s =
        .raised { withBits (bits ++ valueBits b value) s with status := .fault, cause := cause } ∧
      WriterHolds (bits ++ valueBits b value) (withBits (bits ++ valueBits b value) s)) := by
  have hl : bits.length < 2 ^ 32 := by have := s.bwBitsWritten.isLt; have := h.2; omega
  rw [bwAppendBits_holds value width bits s h]
  cases hf : appendFault s bits.length width with
  | none =>
    have hfit := (appendFault_none_iff _ _ _).mp hf
    refine .inl ⟨hfit, rfl, writerHolds_withBits _ _ ?_⟩
    rw [List.length_append, valueBits_length]
    rcases hfit with h0 | h0
    · omega
    · exact h0.1
  | some p =>
    obtain ⟨f, m⟩ := p
    obtain ⟨hlt, hb, hr⟩ := appendFault_some _ _ _ _ _ hf hl
    have hat := appendFault_at _ _ _ _ _ hf
    have hnot : ¬(width = 0 ∨ BitsFit bits.length width s) := by
      intro hx; rw [(appendFault_none_iff _ _ _).mpr hx] at hf; cases hf
    rw [not_or] at hnot
    refine .inr ⟨hnot.1, hnot.2, m - bits.length, f.cause, by omega, ?_, ?_, writerHolds_withBits _ _ ?_⟩
    · rw [FirstFault, show bits.length + (m - bits.length) = m by omega]
      exact ⟨hb, fun j other hj => appendFault_first _ _ _ _ _ hf _ (by omega) (by omega) other⟩
    · simp only [hr]
    · rw [List.length_append, valueBits_length]; omega

/-- Appending bits leaves every DST byte but those the bits lie in as it was. -/
theorem packBits_read_append (xs ys : List Bool) (a : Nat) (h : a < xs.length / 8 ∨ (xs.length + ys.length + 7) / 8 ≤ a) :
    (Memory.ofBytes (packBits (xs ++ ys))).read a = (Memory.ofBytes (packBits xs)).read a := by
  rw [Memory.read_ofBytes, Memory.read_ofBytes]
  rcases h with h | h
  · have hx : xs = xs.take (8 * (xs.length / 8)) ++ xs.drop (8 * (xs.length / 8)) := (List.take_append_drop _ _).symm
    have hl : (xs.take (8 * (xs.length / 8))).length = 8 * (xs.length / 8) := by rw [List.length_take]; omega
    conv_lhs => rw [hx, List.append_assoc, packBits_append_full _ _ _ hl]
    conv_rhs => rw [hx, packBits_append_full _ _ _ hl]
    have hp : (packBits (xs.take (8 * (xs.length / 8)))).length = xs.length / 8 := by rw [packBits_length, hl]; omega
    rw [List.getElem?_append_left (by omega), List.getElem?_append_left (by omega)]
  · rw [List.getElem?_eq_none, List.getElem?_eq_none]
    · rw [packBits_length]; omega
    · rw [packBits_length, List.length_append]; omega

end Sys2Proof.Machine
end

