-- ==== Sys2Proof/Laws/Encoder.lean ====
section
/-! SUPPORT. What the encoder's steps do (43_encoder.md). -/

namespace Sys2Proof.Machine

/-- The width check and the add of R133 change the dictionary and WIDTH only. -/
theorem encGrowAdd_frame (code : Code) (value : Symbol) (s : State) :
    ∃ d w, encGrowAdd code value s = { s with dict := d, width := w } := by
  obtain ⟨d, w, h⟩ := dictGrow_frame s
  unfold encGrowAdd
  split
  · rename_i t ht; rw [ht] at h; exact ⟨d, w, h⟩
  · rename_i t ht
    rw [ht] at h; simp only at h; subst h
    obtain ⟨d', h'⟩ := dictAdd_frame code value { s with dict := d, width := w }
    exact ⟨d', w, h'⟩

/-- R133's middle lines, every case: an epoch reset that drops the pending entry, or the entry added, at a WIDTH raised when
DICT.size was 2^WIDTH. -/
theorem encGrowAdd_cases (code : Code) (value : Symbol) (s : State) (hsize : s.dictSize ≤ 2 ^ s.width.bits) :
    (s.width = .w12 ∧ s.dictSize = 4096 ∧ encGrowAdd code value s = { s with dict := rootTable, width := .w9 }) ∨
    (s.dictSize = 2 ^ s.width.bits ∧ ∃ w, w.bits = s.width.bits + 1 ∧
      encGrowAdd code value s = { s with dict := s.dict ++ [{ parent := some code, value }], width := w }) ∨
    (s.dictSize < 2 ^ s.width.bits ∧
      encGrowAdd code value s = { s with dict := s.dict ++ [{ parent := some code, value }] }) := by
  have hpow : ∀ w : Width, 2 ^ w.bits ≤ 4096 := by intro w; cases w <;> simp [Width.bits]
  rcases dictGrow_cases s with ⟨hw, hs, h⟩ | ⟨hs, w, hw, h⟩ | ⟨hs, h⟩
  · exact .inl ⟨hw, hs, by simp [encGrowAdd, h]⟩
  · refine .inr (.inl ⟨hs, w, hw, ?_⟩)
    have hne : ({ s with width := w } : State).dictSize ≠ 4096 := by
      show s.dictSize ≠ 4096
      have := hpow w
      rw [hw, Nat.pow_succ] at this
      have := Nat.two_pow_pos s.width.bits
      omega
    simp [encGrowAdd, h, dictAdd_room _ _ _ hne]
  · refine .inr (.inr ⟨by omega, ?_⟩)
    have hne : s.dictSize ≠ 4096 := by have := hpow s.width; omega
    simp [encGrowAdd, h, dictAdd_room _ _ _ hne]

/-- What ENC.EMIT does when its bits fit (R133): the match emitted at the width before the check, then the check and the add. -/
theorem encEmit_fits (value : Symbol) (code : Code) (bits : List Bool) (s : State) (hcode : s.encCode = some code)
    (hw : WriterHolds bits s) (hfit : appendFault s bits.length s.width.bits = none) :
    encEmit value s = .ret () (nextInput
      { encGrowAdd code value (withBits (bits ++ valueBits s.width.bits code.toNat) s) with
        encCode := some (rootCode value) }) := by
  rw [encEmit, hcode]
  simp only [bwAppendBits_holds _ _ bits s hw, hfit, Flow.bind]

/-- ENC.EMIT's frame: it ends with DST, BW.bitsWritten, the dictionary, WIDTH, ENC.code and ENC.inPos written; or it takes a
fault while it emits; or it stops. -/
theorem encEmit_frame (value : Symbol) (s : State) :
    (∃ dst n d w, encEmit value s = .ret () { s with
      dst := dst, bwBitsWritten := n, dict := d, width := w, encCode := some (rootCode value),
      encInPos := BitVec.ofNat 32 (s.encInPos.toNat + 1) }) ∨
    (∃ f dst n, encEmit value s = .raised (raiseFault f { s with dst := dst, bwBitsWritten := n })) ∨
    (∃ r, encEmit value s = .stop r) := by
  unfold encEmit
  split
  · exact .inr (.inr ⟨_, rfl⟩)
  · rename_i code _
    rcases bwAppendBits_frame code.toNat s.width.bits s with ⟨dst, n, h⟩ | ⟨f, dst, n, h⟩ | h
    · obtain ⟨d, w, hg⟩ := encGrowAdd_frame code value { s with dst := dst, bwBitsWritten := n }
      refine .inl ⟨dst, n, d, w, ?_⟩
      rw [h]; simp only [Flow.bind, hg]; rfl
    · exact .inr (.inl ⟨f, dst, n, by rw [h]; rfl⟩)
    · exact .inr (.inr ⟨_, by rw [h]; rfl⟩)

/-- What ENC.FINISH does when its bits fit (R134). -/
theorem encFinish_fits (bits : List Bool) (s : State) (hw : WriterHolds bits s)
    (hfit : appendFault s bits.length s.width.bits = none) :
    encFinish s = .ret () (match s.encCode with
      | none => s
      | some code => withBits (bits ++ valueBits s.width.bits code.toNat) s) := by
  rw [encFinish]
  cases s.encCode with
  | none => rfl
  | some code => simp only [bwAppendBits_holds _ _ bits s hw, hfit]

/-- ENC.FINISH changes DST and BW.bitsWritten only, or takes a fault after doing so, or stops. -/
theorem encFinish_frame (s : State) :
    (∃ dst n, encFinish s = .ret () { s with dst := dst, bwBitsWritten := n }) ∨
    (∃ f dst n, encFinish s = .raised (raiseFault f { s with dst := dst, bwBitsWritten := n })) ∨
    (∃ r, encFinish s = .stop r) := by
  unfold encFinish
  split
  · exact .inl ⟨s.dst, s.bwBitsWritten, rfl⟩
  · rename_i code _
    rcases bwAppendBits_frame code.toNat s.width.bits s with h | h | h
    · exact .inl h
    · exact .inr (.inl h)
    · exact .inr (.inr ⟨_, h⟩)

end Sys2Proof.Machine
end

