-- ==== Sys2Proof/Laws/Running.lean ====
section
/-! SUPPORT. Running commands: what one step of the scan or of the decode loop comes to in a well-formed state, and that it
keeps the state well formed (10_state.md rule R41). -/

namespace Sys2Proof.Machine

theorem width_bits_pos (w : Width) : 9 ≤ w.bits ∧ w.bits ≤ 12 := by cases w <;> simp [Width.bits]

theorem width_pow (w : Width) : 512 ≤ 2 ^ w.bits ∧ 2 ^ w.bits ≤ 4096 := by cases w <;> simp [Width.bits]

theorem width_pow_half (w : Width) : 2 * 2 ^ (w.bits - 1) = 2 ^ w.bits := by cases w <;> simp [Width.bits]

/-! ## The encoder -/

theorem encInit_running (s : State) (hd : s.dst = []) : EncRunning (encInit s) where
  pos := by simp
  nil := by simp
  fresh := fun _ => ⟨rfl, rfl, rfl⟩
  code := by simp
  sizes := ⟨by simp [State.dictSize, Width.bits], .inl rfl⟩
  distinct := nodup_rootTable
  bits := by simp
  writer := ⟨[], by simp [hd, Memory.ofBytes, Memory.ofBytesFrom], by simp⟩

/-- The next input position does not wrap: an input byte is left. -/
theorem nextInput_pos (s : State) (h : encContinue s = true) :
    (nextInput s).encInPos.toNat = s.encInPos.toNat + 1 ∧ s.encInPos.toNat + 1 ≤ s.pInputBytes.toNat := by
  have hlt : s.encInPos.toNat < s.pInputBytes.toNat := by simpa [encContinue] using h
  have := s.pInputBytes.isLt
  exact ⟨by rw [nextInput_encInPos]; exact toNat_ofNat32 _ (by omega), hlt⟩

theorem nextInput_ne_zero (s : State) (h : encContinue s = true) : (nextInput s).encInPos ≠ 0 := by
  intro h0
  have := (nextInput_pos s h).1
  rw [h0] at this; simp at this

/-- An EXTEND step keeps the encoder's invariant (R132). -/
theorem encExtend_running {s : State} (hr : EncRunning s) (hwf : DictWf s.dict) (hc : encContinue s = true) (v : Symbol)
    (idx : Code) (hf : dictFind s.encCode v s = some idx) : EncRunning (encExtend idx s) where
  pos := by have := nextInput_pos s hc; rw [nextInput_encInPos] at this; simp only [encExtend_encInPos, encExtend_pInputBytes]; omega
  nil := by
    have := nextInput_ne_zero s hc
    rw [nextInput_encInPos] at this
    simpa using this
  fresh := by simp
  code := fun c h => by
    simp only [encExtend_encCode, Option.some.injEq] at h
    rw [← h]; exact (dictFind_some hwf hf).2
  sizes := hr.sizes
  distinct := hr.distinct
  bits := by
    have h1 := hr.bits
    have h2 := (nextInput_pos s hc).1
    rw [nextInput_encInPos] at h2
    simp only [encExtend_bwBitsWritten, encExtend_encInPos, h2]; omega
  writer := hr.writer

/-- The dictionary and WIDTH after R133's check and add, from a full match and a pair that is not there. -/
theorem encGrowAdd_wf {s : State} (hwf : DictWf s.dict) (hsz : EncSizes s.width s.dictSize) (hnd : s.dict.Nodup) (code : Code)
    (v : Symbol) (hcode : code.toNat < s.dictSize) (hnew : ({ parent := some code, value := v } : Entry) ∉ s.dict) :
    DictWf (encGrowAdd code v s).dict ∧ EncSizes (encGrowAdd code v s).width (encGrowAdd code v s).dictSize ∧
      (encGrowAdd code v s).dict.Nodup := by
  have hadd : (s.dict ++ [({ parent := some code, value := v } : Entry)]).Nodup := by
    rw [List.nodup_append]
    refine ⟨hnd, by simp, ?_⟩
    intro a ha b hb hab
    simp only [List.mem_singleton] at hb
    exact hnew (hb ▸ hab ▸ ha)
  obtain ⟨hle, hlow⟩ := hsz
  have hroot := hwf.atLeast
  rcases encGrowAdd_cases code v s hle with ⟨_, _, h⟩ | ⟨hs, w, hw, h⟩ | ⟨hlt, h⟩
  · rw [h]
    exact ⟨dictWf_rootTable, ⟨by simp [State.dictSize, Width.bits], .inl rfl⟩, nodup_rootTable⟩
  · rw [h]
    have hp := (width_pow w).2
    rw [hw, Nat.pow_succ] at hp
    refine ⟨hwf.add code v hcode (by unfold State.dictSize at *; omega), ⟨?_, .inr ?_⟩, hadd⟩
    · simp only [State.dictSize, List.length_append, List.length_cons, List.length_nil, hw, Nat.pow_succ] at hs ⊢
      omega
    · simp only [State.dictSize, List.length_append, List.length_cons, List.length_nil, hw, Nat.add_sub_cancel] at hs ⊢
      omega
  · rw [h]
    have hp := (width_pow s.width).2
    refine ⟨hwf.add code v hcode (by unfold State.dictSize at *; omega), ⟨?_, ?_⟩, hadd⟩
    · simp only [State.dictSize, List.length_append, List.length_cons, List.length_nil] at hlt ⊢
      omega
    · refine hlow.imp id fun hl => ?_
      simp only [State.dictSize, List.length_append, List.length_cons, List.length_nil] at hl ⊢
      omega

/-- What one input byte comes to while an encode runs: the invariant again, with only the encoder's own state changed; or a
fault of the writer. -/
theorem encSymbol_running {s : State} (hr : EncRunning s) (hwf : DictWf s.dict) (hc : encContinue s = true) (v : Symbol) :
    (∃ t, encSymbol v s = .ret () t ∧ EncRunning t ∧ DictWf t.dict ∧ t.dst.wf = true ∧
      ∃ d w c p m n, t = { s with dict := d, width := w, encCode := c, encInPos := p, dst := m, bwBitsWritten := n }) ∨
    (∃ f bits, encSymbol v s = .raised (raiseFault f (withBits bits s)) ∧ (f = .outputOverflow ∨ f = .bitCountOverflow)) := by
  obtain ⟨bits, hw⟩ := hr.writer
  unfold encSymbol
  cases hf : dictFind s.encCode v s with
  | some idx =>
    exact .inl ⟨_, rfl, encExtend_running hr hwf hc v idx hf, hwf, by
      show s.dst.wf = true
      rw [hw.1]; exact Memory.wf_ofBytes _, s.dict, s.width, some idx, _, s.dst, s.bwBitsWritten, rfl⟩
  | none =>
    cases hcode : s.encCode with
    | none => rw [hcode, dictFind_nil hwf] at hf; cases hf
    | some code =>
      have hlt := hr.code code hcode
      rw [hcode] at hf
      cases hfit : appendFault s bits.length s.width.bits with
      | some p =>
        obtain ⟨f, n⟩ := p
        refine .inr ⟨f, bits ++ valueBits (n - bits.length) code.toNat, ?_, ?_⟩
        · rw [encEmit, hcode]; simp only [bwAppendBits_holds _ _ bits s hw, hfit, Flow.bind]
        · clear hw hr
          generalize bits.length = m at hfit
          generalize s.width.bits = k at hfit
          induction k generalizing m with
          | zero => simp [appendFault] at hfit
          | succ k ih =>
            rw [appendFault] at hfit
            split at hfit
            · simp only [Option.some.injEq, Prod.mk.injEq] at hfit; exact .inl hfit.1.symm
            · split at hfit
              · simp only [Option.some.injEq, Prod.mk.injEq] at hfit; exact .inr hfit.1.symm
              · exact ih _ hfit
      | none =>
        have hfits := (appendFault_none_iff _ _ _).mp hfit
        have hwb := width_bits_pos s.width
        have hlen : (bits ++ valueBits s.width.bits code.toNat).length < 2 ^ 32 := by simp; omega
        have hnew : ({ parent := some code, value := v } : Entry) ∉ s.dict := dictFind_none.mp hf
        have hg := encGrowAdd_wf (s := withBits (bits ++ valueBits s.width.bits code.toNat) s) hwf hr.sizes hr.distinct code v
          hlt hnew
        obtain ⟨d, w, hgrow⟩ := encGrowAdd_frame code v (withBits (bits ++ valueBits s.width.bits code.toNat) s)
        have hpos := nextInput_pos s hc
        have hne := nextInput_ne_zero s hc
        rw [nextInput_encInPos] at hpos hne
        refine .inl ⟨_, encEmit_fits v code bits s hcode hw hfit, ?_, ?_, ?_, ?_⟩
        · rw [hgrow] at hg ⊢
          refine {
            pos := by
              show (BitVec.ofNat 32 (s.encInPos.toNat + 1)).toNat ≤ s.pInputBytes.toNat
              omega
            nil := ⟨nofun, fun h => absurd h hne⟩
            fresh := nofun
            code := fun c h => by
              simp only [nextInput_encCode, Option.some.injEq] at h
              rw [← h, rootCode_toNat]
              have := hg.1.atLeast
              have := v.isLt
              show v.toNat < d.length
              simp only [Config.firstCode] at *; omega
            sizes := hg.2.1
            distinct := hg.2.2
            bits := by
              have h1 := hr.bits
              have h2 : (BitVec.ofNat 32 (bits ++ valueBits s.width.bits code.toNat).length).toNat = _ := toNat_ofNat32 _ hlen
              have hz : s.encInPos.toNat ≠ 0 := fun h0 => by
                have := hr.nil.mpr (BitVec.eq_of_toNat_eq h0)
                rw [hcode] at this; cases this
              show (BitVec.ofNat 32 (bits ++ valueBits s.width.bits code.toNat).length).toNat ≤
                12 * ((BitVec.ofNat 32 (s.encInPos.toNat + 1)).toNat - 1)
              rw [h2, hpos.1]
              have := hw.2
              simp only [List.length_append, valueBits_length]; omega
            writer := ⟨bits ++ valueBits s.width.bits code.toNat, rfl, toNat_ofNat32 _ hlen⟩ }
        · rw [hgrow] at hg ⊢; exact hg.1
        · rw [hgrow]; show (Memory.ofBytes _).wf = true; simp
        · rw [hgrow]; exact ⟨d, w, _, _, _, _, rfl⟩

/-! ## The decoder -/

theorem brOpen_cases (cap valid : Count32) (s : State) :
    (8 * cap.toNat < valid.toNat ∧ brOpen cap valid s = .raised (raiseFault .badParameters s)) ∨
    (valid.toNat ≤ 8 * cap.toNat ∧
      brOpen cap valid s = .ret () { s with brByteCapacity := cap, brValidBits := valid, brBitsRead := 0 }) := by
  unfold brOpen; split
  · exact .inl ⟨‹_›, rfl⟩
  · exact .inr ⟨by omega, rfl⟩

/-- The state after DEC.INIT's last line (R146). -/
def decFresh (s : State) : State :=
  { s with
    brByteCapacity := s.pCompBytes, brValidBits := s.pCompBits, brBitsRead := 0, dict := rootTable, width := .w9,
    decPrevCode := none, decBytesWritten := 0, decFirstByte := Config.freeByte s.freeTick, freeTick := s.freeTick + 1 }

/-- DEC.INIT (R146): BadParameters before anything else is done, or the fresh state. -/
theorem decInit_cases (s : State) :
    (8 * s.pCompBytes.toNat < s.pCompBits.toNat ∧ decInit s = .raised (raiseFault .badParameters s)) ∨
    (s.pCompBits.toNat ≤ 8 * s.pCompBytes.toNat ∧ decInit s = .ret () (decFresh s)) := by
  rcases brOpen_cases s.pCompBytes s.pCompBits s with ⟨h, ho⟩ | ⟨h, ho⟩
  · exact .inl ⟨h, by rw [decInit, ho]; rfl⟩
  · exact .inr ⟨h, by rw [decInit, ho]; rfl⟩

theorem decFresh_running (s : State) (hd : s.dst = []) (h : s.pCompBits.toNat ≤ 8 * s.pCompBytes.toNat) :
    DecRunning (decFresh s) where
  opened := ⟨rfl, rfl⟩
  read := by simp [decFresh]
  valid := h
  out := by simp [decFresh]
  epochStart := fun _ => ⟨rfl, rfl⟩
  within := nofun
  dst := ⟨[], hd, rfl⟩

/-- The parts of the decoder's state that a step writes. -/
def DecFrame (s t : State) : Prop :=
  ∃ d w p fb n c r sc m, t = { s with
    dict := d, width := w, decPrevCode := p, decFirstByte := fb, decBytesWritten := n, decCode := c, brBitsRead := r,
    scratch := sc, dst := m }

theorem fetchLength_pos (s : State) (h : decContinue s = true) : 0 < fetchLength s.width.bits s := by
  have := width_bits_pos s.width
  simp only [decContinue, endOfStream, Bool.and_eq_true, Bool.not_eq_true', decide_eq_false_iff_not, decide_eq_true_eq] at h
  simp only [fetchLength]; omega

theorem wordFetched_read (c : Code) (s : State) (h : s.brBitsRead.toNat ≤ s.brValidBits.toNat) :
    (wordFetched c s).brBitsRead.toNat = s.brBitsRead.toNat + fetchLength s.width.bits s ∧
      s.brBitsRead.toNat + fetchLength s.width.bits s ≤ s.brValidBits.toNat :=
  readAhead_bound s.width.bits s h

/-- UPDATE keeps the decoder's invariant (R154): from a state whose DEC.prevCode and DEC.code are populated or about to be. -/
theorem decUpdate_running {s : State} (p : Code) (hp : s.decPrevCode = some p) (hlt : p.toNat < s.dictSize)
    (hwf : DictWf s.dict) (hsz : DecSizes s.width s.dictSize) (hcode : s.decCode.toNat ≤ s.dictSize) :
    ∃ d w q, decUpdate s = .ret () { s with dict := d, width := w, decPrevCode := q } ∧ DictWf d ∧
      (q = none → w = .w9 ∧ d = rootTable) ∧ (∀ c, q = some c → c.toNat < d.length ∧ DecSizes w d.length) := by
  have hpow := width_pow s.width
  have h4096 : s.dictSize < 4096 := by have := hsz.1; omega
  have hadd := hwf.add p s.decFirstByte hlt h4096
  rcases decUpdate_cases p s hp h4096 with ⟨_, _, h⟩ | ⟨hs, w, hw, h⟩ | ⟨hs, h⟩
  · exact ⟨_, _, _, h, dictWf_rootTable, fun _ => ⟨rfl, rfl⟩, nofun⟩
  · refine ⟨_, _, _, h, hadd, nofun, fun c hc => ?_⟩
    simp only [Option.some.injEq] at hc; subst hc
    simp only [List.length_append, List.length_cons, List.length_nil]
    unfold State.dictSize at *
    refine ⟨by omega, ?_, .inr ?_⟩
    · rw [hw, Nat.pow_succ]; omega
    · rw [hw, Nat.add_sub_cancel]; omega
  · refine ⟨_, s.width, _, h, hadd, nofun, fun c hc => ?_⟩
    simp only [Option.some.injEq] at hc; subst hc
    simp only [List.length_append, List.length_cons, List.length_nil]
    unfold State.dictSize at *
    refine ⟨by omega, ?_, hsz.2.imp id fun h => by omega⟩
    have := hsz.1; omega

/-- The state on which UPDATE runs, in a KWK or REF step that writes `bytes` (R151, R152). -/
def beforeUpdate (c : Code) (seq out : List Symbol) (first : Symbol) (s : State) : State :=
  withOutput out { wordFetched c s with scratch := seq.reverse ++ s.scratch.drop seq.length, decFirstByte := first }

/-- What one code word comes to while a decode runs: the invariant again, with only the decoder's own state changed; or
BadLiteral or CodeOutOfRange, with nothing changed but DEC.code and BR.bitsRead (R150, R196). -/
theorem wordStep_running {s : State} (hr : DecRunning s) (hwf : DictWf s.dict) (c : Code) :
    (∃ t, wordStep c s = .ret () t ∧ DecRunning t ∧ DictWf t.dict ∧ (s.scratch.length = 4096 → t.scratch.length = 4096) ∧
      t.dst.wf = true ∧
      t.brBitsRead.toNat = s.brBitsRead.toNat + fetchLength s.width.bits s ∧ DecFrame s t) ∨
    (∃ f, wordStep c s = .raised (raiseFault f (wordFetched c s)) ∧
      (f = .badLiteral c s.brBitsRead ∨ f = .codeOutOfRange c s.brBitsRead)) := by
  obtain ⟨out, hout, hlen⟩ := hr.dst
  have hread := wordFetched_read c s hr.read
  have hlate : ∀ (seq bytes : List Symbol) (first : Symbol) (p : Code), s.decPrevCode = some p → c.toNat ≤ s.dictSize →
      seq.length ≤ 4096 →
      ∃ t, decUpdate (beforeUpdate c seq (out ++ bytes.take (outputRoom s)) first s) = .ret () t ∧ DecRunning t ∧
        DictWf t.dict ∧ (s.scratch.length = 4096 → t.scratch.length = 4096) ∧ t.dst.wf = true ∧
        t.brBitsRead.toNat = s.brBitsRead.toNat + fetchLength s.width.bits s ∧ DecFrame s t := by
    intro seq bytes first p hp hcle hseq
    obtain ⟨hplt, hsz⟩ := hr.within p hp
    have hb := output_bound bytes out s hlen hr.out
    obtain ⟨d, w, q, hu, hwf', hnil', hsome'⟩ :=
      decUpdate_running (s := beforeUpdate c seq (out ++ bytes.take (outputRoom s)) first s) p hp hplt hwf hsz hcle
    refine ⟨_, hu, ?_, hwf', fun hs => scratch_length hs seq hseq, Memory.wf_ofBytes _, hread.1, ⟨_, _, _, _, _, _, _, _, _, rfl⟩⟩
    exact {
      opened := hr.opened
      read := by show (wordFetched c s).brBitsRead.toNat ≤ s.brValidBits.toNat; omega
      valid := hr.valid
      out := by
        show (BitVec.ofNat 32 (out ++ bytes.take (outputRoom s)).length).toNat ≤ s.pExpectedBytes.toNat
        rw [hb.2]; exact hb.1
      epochStart := hnil'
      within := hsome'
      dst := ⟨_, rfl, hb.2.symm⟩ }
  rw [wordStep, decClassStep]
  simp only [classOf_wordFetched, wordFetched_decCode]
  cases hcls : classOf s c with
  | badlit => exact .inr ⟨_, rfl, .inl rfl⟩
  | oor => exact .inr ⟨_, rfl, .inr rfl⟩
  | lit =>
    obtain ⟨hnil, hlt⟩ := (classOf_lit s c).mp hcls
    obtain ⟨h9, hroot⟩ := hr.epochStart hnil
    have hb := output_bound [codeSymbol c] out s hlen hr.out
    have hlit : decLit (wordFetched c s) =
        { withOutput (out ++ [codeSymbol c].take (outputRoom s)) (wordFetched c s) with
          decFirstByte := codeSymbol c, decPrevCode := some c } := by
      rw [decLit, decWrite_holds _ out (wordFetched c s) hout hlen]; rfl
    refine .inl ⟨_, rfl, ?_, ?_, ?_, ?_, ?_, ?_⟩ <;> rw [hlit]
    · exact {
        opened := hr.opened
        read := by show (wordFetched c s).brBitsRead.toNat ≤ s.brValidBits.toNat; omega
        valid := hr.valid
        out := by
          show (BitVec.ofNat 32 (out ++ [codeSymbol c].take (outputRoom s)).length).toNat ≤ s.pExpectedBytes.toNat
          rw [hb.2]; exact hb.1
        epochStart := nofun
        within := fun p h => by
          simp only [Option.some.injEq] at h; subst h
          show c.toNat < s.dict.length ∧ DecSizes s.width s.dict.length
          rw [h9, hroot, rootTable_length]
          exact ⟨hlt, by simp [Width.bits], .inl rfl⟩
        dst := ⟨_, rfl, hb.2.symm⟩ }
    · exact hwf
    · exact id
    · exact Memory.wf_ofBytes _
    · exact hread.1
    · exact ⟨_, _, _, _, _, _, _, _, _, rfl⟩
  | kwk =>
    obtain ⟨hsome, hceq⟩ := (classOf_kwk s c).mp hcls
    obtain ⟨p, hp⟩ := Option.ne_none_iff_exists'.mp hsome
    obtain ⟨bytes, first, _, _, hbl, hk⟩ := decKwk_ok (s := wordFetched c s) hwf p hp (hr.within p hp).1
    obtain ⟨t, ht⟩ := hlate bytes (bytes ++ [first]) first p hp (by omega) hbl
    refine .inl ⟨t, ?_, ht.2⟩
    show decKwk (wordFetched c s) = _
    rw [hk]
    exact (congrArg decUpdate (decWrite_holds (bytes ++ [first]) out { wordFetched c s with
      scratch := bytes.reverse ++ s.scratch.drop bytes.length, decFirstByte := first } hout hlen)).trans ht.1
  | ref =>
    obtain ⟨hsome, hclt⟩ := (classOf_ref s c).mp hcls
    obtain ⟨p, hp⟩ := Option.ne_none_iff_exists'.mp hsome
    obtain ⟨bytes, first, _, _, hbl, hk⟩ := decRef_ok (s := wordFetched c s) hwf hclt
    obtain ⟨t, ht⟩ := hlate bytes bytes first p hp (by omega) hbl
    refine .inl ⟨t, ?_, ht.2⟩
    show decRef (wordFetched c s) = _
    rw [hk]
    exact (congrArg decUpdate (decWrite_holds bytes out { wordFetched c s with
      scratch := bytes.reverse ++ s.scratch.drop bytes.length, decFirstByte := first } hout hlen)).trans ht.1

end Sys2Proof.Machine
end

