-- ==== Sys2Proof/Laws/Frame.lean ====
section
/-! SUPPORT. What no operation of the codec touches: SRC, the parameter registers, ENC_DST_CAP, the host's further moves
(20_memory.md rules R56, R63, 10_state.md rule R35), and what becomes of STATUS. -/

namespace Sys2Proof.Machine

/-- `t` has the host's side of `s`. -/
structure HostSame (s t : State) : Prop where
  src : t.src = s.src
  pInputBytes : t.pInputBytes = s.pInputBytes
  pCompBytes : t.pCompBytes = s.pCompBytes
  pCompBits : t.pCompBits = s.pCompBits
  pExpectedBytes : t.pExpectedBytes = s.pExpectedBytes
  encDstCap : t.encDstCap = s.encDstCap
  inbox : t.inbox = s.inbox

theorem HostSame.refl (s : State) : HostSame s s := ⟨rfl, rfl, rfl, rfl, rfl, rfl, rfl⟩

theorem HostSame.trans {s t u : State} (h : HostSame s t) (g : HostSame t u) : HostSame s u :=
  ⟨g.src.trans h.src, g.pInputBytes.trans h.pInputBytes, g.pCompBytes.trans h.pCompBytes, g.pCompBits.trans h.pCompBits,
    g.pExpectedBytes.trans h.pExpectedBytes, g.encDstCap.trans h.encDstCap, g.inbox.trans h.inbox⟩

/-- An operation inside a command keeps the host's side; if it ends, STATUS, CAUSE and the command are as before; if it raises
a fault, STATUS is FAULT with a cause (R197). -/
def Flow.Keeps {α : Type} (s : State) : Flow α → Prop
  | .ret _ t => HostSame s t ∧ t.status = s.status ∧ t.cause = s.cause ∧ t.command = s.command
  | .raised t => HostSame s t ∧ t.status = .fault ∧ t.cause ≠ .none ∧ t.command = s.command
  | .stop _ => True

theorem Flow.Keeps.bind {α β : Type} {s : State} {f : Flow α} {g : α → State → Flow β} (h : f.Keeps s)
    (hg : ∀ a t, (g a t).Keeps t) : (f.bind g).Keeps s := by
  cases f with
  | stop r => exact trivial
  | raised t => exact h
  | ret a t =>
    have := hg a t
    show (g a t).Keeps s
    cases hr : g a t with
    | stop r => exact trivial
    | raised u => rw [hr] at this; exact ⟨h.1.trans this.1, this.2.1, this.2.2.1, this.2.2.2.trans h.2.2.2⟩
    | ret b u =>
      rw [hr] at this
      exact ⟨h.1.trans this.1, this.2.1.trans h.2.1, this.2.2.1.trans h.2.2.1, this.2.2.2.trans h.2.2.2⟩

theorem CodecFault.cause_ne_none (f : CodecFault) : f.cause ≠ .none := by cases f <;> simp [CodecFault.cause]

theorem raiseFault_keeps {α : Type} (f : CodecFault) (s : State) : (Flow.raised (α := α) (raiseFault f s)).Keeps s :=
  ⟨⟨rfl, rfl, rfl, rfl, rfl, rfl, rfl⟩, rfl, f.cause_ne_none, rfl⟩

theorem bwAppendBits_keeps (value width : Nat) (s : State) : (bwAppendBits value width s).Keeps s := by
  rcases bwAppendBits_frame value width s with ⟨d, n, h⟩ | ⟨f, d, n, h⟩ | h <;> rw [h]
  · exact ⟨⟨rfl, rfl, rfl, rfl, rfl, rfl, rfl⟩, rfl, rfl, rfl⟩
  · exact ⟨⟨rfl, rfl, rfl, rfl, rfl, rfl, rfl⟩, rfl, f.cause_ne_none, rfl⟩
  · exact trivial

theorem bwAppendBit_keeps (bit : Bool) (s : State) : (bwAppendBit bit s).Keeps s := by
  rcases bwAppendBit_frame bit s with ⟨d, n, h⟩ | ⟨f, h⟩ | h <;> rw [h]
  · exact ⟨⟨rfl, rfl, rfl, rfl, rfl, rfl, rfl⟩, rfl, rfl, rfl⟩
  · exact raiseFault_keeps f s
  · exact trivial

theorem bwRelease_keeps (s : State) : (bwRelease s).Keeps s := by
  unfold bwRelease
  split
  · exact trivial
  · exact ⟨⟨rfl, rfl, rfl, rfl, rfl, rfl, rfl⟩, rfl, rfl, rfl⟩

theorem brOpen_keeps (cap valid : Count32) (s : State) : (brOpen cap valid s).Keeps s := by
  rcases brOpen_cases cap valid s with ⟨_, h⟩ | ⟨_, h⟩ <;> rw [h]
  · exact raiseFault_keeps _ s
  · exact ⟨⟨rfl, rfl, rfl, rfl, rfl, rfl, rfl⟩, rfl, rfl, rfl⟩

theorem brReadBit_keeps (s : State) : (brReadBit s).Keeps s := by
  unfold brReadBit
  split
  · exact ⟨.refl s, rfl, rfl, rfl⟩
  · split
    · exact trivial
    · exact ⟨⟨rfl, rfl, rfl, rfl, rfl, rfl, rfl⟩, rfl, rfl, rfl⟩

theorem brReadBits_keeps (width : Nat) (s : State) : (brReadBits width s).Keeps s := by
  rw [brReadBits_eq]
  cases srcBits s.src s.brBitsRead.toNat (fetchLength width s) with
  | none => exact trivial
  | some bits => exact ⟨⟨rfl, rfl, rfl, rfl, rfl, rfl, rfl⟩, rfl, rfl, rfl⟩

theorem dictSeq_keeps (c : Code) (s : State) : (dictSeq c s).Keeps s := by
  rcases dictSeq_cases c s with ⟨bytes, first, _, _, h⟩ | ⟨r, h⟩ <;> rw [h]
  · exact ⟨⟨rfl, rfl, rfl, rfl, rfl, rfl, rfl⟩, rfl, rfl, rfl⟩
  · exact trivial

theorem encEmit_keeps (value : Symbol) (s : State) : (encEmit value s).Keeps s := by
  unfold encEmit
  split
  · exact trivial
  · rename_i code _
    refine (bwAppendBits_keeps _ _ s).bind fun _ t => ?_
    obtain ⟨d, w, h⟩ := encGrowAdd_frame code value t
    rw [h]; exact ⟨⟨rfl, rfl, rfl, rfl, rfl, rfl, rfl⟩, rfl, rfl, rfl⟩

theorem encSymbol_keeps (value : Symbol) (s : State) : (encSymbol value s).Keeps s := by
  unfold encSymbol
  split
  · exact ⟨⟨rfl, rfl, rfl, rfl, rfl, rfl, rfl⟩, rfl, rfl, rfl⟩
  · exact encEmit_keeps value s

theorem encByte_keeps (s : State) : (encByte s).Keeps s := by
  unfold encByte
  split
  · exact trivial
  · exact encSymbol_keeps _ s

theorem encFinish_keeps (s : State) : (encFinish s).Keeps s := by
  unfold encFinish
  split
  · exact ⟨.refl s, rfl, rfl, rfl⟩
  · exact bwAppendBits_keeps _ _ s

theorem decInit_keeps (s : State) : (decInit s).Keeps s := by
  rcases decInit_cases s with ⟨_, h⟩ | ⟨_, h⟩ <;> rw [h]
  · exact raiseFault_keeps _ s
  · exact ⟨⟨rfl, rfl, rfl, rfl, rfl, rfl, rfl⟩, rfl, rfl, rfl⟩

theorem decFetch_keeps (s : State) : (decFetch s).Keeps s := by
  rw [decFetch_eq]
  cases nextWordBits s with
  | none => exact trivial
  | some bits => exact ⟨⟨rfl, rfl, rfl, rfl, rfl, rfl, rfl⟩, rfl, rfl, rfl⟩

theorem decUpdate_keeps (s : State) : (decUpdate s).Keeps s := by
  rcases decUpdate_frame s with ⟨d, w, p, h⟩ | h <;> rw [h]
  · exact ⟨⟨rfl, rfl, rfl, rfl, rfl, rfl, rfl⟩, rfl, rfl, rfl⟩
  · exact trivial

theorem decWrite_keeps (bytes : List Symbol) (s : State) : (Flow.ret () (decWrite bytes s)).Keeps s := by
  obtain ⟨d, n, h⟩ := decWrite_frame bytes s
  rw [h]; exact ⟨⟨rfl, rfl, rfl, rfl, rfl, rfl, rfl⟩, rfl, rfl, rfl⟩

/-- KWK's and REF's lines after the walk keep the host's side. -/
theorem writeUpdate_keeps (bytes : List Symbol) (first : Symbol) (s : State) :
    (decUpdate (decWrite bytes { s with decFirstByte := first })).Keeps s := by
  obtain ⟨d, n, h⟩ := decWrite_frame bytes { s with decFirstByte := first }
  rw [h]
  rcases decUpdate_frame { s with decFirstByte := first, dst := d, decBytesWritten := n } with ⟨d', w, p, h'⟩ | h' <;> rw [h']
  · exact ⟨⟨rfl, rfl, rfl, rfl, rfl, rfl, rfl⟩, rfl, rfl, rfl⟩
  · exact trivial

theorem decKwk_keeps (s : State) : (decKwk s).Keeps s := by
  unfold decKwk
  split
  · exact trivial
  · exact (dictSeq_keeps _ s).bind fun _ t => writeUpdate_keeps _ _ t

theorem decRef_keeps (s : State) : (decRef s).Keeps s :=
  (dictSeq_keeps _ s).bind fun _ t => writeUpdate_keeps _ _ t

theorem decClassStep_keeps (position : Count32) (s : State) : (decClassStep position s).Keeps s := by
  unfold decClassStep
  split
  · exact raiseFault_keeps _ s
  · exact raiseFault_keeps _ s
  · obtain ⟨d, n, h⟩ := decLit_frame s
    rw [h]; exact ⟨⟨rfl, rfl, rfl, rfl, rfl, rfl, rfl⟩, rfl, rfl, rfl⟩
  · exact decKwk_keeps s
  · exact decRef_keeps s

theorem wordStep_keeps (c : Code) (s : State) : (wordStep c s).Keeps s :=
  Flow.Keeps.bind (f := .ret () (wordFetched c s)) (g := fun _ t => decClassStep s.brBitsRead t)
    ⟨⟨rfl, rfl, rfl, rfl, rfl, rfl, rfl⟩, rfl, rfl, rfl⟩ fun _ t => decClassStep_keeps _ t

theorem decStep_keeps (s : State) : (decStep s).Keeps s :=
  (decFetch_keeps s).bind fun _ t => decClassStep_keeps _ t

theorem encScan_keeps (n : Nat) (s : State) : (encScan n s).Keeps s := by
  induction n generalizing s with
  | zero => exact ⟨.refl s, rfl, rfl, rfl⟩
  | succ n ih =>
    rw [encScan]
    split
    · exact (encByte_keeps s).bind fun _ t => ih t
    · exact ⟨.refl s, rfl, rfl, rfl⟩

theorem decLoop_keeps (n : Nat) (s : State) : (decLoop n s).Keeps s := by
  induction n generalizing s with
  | zero => exact ⟨.refl s, rfl, rfl, rfl⟩
  | succ n ih =>
    rw [decLoop]
    split
    · exact (decStep_keeps s).bind fun _ t => ih t
    · exact ⟨.refl s, rfl, rfl, rfl⟩

/-- The end of a command, or a whole command: the host's side is kept, and it ends in DONE or in FAULT. -/
def Flow.Ends (s : State) (c : Command) : Flow Unit → Prop
  | .ret _ t => HostSame s t ∧ t.status = .done ∧ t.command = c
  | .raised t => HostSame s t ∧ t.status = .fault ∧ t.cause ≠ .none ∧ t.command = c
  | .stop _ => True

theorem Flow.Keeps.ends {α : Type} {s : State} {f : Flow α} {g : α → State → Flow Unit} (h : f.Keeps s)
    (hg : ∀ a t, t.command = s.command → (g a t).Ends t s.command) : (f.bind g).Ends s s.command := by
  cases f with
  | stop r => exact trivial
  | raised t => exact h
  | ret a t =>
    have := hg a t h.2.2.2
    show (g a t).Ends s s.command
    cases hr : g a t with
    | stop r => exact trivial
    | raised u => rw [hr] at this; exact ⟨h.1.trans this.1, this.2⟩
    | ret b u => rw [hr] at this; exact ⟨h.1.trans this.1, this.2⟩

theorem encEnd_ends (s : State) : (encEnd s).Ends s s.command := by
  refine Flow.Keeps.ends (s := s) (f := bwRelease { s with
      rCompBits := BitVec.ofNat 32 (bwBitCount s), rCompBytes := BitVec.ofNat 32 (bwByteCount s) })
    (g := fun _ t => .ret () { t with status := .done }) ?_ fun _ t hc => ⟨⟨rfl, rfl, rfl, rfl, rfl, rfl, rfl⟩, rfl, hc⟩
  exact Flow.Keeps.bind (f := .ret () { s with
      rCompBits := BitVec.ofNat 32 (bwBitCount s), rCompBytes := BitVec.ofNat 32 (bwByteCount s) })
    (g := fun _ t => bwRelease t) ⟨⟨rfl, rfl, rfl, rfl, rfl, rfl, rfl⟩, rfl, rfl, rfl⟩ fun _ t => bwRelease_keeps t

theorem runEncode_ends (s : State) : (runEncode s).Ends s s.command := by
  have h : ((encScan s.pInputBytes.toNat (encInit s)).bind fun _ t => encFinish t).Keeps s :=
    Flow.Keeps.bind (f := .ret () (encInit s))
      (g := fun _ t => (encScan s.pInputBytes.toNat t).bind fun _ t => encFinish t)
      ⟨⟨rfl, rfl, rfl, rfl, rfl, rfl, rfl⟩, rfl, rfl, rfl⟩
      fun _ t => (encScan_keeps _ t).bind fun _ u => encFinish_keeps u
  exact h.ends fun _ t hc => by have := encEnd_ends t; rw [hc] at this; exact this

theorem runDecode_ends (s : State) : (runDecode s).Ends s s.command :=
  ((decInit_keeps s).bind fun _ t => decLoop_keeps _ t).ends fun _ _ hc => ⟨⟨rfl, rfl, rfl, rfl, rfl, rfl, rfl⟩, rfl, hc⟩

theorem beginCommand_same (c : Command) (s : State) : HostSame s (beginCommand c s) := ⟨rfl, rfl, rfl, rfl, rfl, rfl, rfl⟩

/-- An outcome that keeps the host's side. -/
def OutcomeSame (s : State) : Host.Outcome State Fault Refusal → Prop
  | .next t => HostSame s t
  | .fault _ => True
  | .refused _ => True

theorem Flow.Keeps.done {s : State} {f : Flow Unit} (h : f.Keeps s) : OutcomeSame s f.done := by
  cases f with
  | stop r => exact trivial
  | raised t => exact h.1
  | ret a t => exact h.1

theorem Flow.Keeps.report {α : Type} {s : State} {f : Flow α} (h : f.Keeps s) (g : α → OpResult) :
    OutcomeSame s (f.report g) := by
  cases f with
  | stop r => exact trivial
  | raised t => exact h.1
  | ret a t => exact h.1.trans ⟨rfl, rfl, rfl, rfl, rfl, rfl, rfl⟩

theorem Flow.Ends.done {s : State} {c : Command} {f : Flow Unit} (h : f.Ends s c) : OutcomeSame s f.done := by
  cases f with
  | stop r => exact trivial
  | raised t => exact h.1
  | ret a t => exact h.1

end Sys2Proof.Machine
end

