-- ==== Sys2Proof/Laws/Step.lean ====
section
/-! SUPPORT. What one step does: the rows that the decoder of bits names have the meaning of the procedures' loop bodies. -/

namespace Sys2Proof.Machine

theorem outcome_bind_done (f : Flow Unit) (g : Unit → State → Flow Unit) :
    (f.bind g).done = match f with
      | .ret a s => (g a s).done
      | .raised s => .next s
      | .stop r => .fault r := by cases f <;> rfl

/-! ## Words and rows -/

theorem fetchedCode_toNat (bits : List Bool) (w : Width) (h : bits.length ≤ w.bits) :
    (fetchedCode (bitsValue bits)).toNat = bitsValue bits ∧ bitsValue bits < 2 ^ w.bits := by
  have hlt := bitsValue_lt bits
  have hle : 2 ^ bits.length ≤ 2 ^ w.bits := Nat.pow_le_pow_right (by omega) h
  have := (width_pow w).2
  simp only [fetchedCode, BitVec.toNat_ofNat]
  exact ⟨Nat.mod_eq_of_lt (by omega), by omega⟩

theorem rootCode_setWidth (c : Code) (h : c.toNat < 256) : rootCode (c.setWidth 8) = c := by
  apply BitVec.eq_of_toNat_eq
  rw [rootCode_toNat, BitVec.toNat_setWidth]; omega

theorem badlitCode_setWidth (c : Code) (h : 256 ≤ c.toNat) (h2 : c.toNat < 512) : badlitCode (c.setWidth 8) = c := by
  apply BitVec.eq_of_toNat_eq
  simp only [badlitCode, BitVec.toNat_ofNat, BitVec.toNat_setWidth]; omega

theorem classify_lit_lt {nil : Bool} {size : Nat} {c : Code} (h : classify nil size c = .lit) : c.toNat < 256 := by
  unfold classify at h
  split at h
  · split at h
    · cases h
    · omega
  · split at h
    · cases h
    · split at h <;> cases h

theorem classify_badlit_le {nil : Bool} {size : Nat} {c : Code} (h : classify nil size c = .badlit) : 256 ≤ c.toNat := by
  unfold classify at h
  split at h
  · split at h
    · assumption
    · cases h
  · split at h
    · cases h
    · split at h <;> cases h

/-- A row has the meaning of its width and class (R76). -/
theorem exec_rowFor (w : Width) (nil : Bool) (size : Nat) (c : Code) (i : Instr) (s : State) (hc : c.toNat < 2 ^ w.bits)
    (h : rowFor w (classify nil size c) c = some i) : exec i s = codeWord w (classify nil size c) c s := by
  cases hcls : classify nil size c with
  | lit =>
    rw [hcls] at h
    have := rootCode_setWidth c (classify_lit_lt hcls)
    cases w <;> simp only [rowFor, Option.some.injEq, reduceCtorEq] at h
    subst h; simp only [exec, execCw9Lit, this]
  | badlit =>
    rw [hcls] at h
    cases w <;> simp only [rowFor, Option.some.injEq, reduceCtorEq] at h
    have := badlitCode_setWidth c (classify_badlit_le hcls) hc
    subst h; simp only [exec, execCw9Badlit, this]
  | ref => rw [hcls] at h; cases w <;> simp only [rowFor, Option.some.injEq] at h <;> subst h <;> rfl
  | kwk => rw [hcls] at h; cases w <;> simp only [rowFor, Option.some.injEq] at h <;> subst h <;> rfl
  | oor => rw [hcls] at h; cases w <;> simp only [rowFor, Option.some.injEq] at h <;> subst h <;> rfl

/-- A row in a state of its width and class is the decoder step on its word (R76, R156). -/
theorem codeWord_selected (c : Code) (s : State) : codeWord s.width (classOf s c) c s = (wordStep c s).done := by
  simp [codeWord]

/-- The decoder step of the sequencer is one pass of R156's loop body. -/
theorem stepDecode_continue (s : State) (h : decContinue s = true) : stepDecode s = (decStep s).done := by
  unfold stepDecode
  rw [if_pos h, decStep_eq, nextDecoderInstr]
  cases hb : nextWordBits s with
  | none => rfl
  | some bits =>
    have hlen := srcBits_length _ _ _ _ hb
    have hpos := fetchLength_pos s h
    have hle : bits.length ≤ s.width.bits := by rw [hlen]; simp [fetchLength]
    have hne : bits.isEmpty = false := by
      cases bits with
      | nil => simp at hlen; omega
      | cons b rest => rfl
    obtain ⟨hc, hlt⟩ := fetchedCode_toNat bits s.width hle
    simp only [wordCtx, decode, hne, Bool.false_eq_true, if_false, List.take_of_length_le hle]
    rw [show BitVec.ofNat 12 (bitsValue bits) = fetchedCode (bitsValue bits) from rfl]
    cases hrow : rowFor s.width (classify s.decPrevCode.isNone s.dictSize (fetchedCode (bitsValue bits)))
        (fetchedCode (bitsValue bits)) with
    | none => simp only [Except.map]
    | some i =>
      simp only [Except.map]
      rw [exec_rowFor _ _ _ _ i s (by omega) hrow]
      exact codeWord_selected _ s

/-- The encoder step of the sequencer, while input is left, is one pass of R136's loop body. -/
theorem stepEncode_continue (s : State) (h : encContinue s = true) : stepEncode s = (encByte s).done := by
  unfold stepEncode
  rw [if_pos h, encByte, nextEncoderInstr]
  cases hv : inputByte s with
  | none => rfl
  | some v =>
    have hbits : streamBits [v] = byteBits v := by simp
    have hlen : ¬(byteBits v).length < Config.symbolBits := by simp [Config.symbolBits]
    have hval : (BitVec.ofNat 8 (bitsValue ((byteBits v).take Config.symbolBits)) : Symbol) = v := by
      rw [List.take_of_length_le (by simp [Config.symbolBits]), bitsValue_streamBits_byte]; simp
    simp only [symbolCtx, decodeBytes, decode, hbits, hlen, if_false, hval, Except.map]
    unfold encSymbol
    cases hf : dictFind s.encCode v s with
    | none => simp only [Option.isSome_none, Bool.false_eq_true, if_false, exec, execEncEmit, h, if_true, hf]
    | some idx => simp only [Option.isSome_some, if_true, exec, execEncExtend, h, hf]; rfl

/-- After the last input byte: FINISH, and the normal end unless it faulted (R134, R135). -/
theorem stepEncode_finish (s : State) (h : encContinue s = false) :
    stepEncode s = match encFinish s with
      | .ret _ t => if t.status = .busy then (encEnd t).done else .next t
      | .raised t => if t.status = .busy then (encEnd t).done else .next t
      | .stop r => .fault r := by
  unfold stepEncode
  simp only [h, Bool.false_eq_true, if_false, exec, execEncFinish]
  cases encFinish s <;> rfl

theorem stepDecode_end (s : State) (h : decContinue s = false) : stepDecode s = .next (decEnd s) := by
  unfold stepDecode; simp [h]

/-! ## Steps that are not a command's -/

/-- Where the host makes no move, or takes the move to wait off its list, a step is the codec's own. -/
theorem step_noMove {s u : State} (h : s.inbox = [] ∧ u = s ∨ ∃ rest, s.inbox = .wait :: rest ∧ u = { s with inbox := rest }) :
    step s = codecStep u := by
  unfold step machineStep
  rcases h with ⟨hi, rfl⟩ | ⟨rest, hi, rfl⟩ <;> rw [hi]

/-- Any other waiting move of the host is what a step makes. -/
theorem step_move {s : State} {m : HostMove} {rest : List HostMove} (hi : s.inbox = m :: rest) (hm : m ≠ .wait) :
    step s = hostMove m { s with inbox := rest } := by
  unfold step machineStep
  rw [hi]
  cases m <;> first | rfl | exact absurd rfl hm

/-- Without a host move a step is the codec's own. -/
theorem step_codec (s : State) (hi : s.inbox = []) : step s = codecStep s := step_noMove (.inl ⟨hi, rfl⟩)

/-- A codec that runs no command does nothing (R205, R210). -/
theorem codecStep_idle (s : State) (hs : s.status ≠ .busy) : codecStep s = .next s := by
  unfold codecStep
  split
  · rfl
  · rfl
  · rfl
  · exact absurd ‹_› hs

theorem codecStep_busy (s : State) (hs : s.status = .busy) :
    codecStep s = match s.command with
      | .encode => stepEncode s
      | .decode => stepDecode s := by
  unfold codecStep
  split <;> first | rfl | (rename_i h; rw [hs] at h; cases h)

/-- Without a host move a codec that runs no command does nothing (R205, R210). -/
theorem step_idle (s : State) (hi : s.inbox = []) (hs : s.status ≠ .busy) : step s = .next s := by
  rw [step_codec s hi, codecStep_idle s hs]

theorem step_busy (s : State) (hi : s.inbox = []) (hs : s.status = .busy) :
    step s = match s.command with
      | .encode => stepEncode s
      | .decode => stepDecode s := by
  rw [step_codec s hi, codecStep_busy s hs]

/-- A move on a buffer or a parameter register is made only while no command runs (log 12). -/
theorem whenNotBusy_next {t s u : State} (h : whenNotBusy t s = .next u) : s.status ≠ .busy ∧ u = t := by
  unfold whenNotBusy at h
  split at h
  · cases h
  · cases h; exact ⟨‹_›, rfl⟩

/-! ## Runs -/

theorem run_zero (s : State) : core.run 0 s = .next s := Host.Core.run.eq_1 core s

theorem run_next {s t : State} (h : step s = .next t) (n : Nat) : core.run (n + 1) s = core.run n t := by
  have := Host.Core.run.eq_2 core s n
  rw [show core.step s = .next t from h] at this; exact this

theorem run_fault {s : State} {r : Fault} (h : step s = .fault r) (n : Nat) : core.run (n + 1) s = .fault r := by
  have := Host.Core.run.eq_2 core s n
  rw [show core.step s = .fault r from h] at this; exact this

/-- A codec that runs no command, with a host that makes no move, stays as it is. -/
theorem run_idle (s : State) (hi : s.inbox = []) (hs : s.status ≠ .busy) (n : Nat) : core.run n s = .next s := by
  induction n with
  | zero => exact run_zero s
  | succ n ih => rw [run_next (step_idle s hi hs), ih]

end Sys2Proof.Machine
end

