-- ==== Sys2Proof/Laws/Invariant.lean ====
section
/-! SUPPORT. The pieces of a command against the invariant of 10_state.md rule R41: what each does from a well-formed running
state, in both of R5's forms. -/

namespace Sys2Proof.Machine

/-- A command of that kind is running, in a well-formed state. Nothing is asked of SRC or of the scratch buffer. -/
structure Running (c : Command) (s : State) : Prop where
  dict : DictWf s.dict
  busy : s.status = .busy
  cause : s.cause = .none
  command : s.command = c
  encoder : c = .encode → EncRunning s
  decoder : c = .decode → DecRunning s

/-- The scratch buffer keeps its size (R32). -/
def ScratchKept (s t : State) : Prop := s.scratch.length = 4096 → t.scratch.length = 4096

/-- A fault of the codec, taken in a well-formed running state. -/
structure Faulted (s t : State) : Prop where
  dict : DictWf t.dict
  dst : t.dst.wf = true
  status : t.status = .fault
  cause : t.cause ≠ .none
  same : HostSame s t
  scratch : ScratchKept s t

theorem Running.dst {c : Command} {s : State} (h : Running c s) : s.dst.wf = true := by
  cases c with
  | encode => obtain ⟨bits, hw, _⟩ := (h.encoder rfl).writer; rw [hw]; exact Memory.wf_ofBytes _
  | decode => obtain ⟨bytes, hb, _⟩ := (h.decoder rfl).dst; rw [hb]; exact Memory.wf_ofBytes _

/-- A well-formed running state meets the invariant. -/
theorem Running.inv {c : Command} {s : State} (h : Running c s) (hs : s.scratch.length = 4096) (hsrc : s.src.wf = true) :
    Inv s where
  dict := h.dict
  scratch := hs
  src := hsrc
  dst := h.dst
  cause := by rw [h.busy, h.cause]; simp
  encoding := fun _ hc => h.encoder (h.command.symm.trans hc)
  decoding := fun _ hc => h.decoder (h.command.symm.trans hc)
  done := fun hd => by rw [h.busy] at hd; cases hd

theorem Faulted.inv {s t : State} (h : Faulted s t) (hs : s.scratch.length = 4096) (hsrc : s.src.wf = true) : Inv t where
  dict := h.dict
  scratch := h.scratch hs
  src := by rw [h.same.src]; exact hsrc
  dst := h.dst
  cause := ⟨fun _ => h.cause, fun _ => h.status⟩
  encoding := fun hb => by rw [h.status] at hb; cases hb
  decoding := fun hb => by rw [h.status] at hb; cases hb
  done := fun hb => by rw [h.status] at hb; cases hb

/-- A state that meets the invariant and is BUSY is a well-formed running state. -/
theorem Inv.running {s : State} (h : Inv s) (hb : s.status = .busy) : Running s.command s where
  dict := h.dict
  busy := hb
  cause := by
    by_contra hx
    have := h.cause.mpr hx
    rw [hb] at this; cases this
  command := rfl
  encoder := h.encoding hb
  decoder := h.decoding hb

/-- An operation inside a running command: it ends in a state like that again, or in a fault. -/
def Flow.Safe {α : Type} (c : Command) (s : State) (f : Flow α) : Prop :=
  match f with
  | .ret _ t => Running c t ∧ HostSame s t ∧ ScratchKept s t
  | .raised t => Faulted s t
  | .stop _ => True

theorem Faulted.trans {s t u : State} (h1 : HostSame s t) (h2 : ScratchKept s t) (h : Faulted t u) : Faulted s u :=
  ⟨h.dict, h.dst, h.status, h.cause, h1.trans h.same, fun hs => h.scratch (h2 hs)⟩

theorem Flow.Safe.after {α : Type} {c : Command} {s t : State} {f : Flow α} (h1 : HostSame s t) (h2 : ScratchKept s t)
    (h : f.Safe c t) : f.Safe c s := by
  cases f with
  | stop r => exact trivial
  | raised u => exact Faulted.trans h1 h2 h
  | ret a u => exact ⟨h.1, h1.trans h.2.1, fun hs => h.2.2 (h2 hs)⟩

/-! ## LZW.ENCODE -/

theorem encStart_running (s : State) : Running .encode (encInit (beginCommand .encode s)) where
  dict := dictWf_rootTable
  busy := rfl
  cause := rfl
  command := rfl
  encoder := fun _ => encInit_running _ rfl
  decoder := nofun

/-- One input byte (R136's loop body). -/
theorem encByte_safe {s : State} (h : Running .encode s) (hc : encContinue s = true) : (encByte s).Safe .encode s := by
  unfold encByte
  cases inputByte s with
  | none => exact trivial
  | some v =>
    have hk := encSymbol_keeps v s
    rcases encSymbol_running (h.encoder rfl) h.dict hc v with ⟨t, ht, hrun, hwf, hdst, d, w, c, p, m, n, he⟩ | ⟨f, bits, ht, _⟩
    · simp only [ht] at hk ⊢
      exact ⟨⟨hwf, hk.2.1.trans h.busy, hk.2.2.1.trans h.cause, hk.2.2.2.trans h.command, fun _ => hrun, nofun⟩, hk.1,
        fun hs => by rw [he]; exact hs⟩
    · simp only [ht] at hk ⊢
      exact ⟨h.dict, Memory.wf_ofBytes _, rfl, f.cause_ne_none, hk.1, id⟩

theorem encByte_supplied {s : State} (h : Running .encode s) (hs : SrcSupplied s.pInputBytes.toNat s)
    (hc : encContinue s = true) (r : Fault) : encByte s ≠ .stop r := by
  have hlt : s.encInPos.toNat < s.pInputBytes.toNat := by simpa [encContinue] using hc
  obtain ⟨v, hv⟩ := Option.isSome_iff_exists.mp (hs _ hlt)
  unfold encByte inputByte
  rw [hv]
  rcases encSymbol_running (h.encoder rfl) h.dict hc v with ⟨t, ht, _⟩ | ⟨f, bits, ht, _⟩ <;> simp [ht]

/-- An input byte's only faults are the writer's (R133, R171). -/
theorem encByte_cause {s t : State} (h : Running .encode s) (hc : encContinue s = true) (ht : encByte s = .raised t) :
    t.cause = .outputOverflow ∨ t.cause = .bitCountOverflow := by
  unfold encByte at ht
  split at ht
  · cases ht
  · rename_i v _
    rcases encSymbol_running (h.encoder rfl) h.dict hc v with ⟨u, hu, _⟩ | ⟨f, bits, hu, hf⟩
    · rw [hu] at ht; cases ht
    · rw [hu] at ht
      obtain rfl := Flow.raised.inj ht
      rcases hf with rfl | rfl
      · exact .inl rfl
      · exact .inr rfl

/-- Each pass of R136's loop moves ENC.inPos on by one. -/
theorem encByte_pos {s t : State} (hc : encContinue s = true) (h : encByte s = .ret () t) :
    t.encInPos.toNat = s.encInPos.toNat + 1 := by
  have hp := (nextInput_pos s hc).1
  rw [nextInput_encInPos] at hp
  unfold encByte at h
  split at h
  · cases h
  · rename_i v hv
    unfold encSymbol at h
    split at h
    · cases h; exact hp
    · unfold encEmit at h
      split at h
      · cases h
      · rename_i code hcode
        rcases bwAppendBits_frame code.toNat s.width.bits s with ⟨d, n, hb⟩ | ⟨f, d, n, hb⟩ | hb <;> rw [hb] at h
        · simp only [Flow.bind] at h
          obtain ⟨d', w, hg⟩ := encGrowAdd_frame code v { s with dst := d, bwBitsWritten := n }
          rw [hg] at h; cases h; exact hp
        · cases h
        · cases h

theorem encContinue_false (s : State) (h : s.pInputBytes.toNat ≤ s.encInPos.toNat) : encContinue s = false := by
  simpa [encContinue] using h

/-- The scan (R136): with at least as many passes allowed as bytes are left, it ends with every byte consumed, or in a fault of
the writer. -/
theorem encScan_safe (n : Nat) {s : State} (h : Running .encode s) (hn : s.pInputBytes.toNat ≤ s.encInPos.toNat + n) :
    (encScan n s).Safe .encode s ∧
      (∀ t, encScan n s = .ret () t → encContinue t = false) ∧
      (∀ t, encScan n s = .raised t → t.cause = .outputOverflow ∨ t.cause = .bitCountOverflow) ∧
      (SrcSupplied s.pInputBytes.toNat s → ∀ r, encScan n s ≠ .stop r) := by
  induction n generalizing s with
  | zero =>
    refine ⟨⟨h, .refl s, id⟩, fun t ht => ?_, fun t ht => by simp [encScan] at ht, fun _ r => by simp [encScan]⟩
    obtain ⟨_, rfl⟩ := Flow.ret.inj ht
    exact encContinue_false s hn
  | succ n ih =>
    rw [encScan]
    cases hc : encContinue s with
    | false =>
      rw [if_neg (by simp)]
      refine ⟨⟨h, .refl s, id⟩, fun t ht => ?_, fun t ht => by simp at ht, fun _ r => by simp⟩
      obtain ⟨_, rfl⟩ := Flow.ret.inj ht
      exact hc
    | true =>
      rw [if_pos rfl]
      have hsafe := encByte_safe h hc
      cases hb : encByte s with
      | stop r =>
        exact ⟨trivial, fun _ hx => by simp [Flow.bind] at hx, fun _ hx => by simp [Flow.bind] at hx,
          fun hs _ => (encByte_supplied h hs hc r hb).elim⟩
      | raised t =>
        rw [hb] at hsafe
        refine ⟨hsafe, fun _ hx => by simp [Flow.bind] at hx, fun u hu => ?_, fun _ _ => by simp [Flow.bind]⟩
        obtain rfl := Flow.raised.inj hu
        exact encByte_cause h hc hb
      | ret a t =>
        rw [hb] at hsafe
        obtain ⟨hrun, hsame, hscr⟩ := hsafe
        have hpos := encByte_pos hc hb
        have hp := hsame.pInputBytes
        obtain ⟨i1, i2, i3, i4⟩ := ih hrun (by rw [hp]; omega)
        refine ⟨Flow.Safe.after hsame hscr i1, i2, i3, fun hs => i4 fun a ha => ?_⟩
        rw [hp] at ha
        rw [hsame.src]; exact hs a ha

/-- The state in which an encode with these bits in its writer ends (R135, R171). -/
def encodeDone (written : List Bool) (t : State) : State :=
  { t with
    rCompBits := BitVec.ofNat 32 written.length
    rCompBytes := BitVec.ofNat 32 (packBits written).length
    bwBitsWritten := 0
    status := .done }

/-- The normal end of an encode (R135), from a writer that holds `written`. -/
theorem encEnd_holds {t : State} {written : List Bool} (h : WriterHolds written t) :
    encEnd t = .ret () (encodeDone written t) := by
  have hbc : bwByteCount t = (packBits written).length := by rw [bwByteCount, h.2, packBits_length]
  have hbb : bwBitCount t = written.length := h.2
  rw [encEnd, hbc, hbb, bwRelease_holds written { t with
    rCompBits := BitVec.ofNat 32 written.length, rCompBytes := BitVec.ofNat 32 (packBits written).length } h]
  rfl

/-- The result registers at the end of an encode, and what the host reads (R135, R175). -/
theorem encodeDone_hostBytes {t : State} {written : List Bool} (h : WriterHolds written t) (hc : t.command = .encode) :
    (encodeDone written t).rCompBits.toNat = written.length ∧
      (encodeDone written t).rCompBytes.toNat = (packBits written).length ∧
      hostBytes (encodeDone written t) = some (packBits written) := by
  have hlt : written.length < 2 ^ 32 := by have := h.2; have := t.bwBitsWritten.isLt; omega
  have h1 : (BitVec.ofNat 32 written.length).toNat = written.length := toNat_ofNat32 _ hlt
  have h2 : (BitVec.ofNat 32 (packBits written).length).toNat = (packBits written).length :=
    toNat_ofNat32 _ (by rw [packBits_length]; omega)
  refine ⟨h1, h2, ?_⟩
  have hr : resultLength (encodeDone written t) = (packBits written).length := by
    simp only [resultLength, show (encodeDone written t).command = .encode from hc]; exact h2
  rw [hostBytes, if_pos (show (encodeDone written t).status = .done from rfl), hr, show (encodeDone written t).dst = Memory.ofBytes (packBits written) from h.1]
  exact Memory.readRange_ofBytes _

/-- FINISH from a running encode (R134): the writer with the last code in it, or a fault of the writer. -/
theorem encFinish_safe {s : State} (h : Running .encode s) :
    (∃ written, encFinish s = .ret () (withBits written s) ∧ WriterHolds written (withBits written s) ∧
      written.length = s.bwBitsWritten.toNat + (if s.encCode = none then 0 else s.width.bits)) ∨
    (∃ t, encFinish s = .raised t ∧ Faulted s t ∧ (t.cause = .outputOverflow ∨ t.cause = .bitCountOverflow)) := by
  obtain ⟨bits, hw⟩ := (h.encoder rfl).writer
  cases hcode : s.encCode with
  | none =>
    have hf : encFinish s = .ret () s := by rw [encFinish, hcode]
    refine .inl ⟨bits, ?_, ?_, ?_⟩
    · rw [hf, withBits_self bits s hw]
    · rw [withBits_self bits s hw]; exact hw
    · rw [if_pos rfl, hw.2]; rfl
  | some code =>
    have hf : encFinish s = bwAppendBits code.toNat s.width.bits s := by rw [encFinish, hcode]
    rcases bwAppendBits_total code.toNat s.width.bits bits s hw with ⟨_, he, hwt⟩ | ⟨_, _, b, cause, _, hbf, he, hwt⟩
    · exact .inl ⟨_, hf.trans he, hwt, by rw [if_neg (by simp), List.length_append, valueBits_length, hw.2]⟩
    · have hcause : cause = .outputOverflow ∨ cause = .bitCountOverflow := by
        rcases hbf.1 with ⟨_, hc⟩ | ⟨_, _, hc⟩
        · exact .inl hc
        · exact .inr hc
      refine .inr ⟨_, hf.trans he, ⟨h.dict, Memory.wf_ofBytes _, rfl, ?_, ⟨rfl, rfl, rfl, rfl, rfl, rfl, rfl⟩, id⟩, hcause⟩
      rcases hcause with rfl | rfl <;> simp

/-- The end state of an encode meets the invariant. -/
theorem encodeDone_inv {s : State} {written : List Bool} (h : Running .encode s) (hw : WriterHolds written (withBits written s))
    (hs : s.scratch.length = 4096) (hsrc : s.src.wf = true) : Inv (encodeDone written (withBits written s)) where
  dict := h.dict
  scratch := hs
  src := hsrc
  dst := Memory.wf_ofBytes _
  cause := ⟨nofun, fun hx => absurd h.cause hx⟩
  encoding := nofun
  decoding := nofun
  done := fun _ => ⟨packBits written, rfl, by
    have := encodeDone_hostBytes hw h.command
    simp only [resultLength, show (encodeDone written (withBits written s)).command = .encode from h.command, this.2.1]⟩

/-- Everything LZW.ENCODE can come to, given while not BUSY (R171). -/
theorem runEncode_cases (s : State) :
    (∃ u written, runEncode (beginCommand .encode s) = .ret () (encodeDone written (withBits written u)) ∧
      Running .encode u ∧ HostSame s u ∧ ScratchKept s u ∧ WriterHolds written (withBits written u) ∧
      encContinue u = false ∧ written.length = u.bwBitsWritten.toNat + (if u.encCode = none then 0 else u.width.bits)) ∨
    (∃ t, runEncode (beginCommand .encode s) = .raised t ∧ Faulted s t ∧
      (t.cause = .outputOverflow ∨ t.cause = .bitCountOverflow)) ∨
    (∃ r, runEncode (beginCommand .encode s) = .stop r ∧ ¬SrcSupplied s.pInputBytes.toNat s) := by
  have h0 := encStart_running s
  have hsame : HostSame s (encInit (beginCommand .encode s)) := ⟨rfl, rfl, rfl, rfl, rfl, rfl, rfl⟩
  obtain ⟨h1, h2, h3, h4⟩ := encScan_safe s.pInputBytes.toNat h0 (by simp)
  unfold runEncode
  rw [show (beginCommand .encode s).pInputBytes = s.pInputBytes from rfl]
  cases hs : encScan s.pInputBytes.toNat (encInit (beginCommand .encode s)) with
  | stop r => exact .inr (.inr ⟨r, rfl, fun hx => h4 hx r hs⟩)
  | raised t => rw [hs] at h1; exact .inr (.inl ⟨t, rfl, Faulted.trans hsame id h1, h3 t hs⟩)
  | ret a t =>
    rw [hs] at h1
    obtain ⟨hrun, hst, hscr⟩ := h1
    have hc := h2 t hs
    simp only [Flow.bind]
    rcases encFinish_safe hrun with ⟨written, hf, hw, hl⟩ | ⟨u, hf, hfault, hcause⟩
    · rw [hf]; simp only; rw [encEnd_holds hw]
      exact .inl ⟨t, written, rfl, hrun, hsame.trans hst, hscr, hw, hc, hl⟩
    · rw [hf]; exact .inr (.inl ⟨u, rfl, Faulted.trans (hsame.trans hst) hscr hfault, hcause⟩)

/-! ### Without faults: 12 bits for each input byte fit (R65, R139) -/

theorem bitsFit_le {n k m : Nat} {s t : State} (h : BitsFit 0 m s) (ht : t.encDstCap = s.encDstCap) (hle : n + k ≤ m) :
    BitsFit n k t :=
  ⟨by have := h.1; omega, fun cap hc => by rw [ht] at hc; have := h.2 cap hc; omega⟩

theorem encByte_fits {s : State} (h : Running .encode s) (hc : encContinue s = true)
    (hfit : BitsFit 0 (12 * s.pInputBytes.toNat) s) (t : State) : encByte s ≠ .raised t := by
  intro ht
  have hr := h.encoder rfl
  have hpos : s.encInPos.toNat < s.pInputBytes.toNat := by simpa [encContinue] using hc
  obtain ⟨bits, hw⟩ := hr.writer
  unfold encByte at ht
  split at ht
  · cases ht
  · rename_i v _
    unfold encSymbol at ht
    split at ht
    · cases ht
    · unfold encEmit at ht
      split at ht
      · cases ht
      · rename_i code hcode
        have hz : s.encInPos.toNat ≠ 0 := fun h0 => by
          have := hr.nil.mpr (BitVec.eq_of_toNat_eq h0)
          rw [hcode] at this; cases this
        have hwb := width_bits_pos s.width
        have hb := hr.bits
        rw [hw.2] at hb
        rcases bwAppendBits_total code.toNat s.width.bits bits s hw with ⟨_, he, _⟩ | ⟨_, hno, _⟩
        · rw [he] at ht; simp [Flow.bind] at ht
        · exact hno (bitsFit_le hfit rfl (by omega))

theorem encScan_fits (n : Nat) {s : State} (h : Running .encode s) (hfit : BitsFit 0 (12 * s.pInputBytes.toNat) s) (t : State) :
    encScan n s ≠ .raised t := by
  induction n generalizing s with
  | zero => simp [encScan]
  | succ n ih =>
    rw [encScan]
    split
    · rename_i hc
      have hsafe := encByte_safe h hc
      cases hb : encByte s with
      | stop r => simp [Flow.bind]
      | raised u => exact absurd hb (encByte_fits h hc hfit u)
      | ret a u =>
        rw [hb] at hsafe
        refine ih hsafe.1 ?_
        rw [hsafe.2.1.pInputBytes]
        exact bitsFit_le hfit hsafe.2.1.encDstCap (by omega)
    · simp

theorem encFinish_fits_running {s : State} (h : Running .encode s) (hc : encContinue s = false)
    (hfit : BitsFit 0 (12 * s.pInputBytes.toNat) s) (t : State) : encFinish s ≠ .raised t := by
  intro ht
  have hr := h.encoder rfl
  have hpos : s.pInputBytes.toNat ≤ s.encInPos.toNat := by simpa [encContinue] using hc
  have hle := hr.pos
  obtain ⟨bits, hw⟩ := hr.writer
  unfold encFinish at ht
  split at ht
  · cases ht
  · rename_i code hcode
    have hz : s.encInPos.toNat ≠ 0 := fun h0 => by
      have := hr.nil.mpr (BitVec.eq_of_toNat_eq h0)
      rw [hcode] at this; cases this
    have hwb := width_bits_pos s.width
    have hb := hr.bits
    rw [hw.2] at hb
    rcases bwAppendBits_total code.toNat s.width.bits bits s hw with ⟨_, he, _⟩ | ⟨_, hno, _⟩
    · rw [he] at ht; cases ht
    · exact hno (bitsFit_le hfit rfl (by omega))

/-! ## LZW.DECODE -/

theorem decStart_running (s : State) (hp : s.pCompBits.toNat ≤ 8 * s.pCompBytes.toNat) :
    Running .decode (decFresh (beginCommand .decode s)) where
  dict := dictWf_rootTable
  busy := rfl
  cause := rfl
  command := rfl
  encoder := nofun
  decoder := fun _ => decFresh_running _ rfl hp

/-- One code word (R156's loop body): it moves on by at least a bit, or faults at a word inside the valid bits. -/
theorem decStep_safe {s : State} (h : Running .decode s) (hc : decContinue s = true) :
    (decStep s).Safe .decode s ∧
      (∀ t, decStep s = .ret () t → t.brValidBits = s.brValidBits ∧ s.brBitsRead.toNat < t.brBitsRead.toNat) ∧
      (∀ t, decStep s = .raised t →
        (t.cause = .badLiteral ∨ t.cause = .codeOutOfRange) ∧ t.faultPos = s.brBitsRead) ∧
      (SrcSupplied ((s.brValidBits.toNat + 7) / 8) s → ∀ r, decStep s ≠ .stop r) := by
  have hr := h.decoder rfl
  have hpos := fetchLength_pos s hc
  rw [decStep_eq]
  cases hb : nextWordBits s with
  | none =>
    refine ⟨trivial, fun _ hx => by simp at hx, fun _ hx => by simp at hx, fun hs r _ => ?_⟩
    obtain ⟨bits, hbits⟩ := srcBits_supplied s hs s.brBitsRead.toNat (fetchLength s.width.bits s)
      (readAhead_bound s.width.bits s hr.read).2
    rw [nextWordBits, hbits] at hb; cases hb
  | some bits =>
    simp only
    generalize fetchedCode (bitsValue bits) = c
    have hk := wordStep_keeps c s
    rcases wordStep_running hr h.dict c with ⟨t, ht, hrun, hwf, hsc, hdst, hread, hframe⟩ | ⟨f, ht, hf⟩
    · rw [ht] at hk ⊢
      refine ⟨⟨⟨hwf, hk.2.1.trans h.busy, hk.2.2.1.trans h.cause, hk.2.2.2.trans h.command, nofun, fun _ => hrun⟩, hk.1, hsc⟩,
        fun u hu => ?_, fun _ hx => by simp at hx, fun _ _ => by simp⟩
      obtain ⟨_, rfl⟩ := Flow.ret.inj hu
      refine ⟨?_, by omega⟩
      obtain ⟨d, w, p, fb, n, c', r, sc, m, he⟩ := hframe
      rw [he]
    · rw [ht] at hk ⊢
      have hfault : Faulted s (raiseFault f (wordFetched c s)) :=
        ⟨h.dict, h.dst, rfl, f.cause_ne_none, ⟨rfl, rfl, rfl, rfl, rfl, rfl, rfl⟩, id⟩
      refine ⟨hfault, fun _ hx => by simp at hx, fun u hu => ?_, fun _ _ => by simp⟩
      obtain rfl := Flow.raised.inj hu
      rcases hf with rfl | rfl
      · exact ⟨.inl rfl, rfl⟩
      · exact ⟨.inr rfl, rfl⟩

theorem decContinue_false (s : State) (h : s.brValidBits.toNat ≤ s.brBitsRead.toNat) : decContinue s = false := by
  have : endOfStream s = true := by simpa [endOfStream] using h
  simp [decContinue, this]

theorem decContinue_bits (s : State) (h : decContinue s = true) : s.brBitsRead.toNat < s.brValidBits.toNat := by
  simp only [decContinue, endOfStream, Bool.and_eq_true, Bool.not_eq_true', decide_eq_false_iff_not] at h
  omega

/-- The loop of R156: with at least as many steps allowed as valid bits are left, it ends where R147's condition is false, or in
a fault at a word inside the valid bits. -/
theorem decLoop_safe (n : Nat) {s : State} (h : Running .decode s) (hn : s.brValidBits.toNat ≤ s.brBitsRead.toNat + n) :
    (decLoop n s).Safe .decode s ∧
      (∀ t, decLoop n s = .ret () t → decContinue t = false) ∧
      (∀ t, decLoop n s = .raised t →
        (t.cause = .badLiteral ∨ t.cause = .codeOutOfRange) ∧ t.faultPos.toNat < s.brValidBits.toNat) ∧
      (SrcSupplied ((s.brValidBits.toNat + 7) / 8) s → ∀ r, decLoop n s ≠ .stop r) := by
  induction n generalizing s with
  | zero =>
    refine ⟨⟨h, .refl s, id⟩, fun t ht => ?_, fun _ hx => by simp [decLoop] at hx, fun _ r => by simp [decLoop]⟩
    obtain ⟨_, rfl⟩ := Flow.ret.inj ht
    exact decContinue_false s hn
  | succ n ih =>
    rw [decLoop]
    cases hc : decContinue s with
    | false =>
      rw [if_neg (by simp)]
      refine ⟨⟨h, .refl s, id⟩, fun t ht => ?_, fun _ ht => by simp at ht, fun _ r => by simp⟩
      obtain ⟨_, rfl⟩ := Flow.ret.inj ht
      exact hc
    | true =>
      rw [if_pos rfl]
      obtain ⟨hsafe, hret, hraise, hsup⟩ := decStep_safe h hc
      cases hb : decStep s with
      | stop r =>
        exact ⟨trivial, fun _ hx => by simp [Flow.bind] at hx, fun _ hx => by simp [Flow.bind] at hx,
          fun hs _ => (hsup hs r hb).elim⟩
      | raised t =>
        rw [hb] at hsafe
        refine ⟨hsafe, fun _ hx => by simp [Flow.bind] at hx, fun u hu => ?_, fun _ _ => by simp [Flow.bind]⟩
        obtain rfl := Flow.raised.inj hu
        obtain ⟨h1, h2⟩ := hraise t hb
        have := decContinue_bits s hc
        exact ⟨h1, by rw [h2]; omega⟩
      | ret a t =>
        rw [hb] at hsafe
        obtain ⟨hrun, hsame, hscr⟩ := hsafe
        obtain ⟨hvalid, hmore⟩ := hret t hb
        obtain ⟨i1, i2, i3, i4⟩ := ih hrun (by rw [hvalid]; omega)
        refine ⟨Flow.Safe.after hsame hscr i1, i2, fun u hu => by rw [← hvalid]; exact i3 u hu, fun hs => i4 fun a ha => ?_⟩
        rw [hvalid] at ha
        rw [hsame.src]; exact hs a ha

/-- What the host reads at the end of a decode (R155, R175). -/
theorem decEnd_hostBytes {s : State} (h : Running .decode s) :
    ∃ bytes, DstHolds bytes s ∧ bytes.length = s.decBytesWritten.toNat ∧ hostBytes (decEnd s) = some bytes := by
  obtain ⟨bytes, hb, hl⟩ := (h.decoder rfl).dst
  refine ⟨bytes, hb, hl, ?_⟩
  have hr : resultLength (decEnd s) = bytes.length := by
    simp only [resultLength, show (decEnd s).command = .decode from h.command]; exact hl.symm
  rw [hostBytes, if_pos (show (decEnd s).status = .done from rfl), hr, show (decEnd s).dst = Memory.ofBytes bytes from hb]
  exact Memory.readRange_ofBytes _

/-- The end state of a decode meets the invariant. -/
theorem decEnd_inv {s : State} (h : Running .decode s) (hs : s.scratch.length = 4096) (hsrc : s.src.wf = true) :
    Inv (decEnd s) where
  dict := h.dict
  scratch := hs
  src := hsrc
  dst := h.dst
  cause := ⟨nofun, fun hx => absurd h.cause hx⟩
  encoding := nofun
  decoding := nofun
  done := fun _ => by
    obtain ⟨bytes, hb, hl⟩ := (h.decoder rfl).dst
    refine ⟨bytes, hb, ?_⟩
    simp only [resultLength, show (decEnd s).command = .decode from h.command]
    exact hl

/-- Everything LZW.DECODE can come to, given while not BUSY (R172). -/
theorem runDecode_cases (s : State) :
    (8 * s.pCompBytes.toNat < s.pCompBits.toNat ∧
      runDecode (beginCommand .decode s) = .raised (raiseFault .badParameters (beginCommand .decode s))) ∨
    (s.pCompBits.toNat ≤ 8 * s.pCompBytes.toNat ∧
      ((∃ u, runDecode (beginCommand .decode s) = .ret () (decEnd u) ∧ Running .decode u ∧ HostSame s u ∧ ScratchKept s u ∧
          decContinue u = false) ∨
       (∃ t, runDecode (beginCommand .decode s) = .raised t ∧ Faulted s t ∧
          (t.cause = .badLiteral ∨ t.cause = .codeOutOfRange) ∧ t.faultPos.toNat < s.pCompBits.toNat) ∨
       (∃ r, runDecode (beginCommand .decode s) = .stop r ∧ ¬SrcSupplied ((s.pCompBits.toNat + 7) / 8) s))) := by
  unfold runDecode
  rcases decInit_cases (beginCommand .decode s) with ⟨hb, hi⟩ | ⟨hg, hi⟩
  · rw [hi]; exact .inl ⟨hb, rfl⟩
  · refine .inr ⟨hg, ?_⟩
    have hsame : HostSame s (decFresh (beginCommand .decode s)) := ⟨rfl, rfl, rfl, rfl, rfl, rfl, rfl⟩
    rw [hi]
    simp only [Flow.bind]
    obtain ⟨h1, h2, h3, h4⟩ := decLoop_safe (decFresh (beginCommand .decode s)).brValidBits.toNat (decStart_running s hg)
      (by simp)
    cases hl : decLoop (decFresh (beginCommand .decode s)).brValidBits.toNat (decFresh (beginCommand .decode s)) with
    | stop r => exact .inr (.inr ⟨r, rfl, fun hx => h4 hx r hl⟩)
    | raised t => rw [hl] at h1; exact .inr (.inl ⟨t, rfl, Faulted.trans hsame id h1, h3 t hl⟩)
    | ret a t =>
      rw [hl] at h1
      exact .inl ⟨t, rfl, h1.1, hsame.trans h1.2.1, h1.2.2, h2 t hl⟩

end Sys2Proof.Machine
end

