-- ==== Sys2Proof/Laws/Agree.lean ====
section
/-! SUPPORT. What a running command depends on (R104, R130, R211): two states that agree on it go through the same steps, and
the host sees the same outcome. -/

namespace Sys2Proof.Machine

/-- Two faulted states that the host cannot tell apart (R197). -/
structure FaultAgree (s t : State) : Prop where
  left : s.status = .fault
  right : t.status = .fault
  cause : s.cause = t.cause
  stream : s.cause = .badLiteral ∨ s.cause = .codeOutOfRange → s.faultCode = t.faultCode ∧ s.faultPos = t.faultPos

theorem raiseFault_agree (f : CodecFault) (s t : State) : FaultAgree (raiseFault f s) (raiseFault f t) :=
  ⟨rfl, rfl, rfl, fun h => by cases f <;> simp [raiseFault, CodecFault.cause, CodecFault.codeOr, CodecFault.posOr] at h ⊢⟩

/-- Two operations that end alike, in states related by R. -/
def Flow.Agree {α : Type} (R : State → State → Prop) : Flow α → Flow α → Prop
  | .ret a s, .ret b t => a = b ∧ R s t
  | .raised s, .raised t => FaultAgree s t
  | .stop r, .stop r' => r = r'
  | _, _ => False

theorem Flow.Agree.bind {α β : Type} {R R' : State → State → Prop} {f f' : Flow α} {g g' : α → State → Flow β}
    (h : f.Agree R f') (hg : ∀ a s t, R s t → (g a s).Agree R' (g' a t)) : (f.bind g).Agree R' (f'.bind g') := by
  cases f <;> cases f' <;> simp only [Flow.Agree] at h
  · obtain ⟨rfl, h⟩ := h; exact hg _ _ _ h
  · exact h
  · exact h

theorem Flow.Agree.sameResult {R : State → State → Prop} {f f' : Flow Unit} (h : f.Agree R f')
    (hR : ∀ s t, R s t → SameOutcome s t) : SameResult f.done f'.done := by
  cases f <;> cases f' <;> simp only [Flow.Agree] at h
  · exact .inl ⟨_, _, rfl, rfl, hR _ _ h.2⟩
  · rename_i s t
    have hn : ∀ u : State, u.status = .fault → hostBytes u = none ∧ hostCompBits u = none ∧ hostCompBytes u = none ∧
        hostOutBytes u = none := by
      intro u hu
      simp [hostBytes, hostCompBits, hostCompBytes, hostOutBytes, hu]
    obtain ⟨a1, a2, a3, a4⟩ := hn s h.left
    obtain ⟨b1, b2, b3, b4⟩ := hn t h.right
    exact .inl ⟨s, t, rfl, rfl, by rw [h.left, h.right], h.cause, by rw [a1, b1], by rw [a2, b2], by rw [a3, b3], by rw [a4, b4],
      h.stream⟩
  · exact .inr ⟨_, rfl, by rw [h]; rfl⟩

/-! ## LZW.ENCODE -/

/-- What a running encode depends on (R130). -/
structure EncAgree (s t : State) : Prop where
  dict : s.dict = t.dict
  width : s.width = t.width
  code : s.encCode = t.encCode
  pos : s.encInPos = t.encInPos
  bits : s.bwBitsWritten = t.bwBitsWritten
  bytes : s.pInputBytes = t.pInputBytes
  dst : s.dst = t.dst
  cap : s.encDstCap = t.encDstCap
  status : s.status = t.status
  cause : s.cause = t.cause
  left : s.command = .encode
  right : t.command = .encode
  src : ∀ a, a < s.pInputBytes.toNat → s.src.read a = t.src.read a

theorem bwAppendBit_agree (bit : Bool) {s t : State} (h : EncAgree s t) :
    (bwAppendBit bit s).Agree EncAgree (bwAppendBit bit t) := by
  have hcap : ∀ a, beyondCap a s = beyondCap a t := fun a => by simp only [beyondCap, h.cap]
  unfold bwAppendBit
  simp only [hcap, h.bits, h.dst]
  split
  · exact raiseFault_agree _ _ _
  · split
    · exact raiseFault_agree _ _ _
    · split
      · exact rfl
      · exact ⟨rfl, h.dict, h.width, h.code, h.pos, rfl, h.bytes, rfl, h.cap, h.status, h.cause, h.left, h.right, h.src⟩

theorem bwAppendFrom_agree (value b k : Nat) {s t : State} (h : EncAgree s t) :
    (bwAppendFrom value b k s).Agree EncAgree (bwAppendFrom value b k t) := by
  induction k generalizing b s t with
  | zero => exact ⟨rfl, h⟩
  | succ k ih => exact (bwAppendBit_agree _ h).bind fun _ _ _ h' => ih (b + 1) h'

theorem dictGrow_agree {s t : State} (hd : s.dict = t.dict) (hw : s.width = t.width) :
    (dictGrow s).1 = (dictGrow t).1 ∧ (dictGrow s).2.dict = (dictGrow t).2.dict ∧
      (dictGrow s).2.width = (dictGrow t).2.width := by
  have hx : widthCheck s = widthCheck t := by unfold widthCheck State.dictSize; rw [hd, hw]
  unfold dictGrow
  rw [hx, hw]
  cases widthCheck t with
  | false => exact ⟨rfl, hd, hw⟩
  | true =>
    simp only [if_true]
    cases nextWidth t.width with
    | none => exact ⟨rfl, rfl, rfl⟩
    | some w => exact ⟨rfl, hd, rfl⟩

theorem dictAdd_agree (p : Code) (v : Symbol) {s t : State} (hd : s.dict = t.dict) :
    (dictAdd p v s).2.dict = (dictAdd p v t).2.dict := by
  have hs : s.dictSize = t.dictSize := by simp only [State.dictSize, hd]
  by_cases h : t.dictSize = 4096
  · rw [dictAdd_full _ _ _ (hs.trans h), dictAdd_full _ _ _ h]; exact hd
  · rw [dictAdd_room _ _ _ (by rw [hs]; exact h), dictAdd_room _ _ _ h]
    show s.dict ++ _ = t.dict ++ _
    rw [hd]

theorem encGrowAdd_agree (p : Code) (v : Symbol) {s t : State} (hd : s.dict = t.dict) (hw : s.width = t.width) :
    (encGrowAdd p v s).dict = (encGrowAdd p v t).dict ∧ (encGrowAdd p v s).width = (encGrowAdd p v t).width := by
  obtain ⟨h1, h2, h3⟩ := dictGrow_agree hd hw
  have hwid : ∀ u : State, (dictAdd p v u).2.width = u.width := fun u => by
    obtain ⟨d, h⟩ := dictAdd_frame p v u; rw [h]
  unfold encGrowAdd
  revert h1 h2 h3
  rcases dictGrow s with ⟨b, s'⟩
  rcases dictGrow t with ⟨b', t'⟩
  intro h1 h2 h3
  simp only at h1 h2 h3
  subst h1
  cases b
  · exact ⟨dictAdd_agree p v h2, by simp only [hwid, h3]⟩
  · exact ⟨h2, h3⟩

theorem encFinish_agree {s t : State} (h : EncAgree s t) : (encFinish s).Agree EncAgree (encFinish t) := by
  unfold encFinish
  rw [h.code, h.width]
  cases t.encCode with
  | none => exact ⟨rfl, h⟩
  | some c => exact bwAppendFrom_agree _ _ _ h

theorem encSymbol_agree (v : Symbol) {s t : State} (h : EncAgree s t) :
    (encSymbol v s).Agree EncAgree (encSymbol v t) := by
  have hf : dictFind s.encCode v s = dictFind t.encCode v t := by simp only [dictFind, h.dict, h.code]
  unfold encSymbol
  rw [hf]
  cases dictFind t.encCode v t with
  | some idx =>
    refine ⟨rfl, h.dict, h.width, rfl, ?_, h.bits, h.bytes, h.dst, h.cap, h.status, h.cause, h.left, h.right, h.src⟩
    show BitVec.ofNat 32 (s.encInPos.toNat + 1) = BitVec.ofNat 32 (t.encInPos.toNat + 1)
    rw [h.pos]
  | none =>
    simp only [encEmit]
    rw [h.code, h.width]
    cases t.encCode with
    | none => exact rfl
    | some c =>
      refine (bwAppendFrom_agree _ _ _ h).bind fun _ s' t' h' => ⟨rfl, ?_⟩
      obtain ⟨g1, g2⟩ := encGrowAdd_agree c v h'.dict h'.width
      obtain ⟨d, w, hs⟩ := encGrowAdd_frame c v s'
      obtain ⟨d', w', ht⟩ := encGrowAdd_frame c v t'
      rw [hs, ht] at g1 g2 ⊢
      refine ⟨g1, g2, rfl, ?_, h'.bits, h'.bytes, h'.dst, h'.cap, h'.status, h'.cause, h'.left, h'.right, h'.src⟩
      show BitVec.ofNat 32 (s'.encInPos.toNat + 1) = BitVec.ofNat 32 (t'.encInPos.toNat + 1)
      rw [h'.pos]

theorem encScan_agree (n : Nat) {s t : State} (h : EncAgree s t) : (encScan n s).Agree EncAgree (encScan n t) := by
  induction n generalizing s t with
  | zero => exact ⟨rfl, h⟩
  | succ n ih =>
    have hc : encContinue s = encContinue t := by simp only [encContinue, h.pos, h.bytes]
    rw [encScan, encScan, hc]
    cases hcont : encContinue t with
    | false => rw [if_neg (by simp), if_neg (by simp)]; exact ⟨rfl, h⟩
    | true =>
      rw [if_pos rfl, if_pos rfl]
      refine Flow.Agree.bind (R := EncAgree) ?_ fun _ _ _ h' => ih h'
      have hlt : s.encInPos.toNat < s.pInputBytes.toNat := by rw [← hc] at hcont; simpa [encContinue] using hcont
      have hi : inputByte s = inputByte t := by
        unfold inputByte
        rw [h.src _ hlt, h.pos]
      unfold encByte
      rw [hi]
      cases inputByte t with
      | none => exact rfl
      | some v => exact encSymbol_agree v h

/-- What the host sees of an encode that has ended (R135, R175). -/
structure EncResultAgree (s t : State) : Prop where
  left : s.status = .done ∧ s.command = .encode
  right : t.status = .done ∧ t.command = .encode
  cause : s.cause = t.cause
  dst : s.dst = t.dst
  bits : s.rCompBits = t.rCompBits
  bytes : s.rCompBytes = t.rCompBytes
  clean : s.cause = .none

theorem EncResultAgree.same {s t : State} (h : EncResultAgree s t) : SameOutcome s t := by
  obtain ⟨l1, l2⟩ := h.left
  obtain ⟨r1, r2⟩ := h.right
  refine ⟨by rw [l1, r1], h.cause, ?_, ?_, ?_, ?_, fun hx => ?_⟩
  · simp only [hostBytes, l1, r1, resultLength, l2, r2, h.dst, h.bytes]
  · simp only [hostCompBits, l1, r1, l2, r2, h.bits]
  · simp only [hostCompBytes, l1, r1, l2, r2, h.bytes]
  · simp only [hostOutBytes, l2, r2, reduceCtorEq, and_false, if_false]
  · rw [h.clean] at hx; rcases hx with hx | hx <;> cases hx

theorem encEnd_agree {s t : State} (h : EncAgree s t) (hc : s.cause = .none) :
    (encEnd s).Agree EncResultAgree (encEnd t) := by
  have hr : ∀ (u : State) (n m : Count32), bwRelease { u with rCompBits := n, rCompBytes := m } =
      match u.dst.readRange 0 (bwByteCount u) with
      | none => .stop .dstUnwritten
      | some bytes => .ret bytes { u with rCompBits := n, rCompBytes := m, bwBitsWritten := 0 } := fun _ _ _ => rfl
  have h1 : bwByteCount s = bwByteCount t := by unfold bwByteCount; rw [h.bits]
  have h2 : bwBitCount s = bwBitCount t := by unfold bwBitCount; rw [h.bits]
  rw [encEnd, encEnd, hr, hr, h1, h2, h.dst]
  cases t.dst.readRange 0 (bwByteCount t) with
  | none => exact rfl
  | some bytes => exact ⟨rfl, ⟨rfl, h.left⟩, ⟨rfl, h.right⟩, h.cause, rfl, rfl, rfl, hc⟩

/-- R130: the outcome of an encode is a function of the input bytes and of ENC_DST_CAP. -/
theorem runEncode_agree (s t : State) (hp : s.pInputBytes = t.pInputBytes) (hcap : s.encDstCap = t.encDstCap)
    (hsrc : ∀ a, a < s.pInputBytes.toNat → s.src.read a = t.src.read a) :
    (runEncode (beginCommand .encode s)).Agree EncResultAgree (runEncode (beginCommand .encode t)) := by
  have h0 : EncAgree (encInit (beginCommand .encode s)) (encInit (beginCommand .encode t)) :=
    ⟨rfl, rfl, rfl, rfl, rfl, hp, rfl, hcap, rfl, rfl, rfl, rfl, hsrc⟩
  unfold runEncode
  rw [show (beginCommand .encode s).pInputBytes = (beginCommand .encode t).pInputBytes from hp]
  generalize (beginCommand .encode t).pInputBytes.toNat = n
  have h1 := (encScan_agree n h0).bind fun _ _ _ h => encFinish_agree h
  have hk : ((encScan n (encInit (beginCommand .encode s))).bind fun _ t => encFinish t).Keeps
      (encInit (beginCommand .encode s)) := (encScan_keeps n _).bind fun _ _ => encFinish_keeps _
  revert h1 hk
  generalize (encScan n (encInit (beginCommand .encode s))).bind (fun _ t => encFinish t) = f
  generalize (encScan n (encInit (beginCommand .encode t))).bind (fun _ t => encFinish t) = f'
  intro h1 hk
  cases f <;> cases f' <;> simp only [Flow.Agree] at h1
  · exact encEnd_agree h1.2 hk.2.2.1
  · exact h1
  · exact h1

/-! ## LZW.DECODE -/

/-- What a running decode depends on (R104, R145). -/
structure DecAgree (s t : State) : Prop where
  dict : s.dict = t.dict
  width : s.width = t.width
  prev : s.decPrevCode = t.decPrevCode
  count : s.decBytesWritten = t.decBytesWritten
  pos : s.brBitsRead = t.brBitsRead
  valid : s.brValidBits = t.brValidBits
  expected : s.pExpectedBytes = t.pExpectedBytes
  dst : s.dst = t.dst
  status : s.status = t.status
  cause : s.cause = t.cause
  left : s.command = .decode
  right : t.command = .decode
  src : ∀ n, n < s.brValidBits.toNat → s.src.bitAt n = t.src.bitAt n

theorem decWrite_agree (bytes : List Symbol) {s t : State} (h : DecAgree s t) :
    DecAgree (decWrite bytes s) (decWrite bytes t) := by
  induction bytes generalizing s t with
  | nil => exact h
  | cons b rest ih =>
    rw [decWrite, decWrite, h.count, h.expected, h.dst]
    split
    · exact ih ⟨h.dict, h.width, h.prev, rfl, h.pos, h.valid, rfl, rfl, h.status, h.cause, h.left, h.right, h.src⟩
    · exact ih h

/-- UPDATE, once DEC.firstByte and DEC.code agree as well (R154). -/
theorem decUpdate_agree {s t : State} (h : DecAgree s t) (hf : s.decFirstByte = t.decFirstByte) (hc : s.decCode = t.decCode) :
    (decUpdate s).Agree DecAgree (decUpdate t) := by
  unfold decUpdate
  rw [h.prev]
  cases t.decPrevCode with
  | none => exact rfl
  | some p =>
    simp only
    rw [hf]
    have hd := dictAdd_agree p t.decFirstByte h.dict
    obtain ⟨d, hs⟩ := dictAdd_frame p t.decFirstByte s
    obtain ⟨d', ht⟩ := dictAdd_frame p t.decFirstByte t
    rw [hs, ht] at hd ⊢
    have hd' : d = d' := hd
    subst hd'
    obtain ⟨h1, h2, h3⟩ := dictGrow_agree (s := { s with dict := d }) (t := { t with dict := d }) rfl h.width
    obtain ⟨e, w, gs⟩ := dictGrow_frame { s with dict := d }
    obtain ⟨e', w', gt⟩ := dictGrow_frame { t with dict := d }
    revert h1 h2 h3 gs gt
    rcases dictGrow { s with dict := d } with ⟨b, s'⟩
    rcases dictGrow { t with dict := d } with ⟨b', t'⟩
    intro h1 h2 h3 gs gt
    simp only at h1 h2 h3 gs gt
    subst h1 gs gt
    cases b
    · refine ⟨rfl, h2, h3, ?_, h.count, h.pos, h.valid, h.expected, h.dst, h.status, h.cause, h.left, h.right, h.src⟩
      exact congrArg some hc
    · exact ⟨rfl, h2, h3, rfl, h.count, h.pos, h.valid, h.expected, h.dst, h.status, h.cause, h.left, h.right, h.src⟩

theorem dictSeq_agree (c : Code) {s t : State} (hd : s.dict = t.dict) :
    (∃ r sc sc', dictSeq c s = .ret r { s with scratch := sc } ∧ dictSeq c t = .ret r { t with scratch := sc' }) ∨
    ∃ r, dictSeq c s = .stop r ∧ dictSeq c t = .stop r := by
  unfold dictSeq
  rw [hd]
  split
  · exact .inr ⟨_, rfl, rfl⟩
  · split
    · exact .inr ⟨_, rfl, rfl⟩
    · exact .inl ⟨_, _, _, rfl, rfl⟩

/-- A whole KWK or REF action: what a sequence writes, then UPDATE. -/
theorem writeUpdate_agree (bytes : List Symbol) (first : Symbol) {s t : State} (sc sc' : List Symbol) (h : DecAgree s t)
    (hc : s.decCode = t.decCode) :
    (decUpdate (decWrite bytes { s with scratch := sc, decFirstByte := first })).Agree DecAgree
      (decUpdate (decWrite bytes { t with scratch := sc', decFirstByte := first })) := by
  have h0 : DecAgree { s with scratch := sc, decFirstByte := first } { t with scratch := sc', decFirstByte := first } :=
    ⟨h.dict, h.width, h.prev, h.count, h.pos, h.valid, h.expected, h.dst, h.status, h.cause, h.left, h.right, h.src⟩
  have h1 := decWrite_agree bytes h0
  obtain ⟨d, n, e⟩ := decWrite_frame bytes { s with scratch := sc, decFirstByte := first }
  obtain ⟨d', n', e'⟩ := decWrite_frame bytes { t with scratch := sc', decFirstByte := first }
  refine decUpdate_agree h1 ?_ ?_
  · rw [e, e']
  · rw [e, e']; exact hc

theorem wordStep_agree (c : Code) {s t : State} (h : DecAgree s t) : (wordStep c s).Agree DecAgree (wordStep c t) := by
  have hcls : classOf s c = classOf t c := by simp only [classOf, State.dictSize, h.prev, h.dict]
  have hfetch : DecAgree (wordFetched c s) (wordFetched c t) := by
    refine ⟨h.dict, h.width, h.prev, h.count, ?_, h.valid, h.expected, h.dst, h.status, h.cause, h.left, h.right, h.src⟩
    show BitVec.ofNat 32 (s.brBitsRead.toNat + fetchLength s.width.bits s) =
      BitVec.ofNat 32 (t.brBitsRead.toNat + fetchLength t.width.bits t)
    simp only [fetchLength, h.pos, h.width, h.valid]
  rw [wordStep, wordStep, decClassStep, decClassStep]
  simp only [classOf_wordFetched, wordFetched_decCode, hcls, h.pos]
  cases classOf t c with
  | badlit => exact raiseFault_agree _ _ _
  | oor => exact raiseFault_agree _ _ _
  | lit =>
    refine ⟨rfl, ?_⟩
    have h1 := decWrite_agree [codeSymbol c] hfetch
    exact ⟨h1.dict, h1.width, rfl, h1.count, h1.pos, h1.valid, h1.expected, h1.dst, h1.status, h1.cause, h1.left, h1.right, h1.src⟩
  | kwk =>
    simp only [decKwk]
    rw [hfetch.prev]
    cases (wordFetched c t).decPrevCode with
    | none => exact rfl
    | some p =>
      rcases dictSeq_agree p hfetch.dict with ⟨r, sc, sc', h1, h2⟩ | ⟨r, h1, h2⟩
      · simp only [h1, h2, Flow.bind]; exact writeUpdate_agree _ _ sc sc' hfetch rfl
      · simp only [h1, h2, Flow.bind]; exact rfl
  | ref =>
    simp only [decRef, wordFetched_decCode]
    rcases dictSeq_agree c hfetch.dict with ⟨r, sc, sc', h1, h2⟩ | ⟨r, h1, h2⟩
    · simp only [h1, h2, Flow.bind]; exact writeUpdate_agree _ _ sc sc' hfetch rfl
    · simp only [h1, h2, Flow.bind]; exact rfl

theorem srcBits_agree (m m' : Memory) (n k : Nat) (h : ∀ j, n ≤ j → j < n + k → m.bitAt j = m'.bitAt j) :
    srcBits m n k = srcBits m' n k := by
  induction k generalizing n with
  | zero => rfl
  | succ k ih => rw [srcBits, srcBits, h n (by omega) (by omega), ih (n + 1) fun j h1 h2 => h j (by omega) (by omega)]

theorem decStep_agree {s t : State} (h : DecAgree s t) : (decStep s).Agree DecAgree (decStep t) := by
  have hb : nextWordBits s = nextWordBits t := by
    have hl : fetchLength s.width.bits s = fetchLength t.width.bits t := by simp only [fetchLength, h.pos, h.width, h.valid]
    unfold nextWordBits
    rw [← hl, ← h.pos]
    exact srcBits_agree _ _ _ _ fun j h1 h2 => h.src j (by simp only [fetchLength] at h2; omega)
  rw [decStep_eq, decStep_eq, hb]
  cases nextWordBits t with
  | none => exact rfl
  | some bits => exact wordStep_agree _ h

theorem decLoop_agree (n : Nat) {s t : State} (h : DecAgree s t) : (decLoop n s).Agree DecAgree (decLoop n t) := by
  induction n generalizing s t with
  | zero => exact ⟨rfl, h⟩
  | succ n ih =>
    have hc : decContinue s = decContinue t := by simp only [decContinue, endOfStream, h.pos, h.valid, h.count, h.expected]
    rw [decLoop, decLoop, hc]
    cases decContinue t with
    | false => rw [if_neg (by simp), if_neg (by simp)]; exact ⟨rfl, h⟩
    | true => rw [if_pos rfl, if_pos rfl]; exact (decStep_agree h).bind fun _ _ _ h' => ih h'

/-- What the host sees of a decode that has ended (R155, R175). -/
structure DecResultAgree (s t : State) : Prop where
  left : s.status = .done ∧ s.command = .decode
  right : t.status = .done ∧ t.command = .decode
  cause : s.cause = t.cause
  dst : s.dst = t.dst
  bytes : s.rOutBytes = t.rOutBytes
  clean : s.cause = .none

theorem DecResultAgree.same {s t : State} (h : DecResultAgree s t) : SameOutcome s t := by
  obtain ⟨l1, l2⟩ := h.left
  obtain ⟨r1, r2⟩ := h.right
  refine ⟨by rw [l1, r1], h.cause, ?_, ?_, ?_, ?_, fun hx => ?_⟩
  · simp only [hostBytes, l1, r1, resultLength, l2, r2, h.dst, h.bytes]
  · simp only [hostCompBits, l2, r2, reduceCtorEq, and_false, if_false]
  · simp only [hostCompBytes, l2, r2, reduceCtorEq, and_false, if_false]
  · simp only [hostOutBytes, l1, r1, l2, r2, h.bytes]
  · rw [h.clean] at hx; rcases hx with hx | hx <;> cases hx

/-- R104: the outcome of a decode whose parameters are accepted is a function of the valid bits, their number and
P_EXPECTED_BYTES. -/
theorem runDecode_agree (s t : State) (hb : s.pCompBits = t.pCompBits) (he : s.pExpectedBytes = t.pExpectedBytes)
    (hs : s.pCompBits.toNat ≤ 8 * s.pCompBytes.toNat) (ht : t.pCompBits.toNat ≤ 8 * t.pCompBytes.toNat)
    (hsrc : ∀ n, n < s.pCompBits.toNat → s.src.bitAt n = t.src.bitAt n) :
    (runDecode (beginCommand .decode s)).Agree DecResultAgree (runDecode (beginCommand .decode t)) := by
  have hi : ∀ u : State, u.pCompBits.toNat ≤ 8 * u.pCompBytes.toNat →
      runDecode (beginCommand .decode u) =
        (decLoop u.pCompBits.toNat (decFresh (beginCommand .decode u))).bind fun _ t => .ret () (decEnd t) := by
    intro u hu
    rcases decInit_cases (beginCommand .decode u) with ⟨hx, _⟩ | ⟨_, hx⟩
    · exact absurd hu (by simpa using hx)
    · rw [runDecode, hx]; rfl
  have h0 : DecAgree (decFresh (beginCommand .decode s)) (decFresh (beginCommand .decode t)) :=
    ⟨rfl, rfl, rfl, rfl, rfl, hb, he, rfl, rfl, rfl, rfl, rfl, hsrc⟩
  rw [hi s hs, hi t ht, hb]
  generalize t.pCompBits.toNat = n
  have h1 := decLoop_agree n h0
  have hk := decLoop_keeps n (decFresh (beginCommand .decode s))
  revert h1 hk
  generalize decLoop n (decFresh (beginCommand .decode s)) = f
  generalize decLoop n (decFresh (beginCommand .decode t)) = f'
  intro h1 hk
  cases f <;> cases f' <;> simp only [Flow.Agree] at h1
  · exact ⟨rfl, ⟨rfl, h1.2.left⟩, ⟨rfl, h1.2.right⟩, h1.2.cause, h1.2.dst, h1.2.count, hk.2.2.1⟩
  · exact h1
  · exact h1

end Sys2Proof.Machine
end

