-- ==== Sys2Proof/Laws/Run.lean ====
section
/-! SUPPORT. Runs: the codec left alone while a command runs goes through the passes of its loop and ends (R5, R136, R156,
R219). -/

namespace Sys2Proof.Machine

/-- A command given by the host is the next step. -/
theorem step_give {s : State} (f : Form) (c : Command) (hi : s.inbox = []) :
    step { s with inbox := [.give f c] } = giveCommand f c s := by
  have : ({ s with inbox := [] } : State) = s := by rw [← hi]
  exact (show step { s with inbox := [.give f c] } = hostMove (.give f c) { s with inbox := [] } from rfl).trans
    (congrArg (hostMove (.give f c)) this)

theorem startStepwise_encode {s : State} (h : s.status ≠ .busy) :
    giveCommand .stepwise .encode s = .next (encInit (beginCommand .encode s)) :=
  if_neg h

theorem startStepwise_decode {s : State} (h : s.status ≠ .busy) :
    giveCommand .stepwise .decode s = (decInit (beginCommand .decode s)).done :=
  if_neg h

/-- Steps of a running LZW.ENCODE: R136 from the loop on. -/
theorem run_scan (n : Nat) (s : State) (hi : s.inbox = []) (hb : s.status = .busy) (hc : s.command = .encode)
    (hn : s.pInputBytes.toNat ≤ s.encInPos.toNat + n) :
    core.run (n + 1) s = (((encScan n s).bind fun _ t => encFinish t).bind fun _ t => encEnd t).done := by
  have hfin : ∀ m s, s.inbox = [] → s.status = .busy → s.command = .encode → encContinue s = false →
     core.run (m + 1) s = ((encFinish s).bind fun _ t => encEnd t).done := by
    intro m s hi hb hc hcont
    have hstep : step s = ((encFinish s).bind fun _ t => encEnd t).done := by
      rw [step_busy s hi hb, hc]; simp only
      rw [stepEncode_finish s hcont]
      have hk := encFinish_keeps s
      cases hf : encFinish s with
      | stop r => rfl
      | raised t => rw [hf] at hk; simp only [hk.2.1, reduceCtorEq, if_false]; rfl
      | ret a t => rw [hf] at hk; simp only [hk.2.1, hb, if_true]; rfl
    have hends : ((encFinish s).bind fun _ t => encEnd t).Ends s .encode := by
      have := (encFinish_keeps s).ends (g := fun _ t => encEnd t) fun _ t ht => by rw [← ht]; exact encEnd_ends t
      rw [hc] at this; exact this
    cases hf : (encFinish s).bind fun _ t => encEnd t with
    | stop r => rw [hf] at hstep; exact run_fault hstep m
    | raised t => rw [hf] at hstep hends; rw [run_next hstep]; exact run_idle t (hends.1.inbox.trans hi) (by rw [hends.2.1]; simp) m
    | ret a t => rw [hf] at hstep hends; rw [run_next hstep]; exact run_idle t (hends.1.inbox.trans hi) (by rw [hends.2.1]; simp) m
  induction n generalizing s with
  | zero => exact hfin 0 s hi hb hc (encContinue_false s hn)
  | succ n ih =>
    rw [encScan]
    cases hcont : encContinue s with
    | false => rw [if_neg (by simp)]; exact hfin (n + 1) s hi hb hc hcont
    | true =>
      rw [if_pos rfl]
      have hk := encByte_keeps s
      have hstep : step s = (encByte s).done := by
        rw [step_busy s hi hb, hc]; exact stepEncode_continue s hcont
      cases hf : encByte s with
      | stop r => rw [hf] at hstep; exact run_fault hstep _
      | raised t => rw [hf] at hstep hk; rw [run_next hstep]; exact run_idle t (hk.1.inbox.trans hi) (by rw [hk.2.1]; simp) _
      | ret a t =>
        rw [hf] at hstep hk
        rw [run_next hstep]
        exact ih t (hk.1.inbox.trans hi) (hk.2.1.trans hb) (hk.2.2.2.trans hc) (by rw [hk.1.pInputBytes, encByte_pos hcont hf]; omega)

/-- Every line of a decoder step behind the fetch leaves the reader alone. -/
theorem wordStep_reader (c : Code) (s t : State) (h : wordStep c s = .ret () t) :
    t.brValidBits = s.brValidBits ∧ t.brBitsRead = BitVec.ofNat 32 (s.brBitsRead.toNat + fetchLength s.width.bits s) := by
  have hwu : ∀ (bytes : List Symbol) (fb : Symbol) (u : State), u.brValidBits = s.brValidBits →
      u.brBitsRead = BitVec.ofNat 32 (s.brBitsRead.toNat + fetchLength s.width.bits s) →
      decUpdate (decWrite bytes { u with decFirstByte := fb }) = .ret () t →
      t.brValidBits = s.brValidBits ∧ t.brBitsRead = BitVec.ofNat 32 (s.brBitsRead.toNat + fetchLength s.width.bits s) := by
    intro bytes fb u h1 h2 h3
    obtain ⟨d, n, hw⟩ := decWrite_frame bytes { u with decFirstByte := fb }
    rw [hw] at h3
    rcases decUpdate_frame { u with decFirstByte := fb, dst := d, decBytesWritten := n } with ⟨d', w, p, h'⟩ | h'
    · rw [h'] at h3; cases h3; exact ⟨h1, h2⟩
    · rw [h'] at h3; cases h3
  unfold wordStep decClassStep at h
  split at h
  · cases h
  · cases h
  · obtain ⟨d, n, hl⟩ := decLit_frame (wordFetched c s)
    rw [hl] at h; cases h; exact ⟨rfl, rfl⟩
  · unfold decKwk at h
    split at h
    · cases h
    · rename_i p _
      rcases dictSeq_cases p (wordFetched c s) with ⟨bytes, first, _, _, hx⟩ | ⟨r, hx⟩ <;> rw [hx] at h
      · refine hwu (bytes ++ [first]) first _ ?_ ?_ h <;> rfl
      · cases h
  · unfold decRef at h
    rcases dictSeq_cases (wordFetched c s).decCode (wordFetched c s) with ⟨bytes, first, _, _, hx⟩ | ⟨r, hx⟩ <;> rw [hx] at h
    · refine hwu bytes first _ ?_ ?_ h <;> rfl
    · cases h

/-- R155: every decoder step consumes at least one bit. -/
theorem decStep_moves {s t : State} (hc : decContinue s = true) (h : decStep s = .ret () t) :
    t.brValidBits = s.brValidBits ∧ s.brBitsRead.toNat < t.brBitsRead.toNat := by
  rw [decStep_eq] at h
  cases hb : nextWordBits s with
  | none => rw [hb] at h; cases h
  | some bits =>
    rw [hb] at h
    obtain ⟨h1, h2⟩ := wordStep_reader _ s t h
    have hp := fetch_position s.width.bits s
    have hpos := fetchLength_pos s hc
    refine ⟨h1, ?_⟩
    rw [h2, hp]; omega

/-- Steps of a running LZW.DECODE: R156 from the loop on. -/
theorem run_loop (n : Nat) (s : State) (hi : s.inbox = []) (hb : s.status = .busy) (hc : s.command = .decode)
    (hn : s.brValidBits.toNat ≤ s.brBitsRead.toNat + n) :
    core.run (n + 1) s = ((decLoop n s).bind fun _ t => .ret () (decEnd t)).done := by
  have hfin : ∀ m s, s.inbox = [] → s.status = .busy → s.command = .decode → decContinue s = false →
     core.run (m + 1) s = .next (decEnd s) := by
    intro m s hi hb hc hcont
    have hstep : step s = .next (decEnd s) := by
      rw [step_busy s hi hb, hc]; exact stepDecode_end s hcont
    rw [run_next hstep]; exact run_idle (decEnd s) hi (by simp [decEnd]) m
  induction n generalizing s with
  | zero => exact hfin 0 s hi hb hc (decContinue_false s hn)
  | succ n ih =>
    rw [decLoop]
    cases hcont : decContinue s with
    | false => rw [if_neg (by simp)]; exact hfin (n + 1) s hi hb hc hcont
    | true =>
      rw [if_pos rfl]
      have hk := decStep_keeps s
      have hstep : step s = (decStep s).done := by
        rw [step_busy s hi hb, hc]; exact stepDecode_continue s hcont
      cases hf : decStep s with
      | stop r => rw [hf] at hstep; exact run_fault hstep _
      | raised t => rw [hf] at hstep hk; rw [run_next hstep]; exact run_idle t (hk.1.inbox.trans hi) (by rw [hk.2.1]; simp) _
      | ret a t =>
        rw [hf] at hstep hk
        rw [run_next hstep]
        obtain ⟨m1, m2⟩ := decStep_moves hcont hf
        exact ih t (hk.1.inbox.trans hi) (hk.2.1.trans hb) (hk.2.2.2.trans hc) (by rw [m1]; omega)

end Sys2Proof.Machine
end

