-- ==== Sys2Proof/Laws/Lockstep.lean ====
section
/-! SUPPORT. Lockstep of decoder and encoder (44_decoder.md rule R157): after the words emitted so far, the decoder's table is
the encoder's without its last entry, and its output is the input before the current match. -/

namespace Sys2Proof.Machine

/-! ## One code word, by its class -/

/-- A LIT step in full (R149). -/
theorem wordStep_lit {u : State} (c : Code) (out : List Symbol) (hnil : u.decPrevCode = none) (hc : c.toNat < 256)
    (hout : DstHolds out u) (hlen : out.length = u.decBytesWritten.toNat) :
    wordStep c u = .ret () { withOutput (out ++ [codeSymbol c].take (outputRoom u)) (wordFetched c u) with
      decFirstByte := codeSymbol c, decPrevCode := some c } := by
  have hcls : classOf u c = .lit := (classOf_lit u c).mpr ⟨hnil, hc⟩
  have hlit : decLit (wordFetched c u) =
      { withOutput (out ++ [codeSymbol c].take (outputRoom u)) (wordFetched c u) with
        decFirstByte := codeSymbol c, decPrevCode := some c } := by
    rw [decLit, decWrite_holds _ out (wordFetched c u) hout hlen]; rfl
  rw [wordStep, decClassStep]
  simp only [classOf_wordFetched, wordFetched_decCode, hcls]
  rw [hlit]

/-- What a KWK or REF step writes for the word c, and its first byte (R151, R152). -/
def WordBytes (dict : List Entry) (prev c : Code) (bytes : List Symbol) (first : Symbol) : Prop :=
  (c.toNat < dict.length ∧ IsSeq dict c bytes ∧ bytes.head? = some first) ∨
  (c.toNat = dict.length ∧ ∃ seq, IsSeq dict prev seq ∧ seq.head? = some first ∧ bytes = seq ++ [first])

/-- A KWK or REF step up to its UPDATE (R151, R152). -/
theorem wordStep_late {u : State} (c p : Code) (out : List Symbol) (hwf : DictWf u.dict) (hp : u.decPrevCode = some p)
    (hplt : p.toNat < u.dictSize) (hc : c.toNat ≤ u.dictSize) (hout : DstHolds out u)
    (hlen : out.length = u.decBytesWritten.toNat) :
    ∃ seq bytes first, WordBytes u.dict p c bytes first ∧
      wordStep c u = decUpdate (beforeUpdate c seq (out ++ bytes.take (outputRoom u)) first u) := by
  have hsome : u.decPrevCode ≠ none := by rw [hp]; simp
  rw [wordStep, decClassStep]
  simp only [classOf_wordFetched, wordFetched_decCode]
  by_cases heq : c.toNat = u.dictSize
  · obtain ⟨bytes, first, hs, hf, _, hk⟩ := decKwk_ok (s := wordFetched c u) hwf p hp hplt
    refine ⟨bytes, bytes ++ [first], first, .inr ⟨heq, bytes, hs, hf, rfl⟩, ?_⟩
    rw [(classOf_kwk u c).mpr ⟨hsome, heq⟩]
    show decKwk (wordFetched c u) = _
    rw [hk]
    exact congrArg decUpdate (decWrite_holds (bytes ++ [first]) out { wordFetched c u with
      scratch := bytes.reverse ++ u.scratch.drop bytes.length, decFirstByte := first } hout hlen)
  · have hlt : c.toNat < u.dictSize := by omega
    obtain ⟨bytes, first, hs, hf, _, hk⟩ := decRef_ok (s := wordFetched c u) hwf hlt
    refine ⟨bytes, bytes, first, .inl ⟨hlt, hs, hf⟩, ?_⟩
    rw [(classOf_ref u c).mpr ⟨hsome, hlt⟩]
    show decRef (wordFetched c u) = _
    rw [hk]
    exact congrArg decUpdate (decWrite_holds bytes out { wordFetched c u with
      scratch := bytes.reverse ++ u.scratch.drop bytes.length, decFirstByte := first } hout hlen)

/-! ## The relation -/

/-- R157: the encoder's dictionary and WIDTH against the decoder's, and the current match with its first byte. -/
structure InStep (edict : List Entry) (ewidth : Width) (first : Symbol) (u : State) : Prop where
  width : u.width = ewidth
  table : (u.decPrevCode = none ∧ edict = rootTable ∧ u.dict = rootTable) ∨
    ∃ p, u.decPrevCode = some p ∧ edict = u.dict ++ [{ parent := some p, value := first }]

theorem width_bits_injective {v w : Width} (h : v.bits = w.bits) : v = w := by cases v <;> cases w <;> simp [Width.bits] at h ⊢

/-- The encoder's sequence of the emitted code is what the decoder writes for it, and the entry that UPDATE adds is the one
the decoder lacks (R157). -/
theorem wordBytes_lockstep {dict : List Entry} {p c : Code} {v first : Symbol} {bytes l : List Symbol}
    (h : WordBytes dict p c bytes first) (hl : SeqRev (dict ++ [{ parent := some p, value := v }]) c l)
    (hv : l.getLast? = some v) : bytes = l.reverse ∧ first = v := by
  have hfirst : ∀ {bs : List Symbol} {f : Symbol}, bs = l.reverse → bs.head? = some f → f = v := by
    intro bs f hb hf
    rw [hb, List.head?_reverse, hv] at hf
    exact (Option.some.inj hf).symm
  rcases h with ⟨_, hs, hf⟩ | ⟨hc, seq, hs, hf, rfl⟩
  · have : bytes.reverse = l := (SeqRev.append hs _).unique hl
    have hb : bytes = l.reverse := by rw [← this, List.reverse_reverse]
    exact ⟨hb, hfirst hb hf⟩
  · have : v :: seq.reverse = l := (SeqRev.added hs v c hc).unique hl
    have hlast : seq.head? = some v := by
      cases seq with
      | nil => cases hf
      | cons a rest =>
        rw [← this, List.getLast?_cons] at hv
        simpa using hv
    rw [hlast] at hf
    obtain rfl := Option.some.inj hf
    exact ⟨by rw [← this]; simp, rfl⟩

/-- R157, one word: the decoder, in step with the encoder, reads the encoder's next word, writes the encoder's match, and is
in step again once the encoder has made its check and add. -/
theorem lockstep_word {u : State} {edict : List Entry} {ewidth : Width} {c : Code} {l out : List Symbol} {v : Symbol}
    (hr : Running .decode u) (hin : InStep edict ewidth v u) (hsz : EncSizes ewidth edict.length)
    (hc : c.toNat < edict.length) (hl : SeqRev edict c l) (hv : l.getLast? = some v) (hout : DstHolds out u)
    (hlen : out.length = u.decBytesWritten.toNat) (hroom : out.length + l.length ≤ u.pExpectedBytes.toNat) :
    ∃ u', wordStep c u = .ret () u' ∧ DstHolds (out ++ l.reverse) u' ∧
      (out ++ l.reverse).length = u'.decBytesWritten.toNat ∧
      ∀ (e : State) (value : Symbol), e.dict = edict → e.width = ewidth →
        InStep (encGrowAdd c value e).dict (encGrowAdd c value e).width value u' := by
  have hlroom : l.length ≤ outputRoom u := by simp only [outputRoom]; omega
  have h32 : (BitVec.ofNat 32 (out ++ l.reverse).length).toNat = (out ++ l.reverse).length := by
    have := u.pExpectedBytes.isLt
    exact toNat_ofNat32 _ (by simp; omega)
  have hrun := hr.decoder rfl
  rcases hin.table with ⟨hnil, he, hu⟩ | ⟨p, hp, he⟩
  · have h9 : ewidth = .w9 := by rw [← hin.width]; exact (hrun.epochStart hnil).1
    have hc256 : c.toNat < 256 := by rw [he, rootTable_length] at hc; exact hc
    have hseq : l = [codeSymbol c] := by
      have h1 := dictWf_rootTable.seqRev_root (codeSymbol c)
      have h2 : rootCode (codeSymbol c) = c := rootCode_setWidth c hc256
      rw [h2] at h1; rw [he] at hl; exact hl.unique h1
    have hstep := wordStep_lit c out hnil hc256 hout hlen
    have ht : [codeSymbol c].take (outputRoom u) = l.reverse := by
      rw [hseq] at hlroom ⊢
      rw [List.take_of_length_le (by simpa using hlroom)]; rfl
    rw [ht] at hstep
    refine ⟨_, hstep, rfl, h32.symm, fun e value hd hw => ?_⟩
    rcases encGrowAdd_cases c value e (by rw [State.dictSize, hd, hw]; exact hsz.1) with ⟨hw12, _⟩ | ⟨hs, _⟩ | ⟨_, hg⟩
    · rw [hw, h9] at hw12; cases hw12
    · rw [State.dictSize, hd, he, rootTable_length, hw, h9] at hs; simp [Width.bits] at hs
    · rw [hg]
      refine ⟨?_, .inr ⟨c, rfl, ?_⟩⟩
      · show u.width = e.width
        rw [hw]; exact hin.width
      · show e.dict ++ _ = u.dict ++ _
        rw [hd, he, hu]
  · obtain ⟨hplt, hdsz⟩ := hrun.within p hp
    have hsize : edict.length = u.dictSize + 1 := by rw [he]; simp [State.dictSize]
    obtain ⟨seq, bytes, first, hwb, hstep⟩ := wordStep_late c p out hr.dict hp hplt (by omega) hout hlen
    rw [he] at hl
    obtain ⟨hb, hf⟩ := wordBytes_lockstep hwb hl hv
    have ht : bytes.take (outputRoom u) = l.reverse := by
      rw [hb]; exact List.take_of_length_le (by simpa using hlroom)
    rw [ht, hf] at hstep
    have h4096 : u.dictSize < 4096 := by have := hdsz.1; have := (width_pow u.width).2; omega
    rcases decUpdate_cases p (beforeUpdate c seq (out ++ l.reverse) v u) hp h4096 with
      ⟨hw12, hs, hup⟩ | ⟨hs, w, hw', hup⟩ | ⟨hs, hup⟩
    · replace hs : u.dictSize + 1 = 4096 := hs
      replace hw12 : u.width = .w12 := hw12
      refine ⟨_, hstep.trans hup, rfl, h32.symm, fun e value hd hw => ?_⟩
      rcases encGrowAdd_cases c value e (by rw [State.dictSize, hd, hw]; exact hsz.1) with ⟨_, _, hg⟩ | ⟨hs', w, hwb', _⟩ | ⟨hs', _⟩
      · rw [hg]; exact ⟨rfl, .inl ⟨rfl, rfl, rfl⟩⟩
      · rw [hw, ← hin.width, hw12] at hwb'; cases w <;> simp [Width.bits] at hwb'
      · rw [State.dictSize, hd, hsize, hw, ← hin.width, hw12] at hs'; simp [Width.bits] at hs'; omega
    · replace hs : u.dictSize + 1 = 2 ^ u.width.bits := hs
      replace hw' : w.bits = u.width.bits + 1 := hw'
      refine ⟨_, hstep.trans hup, rfl, h32.symm, fun e value hd hw => ?_⟩
      rcases encGrowAdd_cases c value e (by rw [State.dictSize, hd, hw]; exact hsz.1) with ⟨hw12, _⟩ | ⟨_, w', hwb', hg⟩ | ⟨hs', _⟩
      · rw [hw, ← hin.width] at hw12; rw [hw12] at hw'; cases w <;> simp [Width.bits] at hw'
      · rw [hg]
        refine ⟨?_, .inr ⟨c, rfl, ?_⟩⟩
        · show w = w'
          refine width_bits_injective ?_
          rw [hw', hwb', hw, hin.width]
        · show e.dict ++ _ = (u.dict ++ _) ++ _
          rw [hd, he]; rfl
      · rw [State.dictSize, hd, hsize, hw, ← hin.width] at hs'; omega
    · replace hs : u.dictSize + 1 ≠ 2 ^ u.width.bits := hs
      refine ⟨_, hstep.trans hup, rfl, h32.symm, fun e value hd hw => ?_⟩
      rcases encGrowAdd_cases c value e (by rw [State.dictSize, hd, hw]; exact hsz.1) with ⟨hw12, hs', _⟩ | ⟨hs', _⟩ | ⟨_, hg⟩
      · rw [State.dictSize, hd, hsize] at hs'
        rw [hw, ← hin.width] at hw12; rw [hw12] at hs; simp [Width.bits] at hs; omega
      · rw [State.dictSize, hd, hsize, hw, ← hin.width] at hs'; omega
      · rw [hg]
        refine ⟨?_, .inr ⟨c, rfl, ?_⟩⟩
        · show u.width = e.width
          rw [hw]; exact hin.width
        · show e.dict ++ _ = (u.dict ++ _) ++ _
          rw [hd, he]; rfl

end Sys2Proof.Machine
end

