-- ==== Sys2Proof/Laws/PerInstr.lean ====
section
/-! SUPPORT. Statements made per instruction, as syntax. `EncodedLength`: an instruction's words have exactly the length of its
format (30_encoding.md rules R71, R81), and a named operation has none (R82). -/

namespace Sys2Proof

/-- R71, R81, R82: the length in bits of each row's format, `none` for a named operation. -/
def formatLength : Instr → Option Nat
  | .lzwEncode => none
  | .lzwDecode => none
  | .bwInit => none
  | .bwAppendbit _ => none
  | .bwAppendbits _ _ => none
  | .bwBytecount => none
  | .bwBitcount => none
  | .bwRelease => none
  | .brOpen _ _ => none
  | .brReadbit => none
  | .brReadbits _ => none
  | .brEos => none
  | .dictReset => none
  | .dictFind _ _ => none
  | .dictAdd _ _ => none
  | .dictGrow => none
  | .dictSeq _ => none
  | .encInit => none
  | .encExtend _ => some 8
  | .encEmit _ => some 8
  | .encFinish => none
  | .decInit => none
  | .decFetch => none
  | .decLit => none
  | .decKwk => none
  | .decRef => none
  | .decWrite _ => none
  | .decUpdate => none
  | .cw9Lit _ => some 9
  | .cw9Badlit _ => some 9
  | .cw9Ref _ => some 9
  | .cw9Kwk _ => some 9
  | .cw9Oor _ => some 9
  | .cw10Ref _ => some 10
  | .cw10Kwk _ => some 10
  | .cw10Oor _ => some 10
  | .cw11Ref _ => some 11
  | .cw11Kwk _ => some 11
  | .cw11Oor _ => some 11
  | .cw12Ref _ => some 12
  | .cw12Kwk _ => some 12
  | .cw12Oor _ => some 12

namespace Laws.EncodedLength

/-- The words of an instruction have the length of its format. -/
def Statement (i : Instr) : Prop := (encode i).map List.length = formatLength i

theorem lzwEncode : Statement .lzwEncode := rfl
theorem lzwDecode : Statement .lzwDecode := rfl
theorem bwInit : Statement .bwInit := rfl
theorem bwAppendbit (bit : Bool) : Statement (.bwAppendbit bit) := rfl
theorem bwAppendbits (value width : Nat) : Statement (.bwAppendbits value width) := rfl
theorem bwBytecount : Statement .bwBytecount := rfl
theorem bwBitcount : Statement .bwBitcount := rfl
theorem bwRelease : Statement .bwRelease := rfl
theorem brOpen (byteCapacity validBits : Count32) : Statement (.brOpen byteCapacity validBits) := rfl
theorem brReadbit : Statement .brReadbit := rfl
theorem brReadbits (width : Nat) : Statement (.brReadbits width) := rfl
theorem brEos : Statement .brEos := rfl
theorem dictReset : Statement .dictReset := rfl
theorem dictFind (parent : OptCode) (value : Symbol) : Statement (.dictFind parent value) := rfl
theorem dictAdd (parent : Code) (value : Symbol) : Statement (.dictAdd parent value) := rfl
theorem dictGrow : Statement .dictGrow := rfl
theorem dictSeq (code : Code) : Statement (.dictSeq code) := rfl
theorem encInit : Statement .encInit := rfl
theorem encExtend (value : Symbol) : Statement (.encExtend value) := by simp [Statement, encode, formatLength]
theorem encEmit (value : Symbol) : Statement (.encEmit value) := by simp [Statement, encode, formatLength]
theorem encFinish : Statement .encFinish := rfl
theorem decInit : Statement .decInit := rfl
theorem decFetch : Statement .decFetch := rfl
theorem decLit : Statement .decLit := rfl
theorem decKwk : Statement .decKwk := rfl
theorem decRef : Statement .decRef := rfl
theorem decWrite (bytes : List Symbol) : Statement (.decWrite bytes) := rfl
theorem decUpdate : Statement .decUpdate := rfl
theorem cw9Lit (v : Symbol) : Statement (.cw9Lit v) := by simp [Statement, encode, formatLength]
theorem cw9Badlit (c : BitVec 8) : Statement (.cw9Badlit c) := by simp [Statement, encode, formatLength]
theorem cw9Ref (c : Code) : Statement (.cw9Ref c) := by simp [Statement, encode, formatLength]
theorem cw9Kwk (c : Code) : Statement (.cw9Kwk c) := by simp [Statement, encode, formatLength]
theorem cw9Oor (c : Code) : Statement (.cw9Oor c) := by simp [Statement, encode, formatLength]
theorem cw10Ref (c : Code) : Statement (.cw10Ref c) := by simp [Statement, encode, formatLength]
theorem cw10Kwk (c : Code) : Statement (.cw10Kwk c) := by simp [Statement, encode, formatLength]
theorem cw10Oor (c : Code) : Statement (.cw10Oor c) := by simp [Statement, encode, formatLength]
theorem cw11Ref (c : Code) : Statement (.cw11Ref c) := by simp [Statement, encode, formatLength]
theorem cw11Kwk (c : Code) : Statement (.cw11Kwk c) := by simp [Statement, encode, formatLength]
theorem cw11Oor (c : Code) : Statement (.cw11Oor c) := by simp [Statement, encode, formatLength]
theorem cw12Ref (c : Code) : Statement (.cw12Ref c) := by simp [Statement, encode, formatLength]
theorem cw12Kwk (c : Code) : Statement (.cw12Kwk c) := by simp [Statement, encode, formatLength]
theorem cw12Oor (c : Code) : Statement (.cw12Oor c) := by simp [Statement, encode, formatLength]

end Laws.EncodedLength

end Sys2Proof
end

