-- ==== Sys2Proof/Laws/RoundTrip.lean ====
section
/-! SUPPORT. The words an encoder has emitted, decoded: the decoder reaches the state that is in step with the encoder (R138,
R157). -/

namespace Sys2Proof.Machine

/-! ## The decoder on a stream -/

/-- The first bits of SRC are `bits` (R72). -/
def StreamPrefix (bits : List Bool) (u : State) : Prop := SrcHolds 0 bits u

theorem StreamPrefix.left {xs ys : List Bool} {u : State} (h : StreamPrefix (xs ++ ys) u) : StreamPrefix xs u :=
  fun j b hj => h j b (by rw [List.getElem?_append_left (List.getElem?_eq_some_iff.mp hj).1]; exact hj)

/-- A decode just started (R146). -/
def FreshDecode (u : State) : Prop :=
  ∃ s : State, s.pCompBits.toNat ≤ 8 * s.pCompBytes.toNat ∧ u = decFresh (beginCommand .decode s)

/-- From `u0` the loop of R156 comes to `u`, with n stream bits consumed and the bytes `out` written. -/
structure DecodedTo (u0 : State) (n : Nat) (out : List Symbol) (u : State) : Prop where
  loop : ∃ k, k ≤ n ∧ ∀ m, decLoop (k + m) u0 = decLoop m u
  run : Running .decode u
  same : HostSame u0 u
  valid : u.brValidBits = u0.brValidBits
  pos : u.brBitsRead.toNat = n
  holds : DstHolds out u
  count : out.length = u.decBytesWritten.toNat

theorem FreshDecode.decodedTo {u0 : State} (h : FreshDecode u0) : DecodedTo u0 0 [] u0 := by
  obtain ⟨s, hp, rfl⟩ := h
  exact ⟨⟨0, Nat.le_refl 0, fun m => by rw [Nat.zero_add]⟩, decStart_running s hp, .refl _, rfl, rfl, rfl, rfl⟩

theorem decContinue_true (s : State) (h1 : s.brBitsRead.toNat < s.brValidBits.toNat)
    (h2 : s.decBytesWritten.toNat < s.pExpectedBytes.toNat) : decContinue s = true := by
  simp only [decContinue, endOfStream, Bool.and_eq_true, Bool.not_eq_true', decide_eq_false_iff_not, decide_eq_true_eq]
  omega

/-- The decoder step on a whole word of the stream (R72, R148). -/
theorem decStep_word {u : State} {c : Code} (hc : c.toNat < 2 ^ u.width.bits)
    (hbits : SrcHolds u.brBitsRead.toNat (valueBits u.width.bits c.toNat) u)
    (hvalid : u.brBitsRead.toNat + u.width.bits ≤ u.brValidBits.toNat) : decStep u = wordStep c u := by
  have hlen : fetchLength u.width.bits u = u.width.bits := by simp only [fetchLength]; omega
  have hn : nextWordBits u = some (valueBits u.width.bits c.toNat) := by
    rw [nextWordBits, hlen]
    exact srcBits_of_srcHolds _ _ _ u (valueBits_length _ _) hbits
  have hcode : fetchedCode (bitsValue (valueBits u.width.bits c.toNat)) = c := by
    rw [bitsValue_valueBits_of_lt _ _ hc]
    exact BitVec.eq_of_toNat_eq (by simp [fetchedCode])
  rw [decStep_eq, hn]
  simp only [hcode]

/-- One more word. -/
theorem DecodedTo.word {u0 u u' : State} {n : Nat} {out out' : List Symbol} {c : Code} (h : DecodedTo u0 n out u)
    (hcont : decContinue u = true) (hstep : decStep u = wordStep c u) (hword : wordStep c u = .ret () u')
    (hvalid : n + u.width.bits ≤ u0.brValidBits.toNat) (hout : DstHolds out' u') (hlen : out'.length = u'.decBytesWritten.toNat) :
    DecodedTo u0 (n + u.width.bits) out' u' := by
  obtain ⟨k, hk, hloop⟩ := h.loop
  obtain ⟨hv, hp⟩ := wordStep_reader c u u' hword
  have hfetch := fetch_position u.width.bits u
  have hlen' : fetchLength u.width.bits u = u.width.bits := by
    have := h.pos; have := h.valid
    simp only [fetchLength]; rw [h.valid, h.pos]; omega
  have hw := width_bits_pos u.width
  have hsafe := (decStep_safe h.run hcont).1
  rw [hstep, hword] at hsafe
  refine ⟨⟨k + 1, by omega, fun m => ?_⟩, hsafe.1, h.same.trans hsafe.2.1, hv.trans h.valid, ?_, hout, hlen⟩
  · rw [show k + 1 + m = k + (m + 1) by omega, hloop (m + 1), decLoop, if_pos hcont, hstep, hword]; rfl
  · rw [hp, hfetch, hlen', h.pos]

/-! ## The encoder -/

/-- SRC holds the input (R130). -/
def InputIs (input : List Symbol) (e : State) : Prop :=
  e.pInputBytes.toNat = input.length ∧ ∀ a, a < input.length → e.src.read a = input[a]?

/-- What the encoder has emitted so far, decoded (R138, R157): `written` is in the writer; the current match, behind the bytes
that the emitted words decode to, is the input read so far; and every decode of a stream that begins with `written` comes to
a state in step with the encoder. -/
structure Tracks (input : List Symbol) (written : List Bool) (e : State) : Prop where
  writer : WriterHolds written e
  start : e.encCode = none → written = []
  pending : ∀ c, e.encCode = some c → ∃ l first out, SeqRev e.dict c l ∧ l.getLast? = some first ∧
    out ++ l.reverse = input.take e.encInPos.toNat ∧
    ∀ u0, FreshDecode u0 → StreamPrefix written u0 → written.length ≤ u0.brValidBits.toNat →
      input.length ≤ u0.pExpectedBytes.toNat →
      ∃ u, DecodedTo u0 written.length out u ∧ InStep e.dict e.width first u

theorem encStart_tracks (input : List Symbol) (s : State) : Tracks input [] (encInit (beginCommand .encode s)) :=
  ⟨⟨rfl, rfl⟩, fun _ => rfl, nofun⟩

/-- The word that ENC.code is, decoded: the decoder writes the current match (R157). -/
theorem Tracks.emitted {input : List Symbol} {written : List Bool} {e : State} (h : Tracks input written e)
    (hr : Running .encode e) {c : Code} (hc : e.encCode = some c) {u0 : State} (hu : FreshDecode u0)
    (hs : StreamPrefix (written ++ valueBits e.width.bits c.toNat) u0)
    (hv : (written ++ valueBits e.width.bits c.toNat).length ≤ u0.brValidBits.toNat)
    (hn : input.length ≤ u0.pExpectedBytes.toNat) :
    ∃ u, DecodedTo u0 (written ++ valueBits e.width.bits c.toNat).length (input.take e.encInPos.toNat) u ∧
      ∀ (e' : State) (value : Symbol), e'.dict = e.dict → e'.width = e.width →
        InStep (encGrowAdd c value e').dict (encGrowAdd c value e').width value u := by
  obtain ⟨l, first, out, hl, hf, hinput, hall⟩ := h.pending c hc
  simp only [List.length_append, valueBits_length] at hv ⊢
  obtain ⟨u, hd, hin⟩ := hall u0 hu hs.left (by omega) hn
  have hrun := hr.encoder rfl
  have hlt := hrun.code c hc
  have hlen : out.length + l.length ≤ input.length := by
    have := congrArg List.length hinput
    simp only [List.length_append, List.length_reverse, List.length_take] at this; omega
  have hlpos : 0 < l.length := List.length_pos_of_ne_nil hl.ne_nil
  have hpe : u.pExpectedBytes = u0.pExpectedBytes := hd.same.pExpectedBytes
  have hsrc : u.src = u0.src := hd.same.src
  have hw := width_bits_pos e.width
  have hcont : decContinue u = true := decContinue_true u (by rw [hd.pos, hd.valid]; omega) (by rw [← hd.count, hpe]; omega)
  obtain ⟨u', hstep, hout, hcount, hin'⟩ :=
    lockstep_word hd.run hin hrun.sizes hlt hl hf hd.holds hd.count (by rw [hpe]; omega)
  have hword : decStep u = wordStep c u := by
    refine decStep_word ?_ ?_ ?_
    · rw [hin.width]; exact Nat.lt_of_lt_of_le hlt hrun.sizes.1
    · intro j b hj
      rw [hin.width] at hj
      have hjl : j < e.width.bits := by simpa using (List.getElem?_eq_some_iff.mp hj).1
      have := hs (written.length + j) b (by
        rw [List.getElem?_append_right (by omega), Nat.add_sub_cancel_left]; exact hj)
      rw [Nat.zero_add] at this
      rw [hsrc, hd.pos]; exact this
    · rw [hd.pos, hd.valid, hin.width]; omega
  have := hd.word hcont hword hstep (by rw [hin.width]; omega) hout hcount
  rw [hin.width, hinput] at this
  exact ⟨u', this, hin'⟩

theorem take_next {input : List Symbol} {n : Nat} {v : Symbol} (h : input[n]? = some v) :
    input.take (n + 1) = input.take n ++ [v] := by
  rw [List.take_add_one, h]; rfl

/-- One input byte keeps the encoder tracked. -/
theorem Tracks.symbol {input : List Symbol} {written : List Bool} {e e' : State} (h : Tracks input written e)
    (hr : Running .encode e) (hcont : encContinue e = true) {v : Symbol} (hv : input[e.encInPos.toNat]? = some v)
    (hstep : encSymbol v e = .ret () e') : ∃ written', Tracks input written' e' := by
  have hrun := hr.encoder rfl
  have hnext := (nextInput_pos e hcont).1
  rw [nextInput_encInPos] at hnext
  unfold encSymbol at hstep
  cases hf : dictFind e.encCode v e with
  | some idx =>
    rw [hf] at hstep
    obtain ⟨_, rfl⟩ := Flow.ret.inj hstep
    refine ⟨written, h.writer, nofun, fun c hc => ?_⟩
    simp only [encExtend_encCode, Option.some.injEq] at hc
    subst hc
    obtain ⟨he, _⟩ := dictFind_some hr.dict hf
    cases hcode : e.encCode with
    | none =>
      rw [hcode] at he
      obtain ⟨hroot, hw9, _⟩ := hrun.fresh hcode
      have hpos : e.encInPos.toNat = 0 := by rw [hrun.nil.mp hcode]; rfl
      refine ⟨[v], v, [], .root idx _ he rfl, rfl, ?_, fun u0 hu _ _ _ => ?_⟩
      · show [] ++ [v].reverse = input.take (BitVec.ofNat 32 (e.encInPos.toNat + 1)).toNat
        rw [hnext, take_next hv, hpos]; rfl
      · rw [h.start hcode]
        obtain ⟨s, _, rfl⟩ := hu
        refine ⟨_, FreshDecode.decodedTo ⟨s, ‹_›, rfl⟩, ?_, .inl ⟨rfl, hroot, rfl⟩⟩
        show Width.w9 = e.width
        exact hw9.symm
    | some code =>
      rw [hcode] at he
      obtain ⟨l, first, out, hl, hfirst, hinput, hall⟩ := h.pending code hcode
      refine ⟨v :: l, first, out, .dynamic idx code _ l he rfl hl, ?_, ?_, hall⟩
      · rw [List.getLast?_cons, hfirst]; rfl
      · show out ++ (v :: l).reverse = input.take (BitVec.ofNat 32 (e.encInPos.toNat + 1)).toNat
        rw [hnext, take_next hv, ← hinput]; simp
  | none =>
    rw [hf] at hstep
    cases hcode : e.encCode with
    | none => rw [hcode, dictFind_nil hr.dict] at hf; cases hf
    | some code =>
      have hemit : encEmit v e = (bwAppendBits code.toNat e.width.bits e).bind fun _ t =>
          .ret () (nextInput { encGrowAdd code v t with encCode := some (rootCode v) }) := by rw [encEmit, hcode]
      replace hstep : encEmit v e = .ret () e' := hstep
      rw [hemit] at hstep
      rcases bwAppendBits_total code.toNat e.width.bits written e h.writer with ⟨_, hb, hw⟩ | ⟨_, _, _, _, _, _, hb, _⟩
      · rw [hb] at hstep
        obtain ⟨_, rfl⟩ := Flow.ret.inj hstep
        obtain ⟨d, w, hg⟩ := encGrowAdd_frame code v (withBits (written ++ valueBits e.width.bits code.toNat) e)
        have hwf := encGrowAdd_wf (s := withBits (written ++ valueBits e.width.bits code.toNat) e) hr.dict hrun.sizes hrun.distinct
          code v (hrun.code code hcode) (by rw [hcode] at hf; exact dictFind_none.mp hf)
        refine ⟨written ++ valueBits e.width.bits code.toNat, ?_, nofun, fun c hc => ?_⟩
        · rw [hg]; exact hw
        · simp only [nextInput_encCode, Option.some.injEq] at hc
          subst hc
          refine ⟨[v], v, input.take e.encInPos.toNat, hwf.1.seqRev_root v, rfl, ?_, fun u0 hu hs hval hexp => ?_⟩
          · rw [hg]
            show _ = input.take (BitVec.ofNat 32 (e.encInPos.toNat + 1)).toNat
            rw [hnext, take_next hv]; rfl
          · obtain ⟨u, hd, hin⟩ := h.emitted hr hcode hu hs hval hexp
            exact ⟨u, hd, hin (withBits (written ++ valueBits e.width.bits code.toNat) e) v rfl rfl⟩
      · rw [hb] at hstep; cases hstep

theorem InputIs.same {input : List Symbol} {e e' : State} (h : InputIs input e) (hs : HostSame e e') : InputIs input e' :=
  ⟨by rw [hs.pInputBytes]; exact h.1, fun a ha => by rw [hs.src]; exact h.2 a ha⟩

/-- The scan keeps the encoder tracked (R136). -/
theorem Tracks.scan (n : Nat) {input : List Symbol} {written : List Bool} {e e' : State} (h : Tracks input written e)
    (hr : Running .encode e) (hi : InputIs input e) (hscan : encScan n e = .ret () e') :
    ∃ written', Tracks input written' e' := by
  induction n generalizing e written with
  | zero => obtain ⟨_, rfl⟩ := Flow.ret.inj hscan; exact ⟨written, h⟩
  | succ n ih =>
    rw [encScan] at hscan
    cases hc : encContinue e with
    | false => rw [hc, if_neg (by simp)] at hscan; obtain ⟨_, rfl⟩ := Flow.ret.inj hscan; exact ⟨written, h⟩
    | true =>
      rw [hc, if_pos rfl] at hscan
      have hsafe := encByte_safe hr hc
      have hlt : e.encInPos.toNat < e.pInputBytes.toNat := by simpa [encContinue] using hc
      rw [hi.1] at hlt
      have hbyte : encByte e = encSymbol input[e.encInPos.toNat] e := by
        rw [encByte, inputByte, hi.2 _ hlt, List.getElem?_eq_getElem hlt]
      cases hb : encByte e with
      | stop r => rw [hb] at hscan; cases hscan
      | raised t => rw [hb] at hscan; cases hscan
      | ret a t =>
        rw [hb] at hscan hsafe
        obtain ⟨written', ht⟩ := h.symbol hr hc (List.getElem?_eq_getElem hlt) (hbyte.symm.trans hb)
        exact ih ht hsafe.1 (hi.same hsafe.2.1) hscan

/-- The end of the encoder's work (R134): what it has written, decoded, is the input. -/
theorem Tracks.finish {input : List Symbol} {written : List Bool} {e e' : State} (h : Tracks input written e)
    (hr : Running .encode e) (hi : InputIs input e) (hcont : encContinue e = false) (hfin : encFinish e = .ret () e') :
    ∃ written', e' = withBits written' e ∧ WriterHolds written' e' ∧
      ∀ u0, FreshDecode u0 → StreamPrefix written' u0 → written'.length = u0.brValidBits.toNat →
        input.length = u0.pExpectedBytes.toNat →
        ∃ u, DecodedTo u0 written'.length input u ∧ decContinue u = false := by
  have hrun := hr.encoder rfl
  have hpos : e.encInPos.toNat = input.length := by
    have h1 : e.pInputBytes.toNat ≤ e.encInPos.toNat := by simpa [encContinue] using hcont
    have h2 := hrun.pos
    have := hi.1; omega
  have hstop : ∀ {u0 u : State} {n : Nat} {out : List Symbol}, DecodedTo u0 n out u → n = u0.brValidBits.toNat →
      decContinue u = false := fun hd hn => decContinue_false _ (by rw [hd.valid, hd.pos, hn])
  unfold encFinish at hfin
  cases hcode : e.encCode with
  | none =>
    rw [hcode] at hfin
    obtain ⟨_, rfl⟩ := Flow.ret.inj hfin
    have hw := h.start hcode
    subst hw
    have hz : input = [] := List.eq_nil_of_length_eq_zero (by rw [← hpos, hrun.nil.mp hcode]; rfl)
    refine ⟨[], (withBits_self [] e h.writer).symm, h.writer, fun u0 hu _ hv _ => ?_⟩
    rw [hz]
    exact ⟨u0, hu.decodedTo, hstop hu.decodedTo hv⟩
  | some c =>
    rw [hcode] at hfin
    replace hfin : bwAppendBits c.toNat e.width.bits e = .ret () e' := hfin
    rcases bwAppendBits_total c.toNat e.width.bits written e h.writer with ⟨_, hb, hw⟩ | ⟨_, _, _, _, _, _, hb, _⟩
    · rw [hb] at hfin
      obtain ⟨_, rfl⟩ := Flow.ret.inj hfin
      refine ⟨_, rfl, hw, fun u0 hu hs hv hexp => ?_⟩
      obtain ⟨u, hd, _⟩ := h.emitted hr hcode hu hs (Nat.le_of_eq hv) (Nat.le_of_eq hexp)
      rw [hpos, List.take_length] at hd
      exact ⟨u, hd, hstop hd hv⟩
    · rw [hb] at hfin; cases hfin

/-- A loop that has come to its end stays there, however many passes are allowed (R147, R155). -/
theorem DecodedTo.ends {u0 u : State} {n : Nat} {out : List Symbol} (h : DecodedTo u0 n out u) (hc : decContinue u = false)
    (m : Nat) (hm : n ≤ m) : decLoop m u0 = .ret () u := by
  obtain ⟨k, hk, hloop⟩ := h.loop
  rw [show m = k + (m - k) by omega, hloop]
  cases m - k with
  | zero => rfl
  | succ j => rw [decLoop, hc, if_neg (by simp)]

end Sys2Proof.Machine
end

