-- ==== Sys2Proof/Laws/Truncation.lean ====
section
/-! SUPPORT. Truncated output (44_decoder.md rule R159 item a): with a smaller P_EXPECTED_BYTES the decoder goes through the
same steps until its output is full. -/

namespace Sys2Proof.Machine

/-- Two decodes that differ in their output and its capacity only. -/
structure SameButOutput (s u : State) : Prop where
  dict : s.dict = u.dict
  width : s.width = u.width
  prev : s.decPrevCode = u.decPrevCode
  pos : s.brBitsRead = u.brBitsRead
  valid : s.brValidBits = u.brValidBits
  src : s.src = u.src

theorem SameButOutput.fetched {s u : State} (h : SameButOutput s u) (c : Code) :
    (wordFetched c s).brBitsRead = (wordFetched c u).brBitsRead := by
  show BitVec.ofNat 32 (s.brBitsRead.toNat + fetchLength s.width.bits s) =
    BitVec.ofNat 32 (u.brBitsRead.toNat + fetchLength u.width.bits u)
  simp only [fetchLength, h.pos, h.width, h.valid]

/-- UPDATE on two such states, after the same sequence (R154). -/
theorem decUpdate_sameButOutput (c p : Code) (seq seq' outS outU : List Symbol) (first : Symbol) {s u s' : State}
    (h : SameButOutput s u) (hp : s.decPrevCode = some p) (hsz : s.dictSize < 4096)
    (hs : decUpdate (beforeUpdate c seq outS first s) = .ret () s') :
    DstHolds outS s' ∧ ∃ u', decUpdate (beforeUpdate c seq' outU first u) = .ret () u' ∧ SameButOutput s' u' ∧ DstHolds outU u' := by
  have hsz' : u.dictSize < 4096 := by unfold State.dictSize at *; rw [← h.dict]; exact hsz
  have hsize : s.dictSize = u.dictSize := by unfold State.dictSize; rw [h.dict]
  have hpos := h.fetched c
  rcases decUpdate_cases p (beforeUpdate c seq outS first s) hp hsz with ⟨a1, a2, ha⟩ | ⟨a1, w, a2, ha⟩ | ⟨a1, ha⟩ <;>
    rcases decUpdate_cases p (beforeUpdate c seq' outU first u) (h.prev ▸ hp) hsz' with ⟨b1, b2, hb⟩ | ⟨b1, w', b2, hb⟩ | ⟨b1, hb⟩ <;>
    replace a1 := a1 <;> replace b1 := b1 <;> rw [ha] at hs <;> obtain ⟨_, rfl⟩ := Flow.ret.inj hs
  · exact ⟨rfl, _, hb, ⟨rfl, rfl, rfl, hpos, h.valid, h.src⟩, rfl⟩
  · replace a1 : s.width = .w12 := a1
    replace b2 : w'.bits = u.width.bits + 1 := b2
    rw [← h.width, a1] at b2; cases w' <;> simp [Width.bits] at b2
  · replace a1 : s.width = .w12 := a1
    replace a2 : s.dictSize + 1 = 4096 := a2
    replace b1 : u.dictSize + 1 ≠ 2 ^ u.width.bits := b1
    rw [← h.width, a1] at b1; simp [Width.bits] at b1; omega
  · replace b1 : u.width = .w12 := b1
    replace a2 : w.bits = s.width.bits + 1 := a2
    rw [h.width, b1] at a2; cases w <;> simp [Width.bits] at a2
  · refine ⟨rfl, _, hb, ⟨?_, ?_, rfl, hpos, h.valid, h.src⟩, rfl⟩
    · show s.dict ++ _ = u.dict ++ _
      rw [h.dict]; rfl
    · show w = w'
      refine width_bits_injective (a2.trans (Eq.trans ?_ b2.symm))
      show s.width.bits + 1 = u.width.bits + 1
      rw [h.width]
  · replace a1 : s.dictSize + 1 = 2 ^ s.width.bits := a1
    replace b1 : u.dictSize + 1 ≠ 2 ^ u.width.bits := b1
    rw [← h.width] at b1; omega
  · replace b1 : u.width = .w12 := b1
    replace b2 : u.dictSize + 1 = 4096 := b2
    replace a1 : s.dictSize + 1 ≠ 2 ^ s.width.bits := a1
    rw [h.width, b1] at a1; simp [Width.bits] at a1; omega
  · replace b1 : u.dictSize + 1 = 2 ^ u.width.bits := b1
    replace a1 : s.dictSize + 1 ≠ 2 ^ s.width.bits := a1
    rw [h.width] at a1; omega
  · refine ⟨rfl, _, hb, ⟨?_, h.width, rfl, hpos, h.valid, h.src⟩, rfl⟩
    show s.dict ++ _ = u.dict ++ _
    rw [h.dict]; rfl

theorem WordBytes.unique {dict : List Entry} {p c : Code} {b b' : List Symbol} {f f' : Symbol} (h : WordBytes dict p c b f)
    (h' : WordBytes dict p c b' f') : b = b' ∧ f = f' := by
  have hu : ∀ {x : Code} {xs ys : List Symbol}, IsSeq dict x xs → IsSeq dict x ys → xs = ys := fun h1 h2 =>
    List.reverse_injective (h1.unique h2)
  rcases h with ⟨h1, h2, h3⟩ | ⟨h1, s, h2, h3, rfl⟩ <;> rcases h' with ⟨g1, g2, g3⟩ | ⟨g1, s', g2, g3, rfl⟩
  · obtain rfl := hu h2 g2
    exact ⟨rfl, Option.some.inj (h3.symm.trans g3)⟩
  · omega
  · omega
  · obtain rfl := hu h2 g2
    obtain rfl := Option.some.inj (h3.symm.trans g3)
    exact ⟨rfl, rfl⟩

/-- One word on two such states: the same bytes go out, as far as each has room. -/
theorem wordStep_sameButOutput (c : Code) {s u s' : State} {outS outU : List Symbol} (h : SameButOutput s u)
    (hs : DecRunning s) (hwf : DictWf s.dict) (h1 : DstHolds outS s)
    (l1 : outS.length = s.decBytesWritten.toNat) (h2 : DstHolds outU u) (l2 : outU.length = u.decBytesWritten.toNat)
    (hstep : wordStep c s = .ret () s') :
    ∃ bytes : List Symbol, DstHolds (outS ++ bytes.take (outputRoom s)) s' ∧ ∃ u', wordStep c u = .ret () u' ∧ SameButOutput s' u' ∧
      DstHolds (outU ++ bytes.take (outputRoom u)) u' := by
  have hpos := h.fetched c
  cases hp : s.decPrevCode with
  | none =>
    by_cases hc : c.toNat < 256
    · have e1 := wordStep_lit c outS hp hc h1 l1
      have e2 := wordStep_lit c outU (h.prev ▸ hp) hc h2 l2
      rw [e1] at hstep
      obtain ⟨_, rfl⟩ := Flow.ret.inj hstep
      exact ⟨[codeSymbol c], rfl, _, e2, ⟨h.dict, h.width, rfl, hpos, h.valid, h.src⟩, rfl⟩
    · rw [wordStep, decClassStep] at hstep
      simp only [classOf_wordFetched, wordFetched_decCode, (classOf_badlit s c).mpr ⟨hp, by omega⟩] at hstep
      cases hstep
  | some p =>
    have hw := hs.within p hp
    have hpow := width_pow s.width
    by_cases hc : c.toNat ≤ s.dictSize
    · obtain ⟨seq, bytes, first, w1, e1⟩ := wordStep_late c p outS hwf hp hw.1 hc h1 l1
      have hd : u.dict = s.dict := h.dict.symm
      obtain ⟨seq', bytes', first', w2, e2⟩ := wordStep_late c p outU (u := u) (by rw [hd]; exact hwf) (h.prev ▸ hp)
        (by unfold State.dictSize at *; rw [hd]; exact hw.1) (by unfold State.dictSize at *; rw [hd]; exact hc) h2 l2
      rw [hd] at w2
      obtain ⟨rfl, rfl⟩ := w1.unique w2
      rw [e1] at hstep
      have h4096 : s.dictSize < 4096 := by have := hw.2.1; omega
      obtain ⟨g1, u', g2, g3, g4⟩ := decUpdate_sameButOutput c p seq seq' _ (outU ++ bytes.take (outputRoom u)) first h hp h4096 hstep
      exact ⟨bytes, g1, u', e2.trans g2, g3, g4⟩
    · rw [wordStep, decClassStep] at hstep
      simp only [classOf_wordFetched, wordFetched_decCode, (classOf_oor s c).mpr ⟨by rw [hp]; simp, by omega⟩] at hstep
      cases hstep

/-- The output only grows (R28, R153). -/
theorem decLoop_extends (m : Nat) {s t : State} {out : List Symbol} (hr : Running .decode s) (hout : DstHolds out s)
    (hlen : out.length = s.decBytesWritten.toNat) (h : decLoop m s = .ret () t) : ∃ more, DstHolds (out ++ more) t := by
  induction m generalizing s out with
  | zero => obtain ⟨_, rfl⟩ := Flow.ret.inj h; exact ⟨[], by rw [List.append_nil]; exact hout⟩
  | succ m ih =>
    rw [decLoop] at h
    cases hc : decContinue s with
    | false => rw [hc, if_neg (by simp)] at h; obtain ⟨_, rfl⟩ := Flow.ret.inj h; exact ⟨[], by rw [List.append_nil]; exact hout⟩
    | true =>
      rw [hc, if_pos rfl] at h
      have hsafe := (decStep_safe hr hc).1
      cases hb : decStep s with
      | stop r => rw [hb] at h; cases h
      | raised v => rw [hb] at h; cases h
      | ret a v =>
        rw [hb] at h hsafe
        rw [decStep_eq] at hb
        cases hn : nextWordBits s with
        | none => rw [hn] at hb; cases hb
        | some bits =>
          rw [hn] at hb
          have hd := hr.decoder rfl
          obtain ⟨bytes, g1, _⟩ := wordStep_sameButOutput _ (h := ⟨rfl, rfl, rfl, rfl, rfl, rfl⟩) hd hr.dict hout hlen hout hlen hb
          obtain ⟨out', d1, d2⟩ := (hsafe.1.decoder rfl).dst
          obtain rfl := Memory.ofBytes_injective _ _ (d1.symm.trans g1)
          obtain ⟨more, hm⟩ := ih hsafe.1 g1 d2 h
          exact ⟨_, by rw [List.append_assoc] at hm; exact hm⟩

/-- R159 item a, on the loop of R156. -/
theorem decLoop_truncated (m : Nat) {s u t : State} {out : List Symbol} (h : SameButOutput s u) (hs : Running .decode s)
    (hu : Running .decode u) (hle : u.pExpectedBytes.toNat ≤ s.pExpectedBytes.toNat) (hout : DstHolds out s)
    (hlen : out.length = s.decBytesWritten.toNat) (houtU : DstHolds (out.take u.pExpectedBytes.toNat) u)
    (hend : decLoop m s = .ret () t) (hstop : s.brValidBits.toNat ≤ s.brBitsRead.toNat + m) :
    ∃ full v, DstHolds full t ∧ decLoop m u = .ret () v ∧ Running .decode v ∧ HostSame u v ∧
      DstHolds (full.take u.pExpectedBytes.toNat) v := by
  induction m generalizing s u out with
  | zero =>
    obtain ⟨_, rfl⟩ := Flow.ret.inj hend
    exact ⟨out, u, hout, rfl, hu, .refl u, houtU⟩
  | succ m ih =>
    obtain ⟨out', d1, d2⟩ := (hu.decoder rfl).dst
    obtain rfl := Memory.ofBytes_injective _ _ (d1.symm.trans houtU)
    rw [List.length_take] at d2
    by_cases hfull : u.pExpectedBytes.toNat ≤ out.length
    · have hc : decContinue u = false := by
        have : ¬u.decBytesWritten.toNat < u.pExpectedBytes.toNat := by omega
        simp [decContinue, this]
      obtain ⟨more, hm⟩ := decLoop_extends (m + 1) hs hout hlen hend
      refine ⟨out ++ more, u, hm, by rw [decLoop, hc, if_neg (by simp)], hu, .refl u, ?_⟩
      rw [List.take_append_of_le_length hfull]; exact houtU
    · have hcs : decContinue s = decContinue u := by
        have e1 : endOfStream s = endOfStream u := by simp only [endOfStream, h.pos, h.valid]
        have e2 : s.decBytesWritten.toNat < s.pExpectedBytes.toNat := by omega
        have e3 : u.decBytesWritten.toNat < u.pExpectedBytes.toNat := by omega
        simp only [decContinue, e1, e2, e3]
      rw [decLoop] at hend
      rw [decLoop]
      cases hc : decContinue s with
      | false =>
        rw [hc, if_neg (by simp)] at hend
        obtain ⟨_, rfl⟩ := Flow.ret.inj hend
        rw [← hcs, hc, if_neg (by simp)]
        exact ⟨out, u, hout, rfl, hu, .refl u, houtU⟩
      | true =>
        rw [hc, if_pos rfl] at hend
        rw [← hcs, hc, if_pos rfl]
        have hsafe := (decStep_safe hs hc).1
        cases hb : decStep s with
        | stop r => rw [hb] at hend; cases hend
        | raised v => rw [hb] at hend; cases hend
        | ret a s' =>
          have hmore := (decStep_safe hs hc).2.1 s' hb
          rw [hb] at hend hsafe
          rw [decStep_eq] at hb
          cases hn : nextWordBits s with
          | none => rw [hn] at hb; cases hb
          | some bits =>
            rw [hn] at hb
            have hnu : nextWordBits u = some bits := by
              rw [← hn]; unfold nextWordBits; simp only [fetchLength, h.src, h.pos, h.width, h.valid]
            have ht : out.take u.pExpectedBytes.toNat = out := List.take_of_length_le (by omega)
            rw [ht] at houtU
            obtain ⟨bytes, g1, u', g2, g3, g4⟩ := wordStep_sameButOutput _ h (hs.decoder rfl) hs.dict hout hlen
              houtU (by omega) hb
            have hub : decStep u = .ret () u' := by rw [decStep_eq, hnu]; exact g2
            have hsafeU := (decStep_safe hu (hcs ▸ hc)).1
            rw [hub] at hsafeU ⊢
            obtain ⟨outS, d3, d4⟩ := (hsafe.1.decoder rfl).dst
            obtain rfl := Memory.ofBytes_injective _ _ (d3.symm.trans g1)
            have hexpU := hsafeU.2.1.pExpectedBytes
            have hexpS := hsafe.2.1.pExpectedBytes
            have htake : (out ++ bytes.take (outputRoom s)).take u.pExpectedBytes.toNat =
                out ++ bytes.take (outputRoom u) := by
              have k1 : out.take u.pExpectedBytes.toNat = out := ht
              rw [List.take_append, k1, List.take_take]
              congr 2
              simp only [outputRoom]; omega
            obtain ⟨full, v, i1, i2, i3, i4, i5⟩ := ih g3 hsafe.1 hsafeU.1 (by rw [hexpU, hexpS]; exact hle) g1 d4
              (by rw [hexpU, htake]; exact g4) hend (by rw [hmore.1]; omega)
            exact ⟨full, v, i1, i2, i3, hsafeU.2.1.trans i4, by rw [hexpU] at i5; exact i5⟩

end Sys2Proof.Machine
end

