-- ==== Sys2Proof/Tests/Slice0.lean ====
section
/-! SUPPORT. The model's own tests: ill-formed terms that WellFormed refuses, the words of every encoded row written out from
30_encoding.md rule R71 and opcode_table.json, small steps with the expected values of 95_test_vectors.md and of the examples
in the rules, and for every statement with hypotheses a witness that meets them. -/

namespace Sys2Proof.Tests

open Sys2Proof Sys2Proof.Machine

-- One check after the other: each `decide +kernel` would else take a thread of its own.
set_option Elab.async false

/-- A part of the next state, where there is one. -/
def after {α : Type} (f : State → α) : Host.Outcome State Fault Refusal → Option α
  | .next s => some (f s)
  | .fault _ => none
  | .refused _ => none

/-- The reason of a refusal. -/
def refusal : Host.Outcome State Fault Refusal → Option Refusal
  | .next _ => none
  | .fault _ => none
  | .refused r => some r

/-- A dynamic entry. -/
def entry (parent : Code) (value : Symbol) : Entry := { parent := some parent, value := value }

/-- A table of DICT.size n, the entries behind the roots all (65, 66): only its size matters. -/
def tableOf (n : Nat) : List Entry := rootTable ++ List.replicate (n - 256) (entry 65 66)

/-- "AB" given to an encode: STATUS BUSY, nothing consumed yet. -/
def encoding : State :=
  encInit (beginCommand .encode { State.reset with src := Memory.ofBytes [65, 66], pInputBytes := 2 })

/-- The same after its first byte: ENC.code = 65, ENC.inPos = 1. -/
def encodingAtB : State := { encoding with encCode := some 65, encInPos := 1 }

/-- The same after both bytes: one word written, ENC.code = 66. -/
def encodingAtEnd : State :=
  { withBits (valueBits 9 65) encoding with dict := rootTable ++ [entry 65 66], encCode := some 66, encInPos := 2 }

/-- A decode of the given bytes, all their first `bits` bits valid: STATUS BUSY, nothing fetched yet. -/
def decoding (bytes : List Symbol) (bits : Count32) (expected : Count32) : State :=
  decFresh (beginCommand .decode { State.reset with
    src := Memory.ofBytes bytes, pCompBytes := BitVec.ofNat 32 bytes.length, pCompBits := bits, pExpectedBytes := expected })

/-- The stream of V6, `65/9 66/9 256/9 258/9`, after its first word (program P2). -/
def decodingAtB : State :=
  { decoding [0x41, 0x84, 0x00, 0x14, 0x08] 36 7 with
    brBitsRead := 9, decCode := 65, decPrevCode := some 65, decFirstByte := 65, decBytesWritten := 1, dst := [(0, 65)] }

/-- A decoder state of a given width, table size and previous code, with an empty output. -/
def decoderAt (w : Width) (size : Nat) (prev : OptCode) : State :=
  { decoding [0, 0] 16 100 with width := w, dict := tableOf size, decPrevCode := prev }

/-! ## Ill-formed terms -/

theorem test_wf_cw9Ref : (Instr.cw9Ref 512).wf = false := by decide
theorem test_wf_cw9Kwk : (Instr.cw9Kwk 512).wf = false := by decide
theorem test_wf_cw9Oor : (Instr.cw9Oor 4095).wf = false := by decide
theorem test_wf_cw10Ref : (Instr.cw10Ref 1024).wf = false := by decide
theorem test_wf_cw10Kwk : (Instr.cw10Kwk 1024).wf = false := by decide
theorem test_wf_cw10Oor : (Instr.cw10Oor 1024).wf = false := by decide
theorem test_wf_cw11Ref : (Instr.cw11Ref 2048).wf = false := by decide
theorem test_wf_cw11Kwk : (Instr.cw11Kwk 2048).wf = false := by decide
theorem test_wf_cw11Oor : (Instr.cw11Oor 2048).wf = false := by decide

/-- The largest codes that fit; the check on a CW12 row refuses no Code (R71: 0 to 4095). -/
theorem test_wf_largest :
    (Instr.cw9Ref 511).wf = true ∧ (Instr.cw10Kwk 1023).wf = true ∧ (Instr.cw11Oor 2047).wf = true ∧
      (Instr.cw12Ref 4095).wf = true ∧ (Instr.cw12Kwk 4095).wf = true ∧ (Instr.cw12Oor 4095).wf = true := by decide

/-! ## Decoding, words written out bit by bit (bit 0 first) -/

/-- `vvvvvvvv` = 0x4f: bits 1,1,1,1,0,0,1,0. -/
theorem test_decode_encExtend :
    decode (.symbol true) [true, true, true, true, false, false, true, false] = .ok (.encExtend 0x4f, []) := by decide
theorem test_decode_encEmit :
    decode (.symbol false) [true, true, true, true, false, false, true, false] = .ok (.encEmit 0x4f, []) := by decide
/-- 84/9 = 001010100, then the rest of the stream. -/
theorem test_decode_cw9Lit :
    decode (.word .w9 true 256) [false, false, true, false, true, false, true, false, false, true] =
      .ok (.cw9Lit 84, [true]) := by decide
/-- 300/9 = 100101100 (V24). -/
theorem test_decode_cw9Badlit :
    decode (.word .w9 true 256) [false, false, true, true, false, true, false, false, true] = .ok (.cw9Badlit 44, []) := by
  decide
/-- 79/9 = 001001111 with DICT.size 256 (P1, second word). -/
theorem test_decode_cw9Ref :
    decode (.word .w9 false 256) [true, true, true, true, false, false, true, false, false] = .ok (.cw9Ref 79, []) := by decide
/-- 258/9 = 100000010 with DICT.size 258 (P2, last word). -/
theorem test_decode_cw9Kwk :
    decode (.word .w9 false 258) [false, true, false, false, false, false, false, false, true] = .ok (.cw9Kwk 258, []) := by
  decide
/-- 258/9 with DICT.size 256 (V25). -/
theorem test_decode_cw9Oor :
    decode (.word .w9 false 256) [false, true, false, false, false, false, false, false, true] = .ok (.cw9Oor 258, []) := by
  decide
/-- 258/10 = 0100000010 with DICT.size 512 (P3). -/
theorem test_decode_cw10Ref :
    decode (.word .w10 false 512) [false, true, false, false, false, false, false, false, true, false] =
      .ok (.cw10Ref 258, []) := by decide
/-- 699/10 = 1010111011 with DICT.size 699 (V16). -/
theorem test_decode_cw10Kwk :
    decode (.word .w10 false 699) [true, true, false, true, true, true, false, true, false, true] =
      .ok (.cw10Kwk 699, []) := by decide
/-- 1023/10 with DICT.size 700. -/
theorem test_decode_cw10Oor :
    decode (.word .w10 false 700) [true, true, true, true, true, true, true, true, true, true] =
      .ok (.cw10Oor 1023, []) := by decide
/-- 83/11 = 00001010011 (V12, word 770) with DICT.size 1024. -/
theorem test_decode_cw11Ref :
    decode (.word .w11 false 1024) [true, true, false, false, true, false, true, false, false, false, false] =
      .ok (.cw11Ref 83, []) := by decide
/-- 1024/11 = 10000000000 with DICT.size 1024. -/
theorem test_decode_cw11Kwk :
    decode (.word .w11 false 1024) [false, false, false, false, false, false, false, false, false, false, true] =
      .ok (.cw11Kwk 1024, []) := by decide
/-- 1025/11 = 10000000001 with DICT.size 1024. -/
theorem test_decode_cw11Oor :
    decode (.word .w11 false 1024) [true, false, false, false, false, false, false, false, false, false, true] =
      .ok (.cw11Oor 1025, []) := by decide
/-- 117/12 = 000001110101 (V12, word 3841) with DICT.size 4095. -/
theorem test_decode_cw12Ref :
    decode (.word .w12 false 4095) [true, false, true, false, true, true, true, false, false, false, false, false] =
      .ok (.cw12Ref 117, []) := by decide
/-- 4095/12 with DICT.size 4095 (V14, word 3841). -/
theorem test_decode_cw12Kwk :
    decode (.word .w12 false 4095) [true, true, true, true, true, true, true, true, true, true, true, true] =
      .ok (.cw12Kwk 4095, []) := by decide
/-- 2049/12 = 100000000001 with DICT.size 2048. -/
theorem test_decode_cw12Oor :
    decode (.word .w12 false 2048) [true, false, false, false, false, false, false, false, false, false, false, true] =
      .ok (.cw12Oor 2049, []) := by decide

/-- A short last word (R80): 5 bits 1,1,1,0,0 are the code 7 (V19). -/
theorem test_decode_shortWord : decode (.word .w9 false 271) [true, true, true, false, false] = .ok (.cw9Ref 7, []) := by decide
/-- No bit left (R147), too few bits of an input byte, and a context in which the table has no row. -/
theorem test_decode_rejects :
    decode (.word .w9 true 256) [] = .error .endOfStream ∧ decode (.symbol true) [true, true] = .error .shortSymbol ∧
      decode (.word .w10 true 256) [true] = .error .noRow := by decide
/-- The two rows with a fixed bit, at both ends of their fields. -/
theorem test_decodeTableWord :
    decodeTableWord 9 0x000 = some (.cw9Lit 0) ∧ decodeTableWord 9 0x0ff = some (.cw9Lit 255) ∧
      decodeTableWord 9 0x100 = some (.cw9Badlit 0) ∧ decodeTableWord 16 0x1ff = some (.cw9Badlit 255) ∧
      decodeTableWord 8 0x41 = some (.encExtend 0x41) := by decide
/-- The words of R92's example: `84/9 79/9` in bytes are `54 9e 00`. -/
theorem test_packBits : packBits (valueBits 9 84 ++ valueBits 9 79) = [0x54, 0x9e, 0x00] := by decide

/-! ## Steps -/

/-- V6: "ABABABA" gives 36 bits in 5 bytes, `41 84 00 14 08`. -/
theorem test_lzwEncode :
    after (fun t => (t.status, hostCompBits t, hostCompBytes t, hostBytes t))
      (exec .lzwEncode { State.reset with src := Memory.ofBytes [65, 66, 65, 66, 65, 66, 65], pInputBytes := 7 }) =
    some (.done, some 36, some 5, some [0x41, 0x84, 0x00, 0x14, 0x08]) := by decide +kernel
/-- V35: "A" with ENC_DST_CAP 1 faults at the ninth bit, CAUSE 3. -/
theorem test_lzwEncode_overflow :
    after (fun t => (t.status, t.cause.number, hostBytes t))
      (exec .lzwEncode { State.reset with src := Memory.ofBytes [65], pInputBytes := 1, encDstCap := some 1 }) =
    some (.fault, 3, none) := by decide +kernel
/-- P2: the 5 bytes of V6 decode to "ABABABA". -/
theorem test_lzwDecode :
    after (fun t => (t.status, hostOutBytes t, hostBytes t))
      (exec .lzwDecode { State.reset with
        src := Memory.ofBytes [0x41, 0x84, 0x00, 0x14, 0x08], pCompBytes := 5, pCompBits := 36, pExpectedBytes := 7 }) =
    some (.done, some 7, some [65, 66, 65, 66, 65, 66, 65]) := by decide +kernel
/-- P4: `65/9 258/9` ends in FAULT, CAUSE 2, FAULT_CODE 258, FAULT_POS 9. -/
theorem test_lzwDecode_malformed :
    after (fun t => (t.status, t.cause.number, t.faultCode, t.faultPos))
      (exec .lzwDecode { State.reset with
        src := Memory.ofBytes [0x41, 0x04, 0x02], pCompBytes := 3, pCompBits := 18, pExpectedBytes := 10 }) =
    some (.fault, 2, 258, 9) := by decide +kernel
/-- R90's example. -/
theorem test_bwInit : after (fun t => t.bwBitsWritten) (exec .bwInit { State.reset with bwBitsWritten := 9 }) = some 0 := by
  decide +kernel
/-- R91's example: BW.bitsWritten = 9, DST byte 1 = 0x00, bit 1: byte 1 becomes 0x02, the count 10. -/
theorem test_bwAppendbit :
    after (fun t => (t.dst, t.bwBitsWritten))
      (exec (.bwAppendbit true) { State.reset with bwBitsWritten := 9, dst := [(0, 0x54), (1, 0x00)] }) =
    some ([(0, 0x54), (1, 0x02)], 10) := by decide +kernel
/-- R193: the count never passes 2^32 - 1; a bit of 0 is stored like any other (R91). -/
theorem test_bwAppendbit_limits :
    after (fun t => (t.status, t.cause.number)) (exec (.bwAppendbit false) { State.reset with bwBitsWritten := 0xffffffff }) =
      some (.fault, 5) ∧
    after (fun t => (t.dst, t.bwBitsWritten)) (exec (.bwAppendbit false) State.reset) = some ([(0, 0)], 1) := by decide +kernel
/-- V44: bit 9 of the value is ignored. -/
theorem test_bwAppendbits :
    after (fun t => (t.dst, t.bwBitsWritten)) (exec (.bwAppendbits 1023 9) State.reset) = some ([(0, 0xff), (1, 0x01)], 9) := by
  decide +kernel
/-- V48: width 0 writes nothing; R92, R191: with ENC_DST_CAP 0 the first bit of a word faults, and nothing is written. -/
theorem test_bwAppendbits_limits :
    after (fun t => (t.dst, t.bwBitsWritten)) (exec (.bwAppendbits 5 0) State.reset) = some ([], 0) ∧
    after (fun t => (t.cause, t.dst, t.bwBitsWritten)) (exec (.bwAppendbits 84 9) { State.reset with encDstCap := some 0 }) =
      some (.outputOverflow, [], 0) := by decide +kernel
/-- V41: 9 bits are 2 bytes. -/
theorem test_bwBytecount :
    after (fun t => t.result) (exec .bwBytecount { State.reset with bwBitsWritten := 9 }) = some (.count 2) := by decide +kernel
theorem test_bwBitcount :
    after (fun t => t.result) (exec .bwBitcount { State.reset with bwBitsWritten := 18 }) = some (.count 18) := by
  decide +kernel
theorem test_bwRelease :
    after (fun t => (t.result, t.bwBitsWritten))
      (exec .bwRelease { State.reset with bwBitsWritten := 9, dst := [(0, 0x41), (1, 0x00)] }) =
    some (.bytes [0x41, 0x00], 0) := by decide +kernel
/-- V55: OPEN(2, 17) raises BadParameters, OPEN(3, 17) succeeds. -/
theorem test_brOpen :
    after (fun t => (t.status, t.cause.number)) (exec (.brOpen 2 17) State.reset) = some (.fault, 4) ∧
      after (fun t => (t.brByteCapacity, t.brValidBits, t.brBitsRead)) (exec (.brOpen 3 17) State.reset) =
        some (3, 17, 0) := by decide +kernel
/-- R101's example: SRC `54 9e`, 16 valid bits, bit 2 is 1. -/
theorem test_brReadbit :
    after (fun t => (t.result, t.brBitsRead))
      (exec .brReadbit { State.reset with src := Memory.ofBytes [0x54, 0x9e], brValidBits := 16, brBitsRead := 2 }) =
    some (.bit (some true), 3) := by decide +kernel
/-- V50: the third READBITS(9) finds 6 bits and gives 2. -/
theorem test_brReadbits :
    after (fun t => (t.result, t.brBitsRead))
      (exec (.brReadbits 9) { State.reset with src := Memory.ofBytes [0x54, 0x9e, 0x08], brValidBits := 24, brBitsRead := 18 }) =
    some (.count 2, 24) := by decide +kernel
/-- V52: an empty stream is at its end at once. -/
theorem test_brEos :
    after (fun t => t.result) (exec .brEos State.reset) = some (.flag true) ∧
      after (fun t => (t.result, t.brBitsRead)) (exec .brReadbit State.reset) = some (.bit none, 0) := by decide +kernel
theorem test_dictReset :
    after (fun t => (t.dictSize, t.dict[255]?)) (exec .dictReset { State.reset with dict := [] }) =
      some (256, some { parent := none, value := 255 }) := by decide +kernel
/-- V60, V61. -/
theorem test_dictFind :
    after (fun t => t.result) (exec (.dictFind none 255) State.reset) = some (.code (some 255)) ∧
      after (fun t => t.result) (exec (.dictFind (some 65) 66) { State.reset with dict := rootTable ++ [entry 65 66] }) =
        some (.code (some 256)) ∧
      after (fun t => t.result) (exec (.dictFind (some 66) 65) { State.reset with dict := rootTable ++ [entry 65 66] }) =
        some (.code none) := by decide +kernel
theorem test_dictAdd :
    after (fun t => (t.result, t.dictSize, t.dict[256]?)) (exec (.dictAdd 84 79) State.reset) =
      some (.flag true, 257, some (entry 84 79)) := by decide +kernel
/-- V66. -/
theorem test_dictAdd_full :
    after (fun t => (t.result, t.dictSize)) (exec (.dictAdd 84 79) { State.reset with dict := tableOf 4096 }) =
      some (.flag false, 4096) := by decide +kernel
/-- V63, V65. -/
theorem test_dictGrow :
    after (fun t => (t.result, t.width)) (exec .dictGrow { State.reset with dict := tableOf 512 }) =
        some (.flag false, .w10) ∧
      after (fun t => (t.result, t.width)) (exec .dictGrow { State.reset with dict := tableOf 512, width := .w10 }) =
        some (.flag false, .w10) := by decide +kernel
/-- V64. -/
theorem test_dictGrow_epoch :
    after (fun t => (t.result, t.width, t.dictSize)) (exec .dictGrow { State.reset with dict := tableOf 4096, width := .w12 }) =
      some (.flag true, .w9, 256) := by decide +kernel
/-- V61: SEQ(257) = ("ABA", 65); the walk collects 65, 66, 65. -/
theorem test_dictSeq :
    after (fun t => (t.result, t.scratch.take 3))
      (exec (.dictSeq 257) { State.reset with dict := rootTable ++ [entry 65 66, entry 256 65] }) =
    some (.seq [65, 66, 65] 65, [65, 66, 65]) := by decide +kernel
theorem test_encInit :
    after (fun t => (t.dictSize, t.width, t.encCode, t.encInPos, t.bwBitsWritten))
      (exec .encInit { State.reset with dict := tableOf 300, width := .w12, encCode := some 7, encInPos := 5, bwBitsWritten := 9 }) =
    some (256, .w9, none, 0, 0) := by decide +kernel
/-- R132's example: ENC.code = 84, entry 256 = (84, 79), byte 79. -/
theorem test_encExtend :
    after (fun t => (t.encCode, t.encInPos, t.bwBitsWritten))
      (exec (.encExtend 79) { encoding with dict := rootTable ++ [entry 84 79], encCode := some 84 }) =
    some (some 256, 1, 0) := by decide +kernel
/-- R133's example: ENC.code = 84, byte 79, not found: `84/9`, entry 256 = (84, 79), ENC.code = 79. -/
theorem test_encEmit :
    after (fun t => (t.dst, t.bwBitsWritten, t.dict[256]?, t.encCode, t.encInPos))
      (exec (.encEmit 79) { encoding with encCode := some 84 }) =
    some ([(0, 0x54), (1, 0x00)], 9, some (entry 84 79), some 79, 1) := by decide +kernel
/-- P3: the EMIT at DICT.size 512 writes 9 bits, then raises WIDTH, then adds entry 512. -/
theorem test_encEmit_widens :
    after (fun t => (t.bwBitsWritten, t.width, t.dictSize, t.dict[512]?))
      (exec (.encEmit 2) { encoding with dict := tableOf 512, encCode := some 256 }) =
    some (9, .w10, 513, some (entry 256 2)) := by decide +kernel
/-- R134's example: FINISH emits `65/9`. -/
theorem test_encFinish :
    after (fun t => (t.dst, t.bwBitsWritten)) (exec .encFinish { encoding with encCode := some 65 }) =
      some ([(0, 0x41), (1, 0x00)], 9) ∧
    after (fun t => (t.dst, t.bwBitsWritten)) (exec .encFinish encoding) = some ([], 0) := by decide +kernel
theorem test_decInit :
    after (fun t => (t.dictSize, t.width, t.decPrevCode, t.decBytesWritten, t.brValidBits, t.brBitsRead))
      (exec .decInit { State.reset with pCompBytes := 3, pCompBits := 17, decBytesWritten := 4, brBitsRead := 7 }) =
    some (256, .w9, none, 0, 17, 0) := by decide +kernel
/-- R148's example: `54 9e` with WIDTH 9 gives 84. -/
theorem test_decFetch :
    after (fun t => (t.decCode, t.brBitsRead)) (exec .decFetch (decoding [0x54, 0x9e] 16 5)) = some (84, 9) := by decide +kernel
/-- R149's example. -/
theorem test_decLit :
    after (fun t => (t.dst, t.decBytesWritten, t.decFirstByte, t.decPrevCode, t.dictSize))
      (exec .decLit { decoding [0x54, 0x00] 9 5 with decCode := 84 }) =
    some ([(0, 0x54)], 1, 84, some 84, 256) := by decide +kernel
/-- R151's example: 258 with DEC.prevCode 256 = "AB" writes "ABA" and creates 258 = (256, 65). -/
theorem test_decKwk :
    after (fun t => (t.dst, t.dict[258]?, t.decPrevCode, t.decFirstByte))
      (exec .decKwk { decoding [] 0 7 with
        dict := rootTable ++ [entry 65 66, entry 66 65], decPrevCode := some 256, decCode := 258 }) =
    some ([(0, 65), (1, 66), (2, 65)], some (entry 256 65), some 258, 65) := by decide +kernel
/-- R152's example: 256 = (84, 79) writes "TO"; V17: with room for one byte only "T" is stored, and UPDATE still runs. -/
theorem test_decRef :
    after (fun t => (t.dst, t.decFirstByte, t.dict[257]?, t.decPrevCode))
      (exec .decRef { decoding [] 0 1 with dict := rootTable ++ [entry 84 79], decPrevCode := some 84, decCode := 256 }) =
    some ([(0, 84)], 84, some (entry 84 84), some 256) := by decide +kernel
/-- R153's example. -/
theorem test_decWrite :
    after (fun t => (t.dst, t.decBytesWritten)) (exec (.decWrite [84, 79]) { decoding [] 0 10 with decBytesWritten := 9 }) =
      some ([(9, 84)], 10) := by decide +kernel
/-- R154's example: (84, 79) becomes entry 256, DEC.prevCode = 79. -/
theorem test_decUpdate :
    after (fun t => (t.dict[256]?, t.dictSize, t.width, t.decPrevCode))
      (exec .decUpdate { decoding [] 0 5 with decPrevCode := some 84, decFirstByte := 79, decCode := 79 }) =
    some (some (entry 84 79), 257, .w9, some 79) := by decide +kernel
/-- The epoch reset in UPDATE (R154, V12): DEC.prevCode = NIL, DICT.size 256, WIDTH 9. -/
theorem test_decUpdate_epoch :
    after (fun t => (t.dictSize, t.width, t.decPrevCode))
      (exec .decUpdate { decoderAt .w12 4095 (some 112) with decFirstByte := 117, decCode := 117 }) =
    some (256, .w9, none) := by decide +kernel
theorem test_cw9Lit :
    after (fun t => (t.dst, t.decPrevCode, t.brBitsRead)) (exec (.cw9Lit 0x54) (decoding [0x54, 0x00] 9 5)) =
      some ([(0, 0x54)], some 84, 9) := by decide +kernel
/-- V24. -/
theorem test_cw9Badlit :
    after (fun t => (t.status, t.cause.number, t.faultCode, t.faultPos)) (exec (.cw9Badlit 44) (decoding [0x2c, 0x01] 9 5)) =
      some (.fault, 1, 300, 0) := by decide +kernel
/-- P2, second word: `66/9` with DEC.prevCode 65 writes "B" and creates 256 = (65, 66). -/
theorem test_cw9Ref :
    after (fun t => (t.dst, t.dict[256]?, t.decPrevCode, t.brBitsRead)) (exec (.cw9Ref 66) decodingAtB) =
      some ([(0, 65), (1, 66)], some (entry 65 66), some 66, 18) := by decide +kernel
/-- V27, second word: `256/9` with DICT.size 256 and DEC.prevCode 65 writes "AA". -/
theorem test_cw9Kwk :
    after (fun t => (t.dst, t.dict[256]?)) (exec (.cw9Kwk 256) decodingAtB) =
      some ([(0, 65), (1, 65), (2, 65)], some (entry 65 65)) := by decide +kernel
/-- V25, second word. -/
theorem test_cw9Oor :
    after (fun t => (t.status, t.cause.number, t.faultCode, t.faultPos)) (exec (.cw9Oor 258) decodingAtB) =
      some (.fault, 2, 258, 9) := by decide +kernel
/-- A word of 10, 11, 12 bits moves BR.bitsRead by as many; UPDATE adds one entry (R154). -/
theorem test_cw10Ref :
    after (fun t => (t.dst, t.dictSize, t.brBitsRead)) (exec (.cw10Ref 256) (decoderAt .w10 600 (some 84))) =
      some ([(0, 65), (1, 66)], 601, 10) := by decide +kernel
theorem test_cw10Kwk :
    after (fun t => (t.dst, t.dict[600]?, t.brBitsRead)) (exec (.cw10Kwk 600) (decoderAt .w10 600 (some 84))) =
      some ([(0, 84), (1, 84)], some (entry 84 84), 10) := by decide +kernel
theorem test_cw10Oor :
    after (fun t => (t.cause.number, t.faultCode)) (exec (.cw10Oor 601) (decoderAt .w10 600 (some 84))) = some (2, 601) := by
  decide +kernel
/-- The step that makes DICT.size 2048 raises WIDTH to 12 (R116). -/
theorem test_cw11Ref :
    after (fun t => (t.dst, t.dictSize, t.width, t.brBitsRead)) (exec (.cw11Ref 84) (decoderAt .w11 2047 (some 84))) =
      some ([(0, 84)], 2048, .w12, 11) := by decide +kernel
theorem test_cw11Kwk :
    after (fun t => (t.dst, t.dict[1100]?)) (exec (.cw11Kwk 1100) (decoderAt .w11 1100 (some 256))) =
      some ([(0, 65), (1, 66), (2, 65)], some (entry 256 65)) := by decide +kernel
theorem test_cw11Oor :
    after (fun t => (t.cause.number, t.faultCode)) (exec (.cw11Oor 2047) (decoderAt .w11 1100 (some 84))) = some (2, 2047) := by
  decide +kernel
/-- V12, word 3841: the reset, DEC.prevCode NIL. -/
theorem test_cw12Ref :
    after (fun t => (t.dst, t.dictSize, t.width, t.decPrevCode, t.brBitsRead))
      (exec (.cw12Ref 117) (decoderAt .w12 4095 (some 112))) = some ([(0, 117)], 256, .w9, none, 12) := by decide +kernel
theorem test_cw12Kwk :
    after (fun t => (t.dst, t.dictSize, t.decPrevCode)) (exec (.cw12Kwk 4095) (decoderAt .w12 4095 (some 112))) =
      some ([(0, 112), (1, 112)], 256, none) := by decide +kernel
theorem test_cw12Oor :
    after (fun t => (t.cause.number, t.faultCode)) (exec (.cw12Oor 4095) (decoderAt .w12 4094 (some 112))) = some (2, 4095) := by
  decide +kernel
/-- A row outside its condition is refused by name (log 13). -/
theorem test_notSelected :
    refusal (exec (.cw9Ref 66) (decoding [0x41, 0x00] 9 5)) = some .notSelected ∧
      refusal (exec (.cw10Ref 66) decodingAtB) = some .notSelected ∧
      refusal (exec (.encEmit 66) encoding) = some .notSelected := by decide +kernel
/-- The step that the state of log 15 makes: `256/9` raises BadLiteral, `84/9` writes its byte. -/
theorem test_withFetchWord :
    after (fun t => (t.cause.number, t.faultCode)) (step (State.reset.withFetchWord 9 0x100)) = some (1, 256) ∧
      after (fun t => (t.dst, t.decPrevCode)) (step (State.reset.withFetchWord 9 0x054)) = some ([(0, 0x54)], some 84) ∧
      after (fun t => t.encCode) (step (State.reset.withFetchWord 8 0x41)) = some (some 0x41) := by decide +kernel

/-! ## Witnesses: for every statement with hypotheses, states and operands that meet them together -/

theorem dictWf_tableOf (k : Nat) (h : k ≤ 3840) : DictWf (rootTable ++ List.replicate k (entry 65 66)) := by
  induction k with
  | zero => simpa using dictWf_rootTable
  | succ k ih =>
    rw [List.replicate_succ', ← List.append_assoc]
    exact (ih (by omega)).add 65 66 (by simp; omega) (by simp; omega)

/-- The same encode with moves of the host waiting. -/
def encodingWith (inbox : List HostMove) : State :=
  encInit (beginCommand .encode
    { State.reset with src := Memory.ofBytes [65, 66], pInputBytes := 2, inbox := inbox })

theorem reset_scratch_length : State.reset.scratch.length = 4096 := List.length_replicate

theorem encodingWith_inv (inbox : List HostMove) : Inv (encodingWith inbox) :=
  (encStart_running _).inv reset_scratch_length rfl

theorem decoding_inv (bytes : List Symbol) (bits expected : Count32)
    (h : bits.toNat ≤ 8 * (BitVec.ofNat 32 bytes.length).toNat) : Inv (decoding bytes bits expected) :=
  (decStart_running _ h).inv reset_scratch_length (Memory.wf_ofBytes _)

theorem supplied_two (a : Nat) (h : a < 2) : ((Memory.ofBytes [65, 66]).read a).isSome = true := by
  rcases (by omega : a = 0 ∨ a = 1) with rfl | rfl <;> rfl

theorem witness_HardwareResetGivesFreshRegisters : (hardwareReset encoding).inbox = [] := rfl

theorem witness_StepKeepsInvariant :
    (Inv (encodingWith []) ∧ after (fun t => t.encCode) (step (encodingWith [])) = some (some 65)) ∧
    (Inv (encodingWith [.hwReset]) ∧ after (fun t => t.status) (step (encodingWith [.hwReset])) = some .idle) ∧
    (Inv (decoding [0x41, 0x00] 9 1) ∧
      after (fun t => t.decPrevCode) (step (decoding [0x41, 0x00] 9 1)) = some (some 65)) :=
  ⟨⟨encodingWith_inv _, by decide +kernel⟩, ⟨encodingWith_inv _, by decide +kernel⟩,
    ⟨decoding_inv _ _ _ (by decide), by decide +kernel⟩⟩

theorem witness_StepNeverStops :
    Inv (encodingWith [.give .stepwise .decode]) ∧ RunSupplied (encodingWith [.give .stepwise .decode]) ∧
    (∀ m rest, (encodingWith [.give .stepwise .decode]).inbox = m :: rest →
      MoveAllowed m { encodingWith [.give .stepwise .decode] with inbox := rest }) ∧
    Inv (decoding [0x41, 0x00] 9 1) ∧ RunSupplied (decoding [0x41, 0x00] 9 1) := by
  refine ⟨encodingWith_inv _, fun _ => supplied_two, fun m rest h => ?_, decoding_inv _ _ _ (by decide), fun _ a ha => ?_⟩
  · obtain ⟨rfl, _⟩ := List.cons.inj h
    exact fun hb => absurd rfl hb
  · have : a < 2 := ha
    rcases (by omega : a = 0 ∨ a = 1) with rfl | rfl <;> rfl

/-- One state for each clause, and the last step of an encode that faults as well (ENC_DST_CAP 2 holds one word). -/
theorem witness_StepRunsDecodedInstruction :
    (encoding.inbox = [] ∧ encoding.status = .busy ∧ encoding.command = .encode ∧ encContinue encoding = true ∧
      inputByte encoding = some 65 ∧ decodeBytes (symbolCtx 65 encoding) [65] = .ok (.encExtend 65, [])) ∧
    (encodingAtB.inbox = [] ∧ encContinue encodingAtB = true ∧ inputByte encodingAtB = some 66 ∧
      decodeBytes (symbolCtx 66 encodingAtB) [66] = .ok (.encEmit 66, [])) ∧
    (encodingAtEnd.inbox = [] ∧ encodingAtEnd.status = .busy ∧ encodingAtEnd.command = .encode ∧
      encContinue encodingAtEnd = false ∧ after (fun t => t.status) (exec .encFinish encodingAtEnd) = some .busy) ∧
    after (fun t => t.status) (exec .encFinish { encodingAtEnd with encDstCap := some 2 }) = some .fault ∧
    ((decoding [0x41, 0x00] 9 1).inbox = [] ∧ (decoding [0x41, 0x00] 9 1).status = .busy ∧
      (decoding [0x41, 0x00] 9 1).command = .decode ∧ decContinue (decoding [0x41, 0x00] 9 1) = true ∧
      nextWordBits (decoding [0x41, 0x00] 9 1) = some (valueBits 9 65) ∧
      decode (wordCtx (decoding [0x41, 0x00] 9 1)) (valueBits 9 65) = .ok (.cw9Lit 65, [])) ∧
    (decContinue (decoding [0x41, 0x00] 9 0) = false ∧ decContinue (decoding [0x41, 0x00] 0 1) = false) ∧
    State.reset.status ≠ .busy ∧
    ((encodingWith [.wait, .hwReset]).inbox = .wait :: [.hwReset] ∧
      encContinue { encodingWith [.wait, .hwReset] with inbox := [.hwReset] } = true ∧
      after (fun t => (t.encCode, t.inbox)) (step (encodingWith [.wait, .hwReset])) = some (some 65, [.hwReset])) ∧
    ((encodingWith [.hwReset, .wait]).inbox = .hwReset :: [.wait] ∧ HostMove.hwReset ≠ .wait) := by decide +kernel

theorem witness_WithFetchWordRunsTableWord :
    decodeTableWord 9 0x0ff = some (.cw9Lit 255) ∧ decodeTableWord 16 0x100 = some (.cw9Badlit 0) := by decide

/-- The ends of the operand's range, at every width. -/
theorem witness_DecodeOfEncodeIsSame :
    (selects (.symbol true) (.encExtend 255) = true ∧ (encode (.encExtend 255)).isSome = true) ∧
    (selects (.word .w9 true 256) (.cw9Badlit 255) = true ∧ (encode (.cw9Badlit 255)).isSome = true) ∧
    ((Instr.cw9Oor 511).wf = true ∧ selects (.word .w9 false 510) (.cw9Oor 511) = true) ∧
    ((Instr.cw10Ref 0).wf = true ∧ selects (.word .w10 false 512) (.cw10Ref 0) = true) ∧
    ((Instr.cw11Kwk 2047).wf = true ∧ selects (.word .w11 false 2047) (.cw11Kwk 2047) = true) ∧
    ((Instr.cw12Kwk 4095).wf = true ∧ selects (.word .w12 false 4095) (.cw12Kwk 4095) = true) := by decide

theorem witness_DecodeReadsItsOwnWords :
    decode (.word .w12 false 4095) [true, true, true] = .ok (.cw12Ref 7, []) ∧
      decode (.word .w9 true 256) (valueBits 9 255 ++ [true]) = .ok (.cw9Lit 255, [true]) := by decide

theorem witness_EveryWordHasOneRow :
    ((true = true → Width.w9 = .w9) ∧ (false = true → Width.w12 = .w9)) ∧
    (Instr.cw9Lit 65).wf = true ∧ selects (.word .w9 true 256) (.cw9Lit 65) = true ∧
      encode (.cw9Lit 65) = some (valueBits 9 65) := by decide

/-- OutputOverflow at the capacity; the last count that fits and the first that does not; a byte met at its bit 0. -/
theorem witness_AppendBitStoresOneBit :
    (({ State.reset with encDstCap := some 0 } : State).encDstCap = some 0 ∧ 0 ≤ State.reset.bwBitsWritten.toNat / 8) ∧
    ((∀ cap, State.reset.encDstCap = some cap → (0xffffffff : Count32).toNat / 8 < cap) ∧
      2 ^ 32 - 1 < (0xffffffff : Count32).toNat + 1) ∧
    ((0xfffffffe : Count32).toNat + 1 ≤ 2 ^ 32 - 1 ∧ (0xfffffffe : Count32).toNat % 8 ≠ 0 ∧
      Memory.read [(0x1fffffff, 0x15)] ((0xfffffffe : Count32).toNat / 8) = some 0x15) ∧
    (State.reset.bwBitsWritten.toNat % 8 = 0 ∧ State.reset.bwBitsWritten.toNat + 1 ≤ 2 ^ 32 - 1) :=
  ⟨⟨rfl, by decide⟩, ⟨nofun, by decide⟩, ⟨by decide, by decide, by decide⟩, ⟨by decide, by decide⟩⟩

/-- 9 bits fit 2 bytes exactly, and do not fit 1. -/
theorem witness_AppendBitsAppendsLowBits :
    WriterHolds [] { State.reset with encDstCap := some 2 } ∧ BitsFit 0 9 { State.reset with encDstCap := some 2 } ∧
    WriterHolds [] { State.reset with encDstCap := some 1 } ∧ ¬BitsFit 0 9 { State.reset with encDstCap := some 1 } ∧
    WriterHolds [true] { State.reset with dst := [(0, 1)], bwBitsWritten := 1 } := by
  refine ⟨⟨rfl, rfl⟩, ⟨by omega, fun cap h => ?_⟩, ⟨rfl, rfl⟩, fun h => ?_, ⟨rfl, rfl⟩⟩
  · obtain rfl := Option.some.inj h; decide
  · have := h.2 1 rfl; omega

theorem witness_ReleaseReturnsWrittenBytes :
    ([0x41, 0x00] : List Symbol).length = ((9 : Count32).toNat + 7) / 8 ∧
      ∀ a, a < 2 → Memory.read [(0, 0x41), (1, 0x00)] a = ([0x41, 0x00] : List Symbol)[a]? := by decide

/-- Four padding bits, and none. -/
theorem witness_ReleasedPaddingIsZero :
    WriterHolds [true, false, true, true] { State.reset with dst := [(0, 0x0d)], bwBitsWritten := 4 } ∧
      WriterHolds (valueBits 8 0x54) { State.reset with dst := [(0, 0x54)], bwBitsWritten := 8 } :=
  ⟨⟨rfl, rfl⟩, ⟨rfl, rfl⟩⟩

theorem witness_OpenChecksValidBits :
    8 * (2 : Count32).toNat < (17 : Count32).toNat ∧ (24 : Count32).toNat ≤ 8 * (3 : Count32).toNat := by decide

theorem witness_ReadBitReadsOneBit :
    (0 : Count32).toNat ≤ (0 : Count32).toNat ∧
      ((15 : Count32).toNat < (16 : Count32).toNat ∧ Memory.read [(0, 0x54), (1, 0x9e)] ((15 : Count32).toNat / 8) = some 0x9e) := by
  decide

/-- A short read (6 of 9 bits) and an empty one. -/
theorem witness_ReadBitsReadsUpToWidth :
    ((valueBits 6 2).length = min 9 ((24 : Count32).toNat - (18 : Count32).toNat) ∧
      SrcHolds 18 (valueBits 6 2) { State.reset with src := Memory.ofBytes [0x54, 0x9e, 0x08] }) ∧
    ([] : List Bool).length = min 9 ((24 : Count32).toNat - (24 : Count32).toNat) := by
  refine ⟨⟨by decide, fun j b h => ?_⟩, by decide⟩
  have hj : j < 6 := (List.getElem?_eq_some_iff.mp h).1
  rcases (by omega : j = 0 ∨ j = 1 ∨ j = 2 ∨ j = 3 ∨ j = 4 ∨ j = 5) with rfl | rfl | rfl | rfl | rfl | rfl <;>
    exact h

theorem witness_FindAnswersLowestMatch :
    DictWf ({ State.reset with dict := rootTable ++ [entry 65 66] } : State).dict ∧
      ({ State.reset with dict := rootTable ++ [entry 65 66] } : State).dictSize ≤ 4096 :=
  ⟨dictWf_tableOf 1 (by omega), by decide +kernel⟩

theorem witness_AddAppendsEntry :
    ({ State.reset with dict := tableOf 4096 } : State).dictSize = 4096 ∧
      ({ State.reset with dict := tableOf 4095 } : State).dictSize ≠ 4096 := by decide +kernel

theorem witness_GrowFollowsTable :
    ({ State.reset with dict := tableOf 512 } : State).dictSize = 512 ∧
    ({ State.reset with dict := tableOf 1024, width := .w10 } : State).dictSize = 1024 ∧
    ({ State.reset with dict := tableOf 2048, width := .w11 } : State).dictSize = 2048 ∧
    ({ State.reset with dict := tableOf 4096, width := .w12 } : State).dictSize = 4096 ∧
    ({ State.reset with dict := tableOf 512, width := .w10 } : State).dictSize ≠ 2 ^ Width.w10.bits := by decide +kernel

theorem witness_SeqAnswersSequence :
    DictWf (tableOf 4095) ∧ (4094 : Code).toNat < (tableOf 4095).length ∧ DictWf rootTable ∧
      (255 : Code).toNat < rootTable.length :=
  ⟨dictWf_tableOf 3839 (by omega), by decide +kernel, dictWf_rootTable, by decide +kernel⟩

theorem witness_SequenceDepthBound :
    DictWf (rootTable ++ [entry 65 66]) ∧ IsSeq (rootTable ++ [entry 65 66]) 255 [255] ∧
      IsSeq (rootTable ++ [entry 65 66]) 256 [65, 66] :=
  ⟨dictWf_tableOf 1 (by omega), (dictWf_tableOf 1 (by omega)).seqRev_root 255,
    SeqRev.added (dictWf_rootTable.seqRev_root 65) 66 256 (by simp)⟩

theorem witness_ExtendMovesMatch :
    (DictWf (rootTable ++ [entry 84 79]) ∧ encoding.encInPos.toNat < encoding.pInputBytes.toNat ∧
      (rootTable ++ [entry 84 79])[(256 : Code).toNat]? = some { parent := some 84, value := 79 } ∧
      ∀ i, i < 256 → (rootTable ++ [entry 84 79])[i]? ≠ some { parent := some 84, value := 79 }) ∧
    (DictWf encoding.dict ∧ encoding.encCode = none) :=
  ⟨⟨dictWf_rootTable.add 84 79 (by simp) (by simp), by decide +kernel, by decide +kernel, by decide +kernel⟩,
    dictWf_rootTable, rfl⟩

/-- One state for each clause: an epoch reset, a wider WIDTH, neither; bits that fit, and bits that do not. -/
theorem witness_EmitWritesCodeThenGrows :
    (encodingAtB.encInPos.toNat < encodingAtB.pInputBytes.toNat ∧ encodingAtB.encCode = some 65 ∧ WriterHolds [] encodingAtB ∧
      EncSizes encodingAtB.width encodingAtB.dictSize ∧ BitsFit 0 9 encodingAtB ∧ encodingAtB.dictSize ≠ 2 ^ Width.w9.bits ∧
      ({ parent := some 65, value := 66 } : Entry) ∉ encodingAtB.dict) ∧
    (EncSizes .w9 (tableOf 512).length ∧ (tableOf 512).length = 2 ^ Width.w9.bits ∧
      ({ parent := some 256, value := 2 } : Entry) ∉ tableOf 512) ∧
    (EncSizes .w12 (tableOf 4096).length ∧ (tableOf 4096).length = 4096 ∧
      ({ parent := some 256, value := 2 } : Entry) ∉ tableOf 4096) ∧
    ¬BitsFit 0 9 { encodingAtB with encDstCap := some 1 } := by
  refine ⟨⟨by decide, rfl, ⟨rfl, rfl⟩, ⟨by decide +kernel, .inl rfl⟩, ⟨by omega, nofun⟩, by decide +kernel, by decide +kernel⟩,
    ⟨⟨by decide +kernel, .inl rfl⟩, by decide +kernel, by decide +kernel⟩,
    ⟨⟨by decide +kernel, .inr (by decide +kernel)⟩, by decide +kernel, by decide +kernel⟩, fun h => ?_⟩
  have := h.2 1 rfl; omega

theorem witness_FinishWritesLastCode :
    encoding.encCode = none ∧ encodingAtB.encCode = some 65 ∧ WriterHolds [] encodingAtB ∧ BitsFit 0 9 encodingAtB ∧
      ¬BitsFit 0 9 { encodingAtB with encDstCap := some 1 } :=
  ⟨rfl, rfl, ⟨rfl, rfl⟩, ⟨by omega, nofun⟩, fun h => by have := h.2 1 rfl; omega⟩

theorem witness_DecInitState :
    8 * (2 : Count32).toNat < (17 : Count32).toNat ∧ (16 : Count32).toNat ≤ 8 * (2 : Count32).toNat := by decide

/-- A whole word, and a short one of a single bit. -/
theorem witness_FetchReadsCode :
    ((valueBits 9 65).length = min Width.w9.bits ((9 : Count32).toNat - (0 : Count32).toNat) ∧
      SrcHolds 0 (valueBits 9 65) (decoding [0x41, 0x00] 9 1)) ∧
    ([false].length = min Width.w9.bits ((9 : Count32).toNat - (8 : Count32).toNat) ∧
      SrcHolds 8 [false] (decoding [0x41, 0x00] 9 1)) := by
  refine ⟨⟨by decide, fun j b h => ?_⟩, ⟨by decide, fun j b h => ?_⟩⟩
  · have hj : j < 9 := (List.getElem?_eq_some_iff.mp h).1
    rcases (by omega : j = 0 ∨ j = 1 ∨ j = 2 ∨ j = 3 ∨ j = 4 ∨ j = 5 ∨ j = 6 ∨ j = 7 ∨ j = 8) with
      rfl | rfl | rfl | rfl | rfl | rfl | rfl | rfl | rfl <;> exact h
  · have hj : j < 1 := (List.getElem?_eq_some_iff.mp h).1
    obtain rfl : j = 0 := by omega
    exact h

/-- The three cases of R154's width check. -/
theorem witness_UpdateAddsThenGrows :
    ((decoderAt .w12 4095 (some 112)).decPrevCode = some 112 ∧ (decoderAt .w12 4095 (some 112)).dictSize + 1 = 4096) ∧
    ((decoderAt .w11 2047 (some 84)).dictSize < 4096 ∧ (decoderAt .w11 2047 (some 84)).dictSize + 1 = 2 ^ Width.w11.bits) ∧
    ((decoderAt .w9 256 (some 84)).dictSize + 1 ≠ 2 ^ Width.w9.bits) := by decide +kernel

theorem witness_LitWritesByte :
    ({ decoding [0xff, 0x00] 9 1 with decCode := 255 } : State).decPrevCode = none ∧ (255 : Code).toNat < 256 := by decide

theorem witness_KwkWritesPreviousAndFirst :
    DictWf (decoderAt .w12 4095 (some 4094)).dict ∧ (decoderAt .w12 4095 (some 4094)).decPrevCode = some 4094 ∧
      (4094 : Code).toNat < (decoderAt .w12 4095 (some 4094)).dictSize ∧ (decoderAt .w12 4095 (some 4094)).dictSize < 4096 ∧
      (4095 : Code).toNat = (decoderAt .w12 4095 (some 4094)).dictSize :=
  ⟨dictWf_tableOf 3839 (by omega), rfl, by decide +kernel, by decide +kernel, by decide +kernel⟩

theorem witness_RefWritesSequence :
    DictWf (decoderAt .w12 4095 (some 112)).dict ∧ (decoderAt .w12 4095 (some 112)).decPrevCode = some 112 ∧
      (4094 : Code).toNat < (decoderAt .w12 4095 (some 112)).dictSize ∧ (0 : Code).toNat < (decoderAt .w9 256 (some 112)).dictSize :=
  ⟨dictWf_tableOf 3839 (by omega), rfl, by decide +kernel, by decide +kernel⟩

theorem witness_LiteralWordWritesByte :
    (decoding [0x54, 0x00] 9 5).width = .w9 ∧ (decoding [0x54, 0x00] 9 5).decPrevCode = none := ⟨rfl, rfl⟩

theorem witness_BadLiteralWordFaults :
    (decoding [0xff, 0x01] 9 5).width = .w9 ∧ (decoding [0xff, 0x01] 9 5).decPrevCode = none := ⟨rfl, rfl⟩

theorem witness_OutOfRangeWordFaults :
    (decoderAt .w9 256 (some 65)).decPrevCode ≠ none ∧ (decoderAt .w9 256 (some 65)).dictSize < (257 : Code).toNat ∧
      (decoderAt .w12 4094 (some 65)).dictSize < (4095 : Code).toNat := by decide +kernel

theorem witness_RefWordWritesSequence :
    DictWf (decoderAt .w10 600 (some 84)).dict ∧ (decoderAt .w10 600 (some 84)).decPrevCode = some 84 ∧
      (decoderAt .w10 600 (some 84)).dictSize < 4096 ∧ (599 : Code).toNat < (decoderAt .w10 600 (some 84)).dictSize :=
  ⟨dictWf_tableOf 344 (by omega), rfl, by decide +kernel, by decide +kernel⟩

theorem witness_KwkWordWritesPreviousAndFirst :
    DictWf (decoderAt .w10 600 (some 84)).dict ∧ (decoderAt .w10 600 (some 84)).decPrevCode = some 84 ∧
      (84 : Code).toNat < (decoderAt .w10 600 (some 84)).dictSize ∧ (decoderAt .w10 600 (some 84)).dictSize < 4096 ∧
      (600 : Code).toNat = (decoderAt .w10 600 (some 84)).dictSize :=
  ⟨dictWf_tableOf 344 (by omega), rfl, by decide +kernel, by decide +kernel, by decide +kernel⟩

/-- An empty input and one of two bytes. -/
theorem witness_EncodeCommandEnds :
    State.reset.status ≠ .busy ∧ SrcSupplied State.reset.pInputBytes.toNat State.reset ∧
      SrcSupplied 2 { State.reset with src := Memory.ofBytes [65, 66], pInputBytes := 2 } :=
  ⟨by decide, fun a h => absurd h (Nat.not_lt_zero a), supplied_two⟩

/-- Refused parameters and accepted ones, at the bound. -/
theorem witness_DecodeCommandEnds :
    State.reset.status ≠ .busy ∧ SrcSupplied (((16 : Count32).toNat + 7) / 8) { State.reset with src := Memory.ofBytes [65, 66] } ∧
      8 * (1 : Count32).toNat < (16 : Count32).toNat ∧ (16 : Count32).toNat ≤ 8 * (2 : Count32).toNat :=
  ⟨by decide, supplied_two, by decide, by decide⟩

theorem witness_CommandWhileBusyChangesNothing : encoding.status = .busy := rfl

theorem witness_StepwiseCommandStartsFresh :
    State.reset.status ≠ .busy ∧ State.reset.pCompBits.toNat ≤ 8 * State.reset.pCompBytes.toNat := by decide

/-- One step for each line of R174. -/
theorem witness_StatusTransitions :
    after (fun t => t.status) (step (encodingWith [.hwReset])) = some .idle ∧
    after (fun t => t.status) (step { State.reset with inbox := [.give .stepwise .encode] }) = some .busy ∧
    after (fun t => t.status) (step { State.reset with inbox := [.give .transaction .decode] }) = some .done ∧
    after (fun t => t.status) (step encodingAtEnd) = some .done ∧
    after (fun t => t.status) (step (decoding [0x00, 0x01] 9 1)) = some .fault ∧
    after (fun t => t.status) (step (encodingWith [.give .transaction .encode])) = some .busy := by decide +kernel

/-- A result that stands while the host sets a parameter register. -/
theorem witness_ResultsStayUntilNextCommand :
    (encodeDone (valueBits 9 65) encoding).status = .done ∧
      after (fun t => t.status)
        (step { encodeDone (valueBits 9 65) encoding with inbox := [.setParam .compBits 3] }) = some .done ∧
      HostMove.setParam .compBits 3 ≠ .hwReset ∧ ∀ form c, HostMove.setParam .compBits 3 ≠ .give form c :=
  ⟨rfl, by decide +kernel, by decide, nofun⟩

theorem witness_InstructionsNeverWriteSource : after (fun t => t.brBitsRead) (exec (.cw9Ref 66) decodingAtB) = some 18 := by
  decide +kernel

theorem witness_HostCannotTouchBuffersWhileBusy : (decoding [] 0 0).status = .busy := rfl

theorem witness_EncodeStepsAgreeWithTransaction : State.reset.status ≠ .busy ∧ State.reset.inbox = [] := ⟨by decide, rfl⟩

theorem witness_DecodeStepsAgreeWithTransaction :
    (encodeDone [] encoding).status ≠ .busy ∧ (encodeDone [] encoding).inbox = [] := ⟨by decide, rfl⟩

/-- A fresh codec and one that has faulted. -/
theorem witness_CommandIgnoresHistory :
    State.reset.status ≠ .busy ∧ (raiseFault .outputOverflow State.reset).status ≠ .busy ∧
      State.reset.src = (raiseFault .outputOverflow State.reset).src ∧
      State.reset.pInputBytes = (raiseFault .outputOverflow State.reset).pInputBytes ∧
      State.reset.pCompBytes = (raiseFault .outputOverflow State.reset).pCompBytes ∧
      State.reset.pCompBits = (raiseFault .outputOverflow State.reset).pCompBits ∧
      State.reset.pExpectedBytes = (raiseFault .outputOverflow State.reset).pExpectedBytes ∧
      State.reset.encDstCap = (raiseFault .outputOverflow State.reset).encDstCap :=
  ⟨by decide, by decide, rfl, rfl, rfl, rfl, rfl, rfl⟩

/-- Two streams of 9 valid bits that differ in their padding and in P_COMP_BYTES. -/
theorem witness_DecodeDependsOnValidBitsOnly :
    (9 : Count32).toNat ≤ 8 * (2 : Count32).toNat ∧ (9 : Count32).toNat ≤ 8 * (3 : Count32).toNat ∧
      ∀ n, n < 9 → Memory.bitAt (Memory.ofBytes [0x41, 0x00]) n = Memory.bitAt (Memory.ofBytes [0x41, 0xfe, 0xff]) n := by decide

theorem witness_EncodeDependsOnInputOnly :
    ∀ a, a < 1 → Memory.read (Memory.ofBytes [65]) a = Memory.read (Memory.ofBytes [65, 66]) a := by decide

/-- Two bytes in a DST of 3, which is what 24 bits need; the stream of "AB", `41 84 00` (V4), for the second command. -/
theorem witness_DecodeOfEncodeReturnsInput :
    12 * ([65, 66] : List Symbol).length < 2 ^ 32 ∧ State.reset.status ≠ .busy ∧
    (∀ a, a < 2 → Memory.read (Memory.ofBytes [65, 66]) a = ([65, 66] : List Symbol)[a]?) ∧
    (2 : Count32).toNat = ([65, 66] : List Symbol).length ∧ (12 * ([65, 66] : List Symbol).length + 7) / 8 ≤ 3 ∧
    after (fun t => (t.rCompBits, t.rCompBytes, hostBytes t))
      (exec .lzwEncode { State.reset with src := Memory.ofBytes [65, 66], pInputBytes := 2, encDstCap := some 3 }) =
      some (18, 3, some [0x41, 0x84, 0x00]) ∧
    ∀ a, a < 3 → Memory.read (Memory.ofBytes [0x41, 0x84, 0x00]) a = ([0x41, 0x84, 0x00] : List Symbol)[a]? := by
  decide +kernel

theorem witness_EncodeFitsTwelveBitsPerByte :
    State.reset.status ≠ .busy ∧
      SrcSupplied 2 { State.reset with src := Memory.ofBytes [65, 66], pInputBytes := 2, encDstCap := some 3 } ∧
      12 * (2 : Count32).toNat < 2 ^ 32 ∧ (12 * (2 : Count32).toNat + 7) / 8 ≤ 3 ∧ 0 < (2 : Count32).toNat :=
  ⟨by decide, supplied_two, by decide, by decide, by decide⟩

/-- "AAAAAAA" (V7) cut at 4 bytes (V31), and not cut at all. -/
theorem witness_OutputTruncationGivesFirstBytes :
    after hostBytes (exec .lzwDecode { State.reset with
      src := Memory.ofBytes [0x41, 0x00, 0x06, 0x0c, 0x02], pCompBytes := 5, pCompBits := 36, pExpectedBytes := 7 }) =
      some (some (List.replicate 7 65)) ∧
    (4 : Count32).toNat ≤ (List.replicate 7 (65 : Symbol)).length ∧
    (7 : Count32).toNat ≤ (List.replicate 7 (65 : Symbol)).length := by decide +kernel

/-- A table whose entry 256 is its own parent. -/
def loopedTable : List Entry := rootTable ++ [entry 256 65]

/-- One state for each stop, and both sides of the conditions where they meet. -/
theorem witness_StopsAreNamed :
    (State.reset.encDstCap = none ∧ (1 : Count32).toNat + 1 < 2 ^ 32 ∧ (1 : Count32).toNat % 8 ≠ 0 ∧ (1 : Count32).toNat / 8 < 1 ∧
      Memory.read State.reset.dst ((1 : Count32).toNat / 8) = none ∧ 0 < ((1 : Count32).toNat + 7) / 8) ∧
    ((0 : Count32).toNat < (1 : Count32).toNat ∧ Memory.read State.reset.src ((0 : Count32).toNat / 8) = none) ∧
    State.reset.dictSize ≤ (256 : Code).toNat ∧ State.reset.decPrevCode = none ∧
    (loopedTable[(256 : Code).toNat]? = some (entry 256 65) ∧ (entry 256 65).parent = some 256) ∧
    (encoding.encInPos.toNat < encoding.pInputBytes.toNat ∧ encoding.encCode = none ∧
      ∀ i : Nat, ({ encoding with dict := [] } : State).dict[i]? ≠ some { parent := none, value := 65 }) ∧
    (State.reset.pInputBytes.toNat ≤ State.reset.encInPos.toNat ∧
      ({ parent := encodingAtB.encCode, value := 66 } : Entry) ∉ encodingAtB.dict ∧
      encoding.dict[65]? = some { parent := encoding.encCode, value := 65 }) ∧
    (decodingAtB.decPrevCode ≠ none ∧ 256 ≤ (256 : Code).toNat) ∧
    (decodingAtB.decCode.toNat ≠ decodingAtB.dictSize ∧ decodingAtB.dictSize ≤ (256 : Code).toNat) ∧
    (decoderAt .w10 512 none).width ≠ .w9 ∧ Width.w10 ≠ decodingAtB.width := by
  refine ⟨by decide, by decide, by decide +kernel, rfl, by decide +kernel, ⟨by decide, rfl, fun i => by simp⟩, by decide +kernel,
    by decide +kernel, by decide +kernel, by decide, by decide⟩

/-- The whole range of a parameter register, and no command running. -/
theorem witness_HostMovesWriteWhatTheyName :
    State.reset.status ≠ .busy ∧ (encodeDone [] encoding).status ≠ .busy ∧
      after (fun t => t.pCompBits) (hostMove (.setParam .compBits 0xffffffff) State.reset) = some 0xffffffff := by
  decide +kernel

end Sys2Proof.Tests
end

section
/-! PROOFS for 00_scope.md: a step runs the instruction that the decoder reads (R5, R76, R81), also in the state built for a
table word (log 15), and the two forms of a command come to the same state. -/

namespace Sys2Proof.Machine

/-! ## What the decoder reads -/

/-- A row of the table for a code below 2^WIDTH is well formed (R71). -/
theorem rowFor_wf {w : Width} {cls : WordClass} {c : Code} {i : Instr} (hc : c.toNat < 2 ^ w.bits)
    (h : rowFor w cls c = some i) : i.wf = true := by
  have hfit : codeFits w c = true := decide_eq_true hc
  cases cls with
  | lit =>
    cases w <;> cases h
    rfl
  | badlit =>
    cases w <;> cases h
    rfl
  | ref => cases w <;> cases h <;> exact hfit
  | kwk => cases w <;> cases h <;> exact hfit
  | oor => cases w <;> cases h <;> exact hfit

/-- What the decoder reads from the bits of an input byte (R81). -/
theorem decode_symbol_ok {found : Bool} {bits rest : List Bool} {i : Instr}
    (h : decode (.symbol found) bits = .ok (i, rest)) : ∃ v, i = if found then .encExtend v else .encEmit v := by
  simp only [decode] at h
  split at h
  · cases h
  · cases h; exact ⟨_, rfl⟩

/-- What the decoder reads from the bits of a code word: the row of the first WIDTH of them (R72, R76). -/
theorem decode_word_ok {w : Width} {prevNil : Bool} {size : Nat} {bits rest : List Bool} {i : Instr} :
    decode (.word w prevNil size) bits = .ok (i, rest) ↔
      bits ≠ [] ∧ rest = bits.drop w.bits ∧
        rowFor w (classify prevNil size (fetchedCode (bitsValue (bits.take w.bits))))
          (fetchedCode (bitsValue (bits.take w.bits))) = some i := by
  simp only [decode, List.isEmpty_iff, fetchedCode]
  by_cases hb : bits = []
  · simp [hb]
  · rw [if_neg hb]
    cases rowFor w (classify prevNil size (BitVec.ofNat 12 (bitsValue (bits.take w.bits))))
        (BitVec.ofNat 12 (bitsValue (bits.take w.bits))) with
    | none => simp
    | some j => simp [hb, and_comm, eq_comm]

/-- Every instruction that the decoder reads is well formed (R71). -/
theorem decode_wf {ctx : Ctx} {bits rest : List Bool} {i : Instr} (h : decode ctx bits = .ok (i, rest)) : i.wf = true := by
  cases ctx with
  | symbol found =>
    obtain ⟨v, rfl⟩ := decode_symbol_ok h
    cases found <;> rfl
  | word w prevNil size =>
    obtain ⟨-, -, hrow⟩ := decode_word_ok.mp h
    obtain ⟨hval, hlt⟩ := fetchedCode_toNat (bits.take w.bits) w (List.length_take_le _ _)
    exact rowFor_wf (by rw [hval]; exact hlt) hrow

/-- The bits behind a code word play no part in what the decoder reads (R72). -/
theorem decode_word_take {w : Width} {prevNil : Bool} {size : Nat} {bits rest : List Bool} {i : Instr}
    (h : decode (.word w prevNil size) bits = .ok (i, rest)) :
    decode (.word w prevNil size) (bits.take w.bits) = .ok (i, []) := by
  obtain ⟨hne, -, hrow⟩ := decode_word_ok.mp h
  have hpos := (width_bits_pos w).1
  refine decode_word_ok.mpr ⟨?_, by simp, by rwa [List.take_take, Nat.min_self]⟩
  simp only [ne_eq, List.take_eq_nil_iff, hne, or_false]
  omega

/-! ## The sequencer runs what the decoder reads -/

/-- With an input byte left, the sequencer's encoder step is the decoded instruction (R81, R136). -/
theorem stepEncode_decoded {u : State} {v : Symbol} {i : Instr} {rest : List Bool} (hc : encContinue u = true)
    (hv : inputByte u = some v) (hd : decodeBytes (symbolCtx v u) [v] = .ok (i, rest)) : stepEncode u = exec i u := by
  simp only [stepEncode, hc, if_true, nextEncoderInstr, hv, hd, Except.map]

/-- While R147's condition holds, the sequencer's decoder step is the decoded instruction (R76, R156). -/
theorem stepDecode_decoded {u : State} {bits rest : List Bool} {i : Instr} (hc : decContinue u = true)
    (hb : nextWordBits u = some bits) (hd : decode (wordCtx u) bits = .ok (i, rest)) : stepDecode u = exec i u := by
  simp only [stepDecode, hc, if_true, nextDecoderInstr, hb, hd, Except.map]

/-- After the last input byte, where ENC.FINISH ends or faults (R134, R135). -/
theorem stepEncode_finished {u t : State} (hc : encContinue u = false) (ht : exec .encFinish u = .next t) :
    stepEncode u = if t.status = .busy then (encEnd t).done else .next t := by
  simp only [stepEncode, hc, Bool.false_eq_true, if_false, ht]

theorem codecStep_encode {u : State} (hb : u.status = .busy) (hc : u.command = .encode) : codecStep u = stepEncode u := by
  rw [codecStep_busy u hb, hc]

theorem codecStep_decode {u : State} (hb : u.status = .busy) (hc : u.command = .decode) : codecStep u = stepDecode u := by
  rw [codecStep_busy u hb, hc]

/-- Settles O6: a step without a move is the codec's own, which runs what the decoder reads; any other move is the step. -/
theorem stepRunsDecodedInstruction : Obligations.StepRunsDecodedInstruction := by
  refine ⟨fun s u hu => ?_, fun s m rest hi hm => step_move hi hm⟩
  rw [step_noMove hu]
  refine ⟨fun hb hc hcont v i rest hv hd => ?_, fun hb hc hcont t ht => ?_, fun hb hc hcont bits i rest hbits hd => ?_,
    fun hb hc hcont => ?_, fun hb => codecStep_idle u hb⟩
  · exact ⟨decode_wf hd, (codecStep_encode hb hc).trans (stepEncode_decoded hcont hv hd)⟩
  · exact (codecStep_encode hb hc).trans (stepEncode_finished hcont ht)
  · exact ⟨decode_wf hd, (codecStep_decode hb hc).trans (stepDecode_decoded hcont hbits hd)⟩
  · exact (codecStep_decode hb hc).trans (stepDecode_end u hcont)

/-! ## The state built for a table word (log 15) -/

theorem map_fst_toOption_eq_some {ε α β : Type} {r : Except ε (α × β)} {a : α}
    (h : (r.toOption).map Prod.fst = some a) : ∃ b, r = .ok (a, b) := by
  cases r with
  | error e => cases h
  | ok p => cases h; exact ⟨p.2, rfl⟩

/-- A command's first input byte always extends the NIL match (R112 case a). -/
theorem symbolCtx_encInit (v : Symbol) (s : State) : symbolCtx v (encInit s) = .symbol true := by
  rw [symbolCtx, encInit_encCode, dictFind_nil (s := encInit s) dictWf_rootTable v, Option.isSome_some]

/-- A decode starts at WIDTH 9 with no previous code and the 256 roots (R146). -/
theorem wordCtx_decFresh (s : State) : wordCtx (decFresh s) = .word .w9 true 256 :=
  congrArg (Ctx.word .w9 true) rootTable_length

/-- A first code word of 9 bits, where SRC is a placed byte sequence with that many valid bits (R72, R146). -/
theorem nextWordBits_decFresh {s : State} {bytes : List Symbol} (hsrc : s.src = Memory.ofBytes bytes)
    (hvalid : 9 ≤ s.pCompBits.toNat) (hlen : 9 ≤ 8 * bytes.length) :
    nextWordBits (decFresh s) = some ((streamBits bytes).take 9) := by
  have hfetch : fetchLength (decFresh s).width.bits (decFresh s) = 9 := Nat.min_eq_left hvalid
  rw [nextWordBits, hfetch, srcBits_eq_some]
  refine ⟨by rw [List.length_take, streamBits_length]; omega, fun n hn => ?_⟩
  rw [List.getElem?_take_of_lt hn, ← bitAt_ofBytes, ← hsrc]
  exact congrArg (Memory.bitAt s.src) (Nat.zero_add n)

/-- The state of log 15 before an LZW.ENCODE of the one byte is started. -/
def byteLoaded (w : Nat) (s : State) : State :=
  { s with src := Memory.ofBytes [BitVec.ofNat 8 w], pInputBytes := 1, inbox := [] }

/-- The state of log 15 before an LZW.DECODE of the word's two bytes is started. -/
def wordLoaded (w : Nat) (s : State) : State :=
  { s with src := Memory.ofBytes (tableBytes w), pCompBytes := 2, pCompBits := 16, pExpectedBytes := 1, inbox := [] }

theorem withFetchWord_byte (s : State) {nbits : Nat} (w : Nat) (h : nbits ≤ 8) :
    s.withFetchWord nbits w = encInit (beginCommand .encode (byteLoaded w s)) :=
  if_pos h

/-- DEC.INIT is not refused here: the 16 valid bits stand in 2 bytes (R100). -/
theorem withFetchWord_word (s : State) {nbits : Nat} (w : Nat) (h : ¬nbits ≤ 8) :
    s.withFetchWord nbits w = decFresh (beginCommand .decode (wordLoaded w s)) :=
  if_neg h

/-- The state for a table word of at most 8 bits runs the row of an input byte in the context of a NIL match. -/
theorem step_byteLoaded (s : State) (w : Nat) {i : Instr} {rest : List Bool}
    (hd : decodeBytes (.symbol true) [BitVec.ofNat 8 w] = .ok (i, rest)) :
    step (encInit (beginCommand .encode (byteLoaded w s))) = exec i (encInit (beginCommand .encode (byteLoaded w s))) := by
  rw [step_codec _ rfl, codecStep_encode rfl rfl]
  rw [← symbolCtx_encInit (BitVec.ofNat 8 w) (beginCommand .encode (byteLoaded w s))] at hd
  exact stepEncode_decoded rfl rfl hd

/-- The state for a longer table word runs the row of a first code word, which takes 9 of the 16 bits. -/
theorem step_wordLoaded (s : State) (w : Nat) {i : Instr} {rest : List Bool}
    (hd : decodeBytes (.word .w9 true 256) (tableBytes w) = .ok (i, rest)) :
    step (decFresh (beginCommand .decode (wordLoaded w s))) = exec i (decFresh (beginCommand .decode (wordLoaded w s))) := by
  have hbits : nextWordBits (decFresh (beginCommand .decode (wordLoaded w s))) = some ((streamBits (tableBytes w)).take 9) :=
    nextWordBits_decFresh rfl (show 9 ≤ (16 : Count32).toNat by decide) (show 9 ≤ 8 * 2 by decide)
  rw [step_codec _ rfl, codecStep_decode rfl rfl]
  refine stepDecode_decoded rfl hbits (rest := []) ?_
  rw [wordCtx_decFresh]
  exact decode_word_take hd

/-- Settles O7: the context of the built state is the one in which `decodeTableWord` reads the word, for either command. -/
theorem withFetchWordRunsTableWord : Obligations.WithFetchWordRunsTableWord := by
  intro s nbits w i h
  unfold decodeTableWord at h
  split at h
  next h8 =>
    obtain ⟨rest, hd⟩ := map_fst_toOption_eq_some h
    rw [withFetchWord_byte s w h8]
    exact step_byteLoaded s w hd
  next h8 =>
    obtain ⟨rest, hd⟩ := map_fst_toOption_eq_some h
    rw [withFetchWord_word s w h8]
    exact step_wordLoaded s w hd

/-! ## The two forms of a command -/

/-- Settles O51: the command's first lines are the first step, and R136 from the loop on is the rest of the run. -/
theorem encodeStepsAgreeWithTransaction : Obligations.EncodeStepsAgreeWithTransaction := by
  intro s hs hi
  have hfirst := (step_give .stepwise .encode hi).trans (startStepwise_encode hs)
  have hexec : exec .lzwEncode s = (runEncode (beginCommand .encode s)).done := if_neg hs
  have hrest : core.run (s.pInputBytes.toNat + 1) (encInit (beginCommand .encode s)) =
      (runEncode (beginCommand .encode s)).done := run_scan _ _ hi rfl rfl (Nat.le_add_left _ _)
  exact (run_next hfirst _).trans (hrest.trans hexec.symm)

/-- Settles O52: the command's first lines are the first step; a refused parameter ends both forms there, and else R156 from
the loop on is the rest of the run. -/
theorem decodeStepsAgreeWithTransaction : Obligations.DecodeStepsAgreeWithTransaction := by
  intro s hs hi
  have hfirst := (step_give .stepwise .decode hi).trans (startStepwise_decode hs)
  have hexec : exec .lzwDecode s = (runDecode (beginCommand .decode s)).done := if_neg hs
  rw [hexec, runDecode]
  rcases decInit_cases (beginCommand .decode s) with ⟨-, hinit⟩ | ⟨-, hinit⟩ <;> rw [hinit] at hfirst ⊢
  · exact (run_next hfirst _).trans (run_idle (raiseFault .badParameters (beginCommand .decode s)) hi (by simp) _)
  · exact (run_next hfirst _).trans (run_loop s.pCompBits.toNat _ hi rfl rfl (Nat.le_add_left _ _))

end Sys2Proof.Machine
end

section
/-! PROOFS for 10_state.md: the reset state (R42), the invariant of R41 along every step, and what neither an instruction nor a
move of the host touches (R35, R56, R63, R212). -/

namespace Sys2Proof.Machine

/-! ## The state after reset -/

/-- A codec that runs nothing meets the invariant with a well-formed table, a whole scratch buffer and canonical buffers. -/
theorem inv_of_idle {s : State} (hdict : DictWf s.dict) (hscratch : s.scratch.length = 4096) (hsrc : s.src.wf = true)
    (hdst : s.dst.wf = true) (hstatus : s.status = .idle) (hcause : s.cause = .none) : Inv s where
  dict := hdict
  scratch := hscratch
  src := hsrc
  dst := hdst
  cause := by rw [hstatus, hcause]; simp
  encoding := fun hb => by rw [hstatus] at hb; cases hb
  decoding := fun hb => by rw [hstatus] at hb; cases hb
  done := fun hd => by rw [hstatus] at hd; cases hd

theorem reset_inv : Inv State.reset :=
  inv_of_idle dictWf_rootTable List.length_replicate rfl rfl rfl rfl

/-- A hardware reset leaves SRC and DST, so they stay canonical (R210). -/
theorem hardwareReset_inv {s : State} (h : Inv s) : Inv (hardwareReset s) :=
  inv_of_idle dictWf_rootTable (by simp [hardwareReset, Config.scratchCapacity]) h.src h.dst rfl rfl

/-! ## The host's side and the invariant -/

theorem EncRunning.withInbox {s : State} (h : EncRunning s) (moves : List HostMove) : EncRunning { s with inbox := moves } :=
  ⟨h.pos, h.nil, h.fresh, h.code, h.sizes, h.distinct, h.bits, h.writer⟩

theorem DecRunning.withInbox {s : State} (h : DecRunning s) (moves : List HostMove) : DecRunning { s with inbox := moves } :=
  ⟨h.opened, h.read, h.valid, h.out, h.epochStart, h.within, h.dst⟩

/-- The invariant says nothing of the host's further moves. -/
theorem Inv.withInbox {s : State} (h : Inv s) (moves : List HostMove) : Inv { s with inbox := moves } :=
  ⟨h.dict, h.scratch, h.src, h.dst, h.cause, fun hb hc => (h.encoding hb hc).withInbox moves,
    fun hb hc => (h.decoding hb hc).withInbox moves, h.done⟩

/-- While no command runs, the invariant asks of the host's side a canonical SRC only. -/
theorem Inv.withHostSide {s t : State} (h : Inv s) (hs : s.status ≠ .busy) (hsrc : t.src.wf = true)
    (ht : t = { s with
      src := t.src, pInputBytes := t.pInputBytes, pCompBytes := t.pCompBytes, pCompBits := t.pCompBits,
      pExpectedBytes := t.pExpectedBytes, encDstCap := t.encDstCap }) : Inv t := by
  rw [ht]
  exact ⟨h.dict, h.scratch, hsrc, h.dst, h.cause, fun hb => absurd hb hs, fun hb => absurd hb hs, h.done⟩

theorem setParam_inv {s : State} (h : Inv s) (hs : s.status ≠ .busy) (p : Param) (v : Count32) : Inv (setParam p v s) := by
  cases p <;> exact h.withHostSide hs h.src rfl

theorem placeSrc_inv {s : State} (h : Inv s) (hs : s.status ≠ .busy) (bytes : List Symbol) : Inv (placeSrc bytes s) :=
  h.withHostSide hs (Memory.wf_ofBytes bytes) rfl

theorem supplyDst_inv {s : State} (h : Inv s) (hs : s.status ≠ .busy) (cap : Option Nat) : Inv (supplyDst cap s) :=
  h.withHostSide hs h.src rfl

/-! ## Steps of a running command -/

/-- The state an operation of a running command comes to meets the invariant. -/
theorem Flow.Safe.inv {c : Command} {s t : State} {f : Flow Unit} (h : f.Safe c s) (hs : s.scratch.length = 4096)
    (hsrc : s.src.wf = true) (ht : f.done = .next t) : Inv t := by
  cases f with
  | stop r => cases ht
  | raised u =>
    cases ht
    exact Faulted.inv h hs hsrc
  | ret a u =>
    cases ht
    obtain ⟨hrun, hsame, hscratch⟩ := h
    exact hrun.inv (hscratch hs) (by rw [hsame.src]; exact hsrc)

/-- An input byte, or FINISH with the normal end behind it (R134 to R136). -/
theorem stepEncode_inv {s t : State} (h : Running .encode s) (hs : s.scratch.length = 4096) (hsrc : s.src.wf = true)
    (ht : stepEncode s = .next t) : Inv t := by
  cases hc : encContinue s with
  | true =>
    rw [stepEncode_continue s hc] at ht
    exact (encByte_safe h hc).inv hs hsrc ht
  | false =>
    rw [stepEncode_finish s hc] at ht
    rcases encFinish_safe h with ⟨written, hf, hw, -⟩ | ⟨u, hf, hfault, -⟩ <;> rw [hf] at ht
    · have hbusy : (withBits written s).status = .busy := h.busy
      simp only [hbusy, if_true, encEnd_holds hw] at ht
      cases ht
      exact encodeDone_inv h hw hs hsrc
    · simp only [hfault.status, reduceCtorEq, if_false] at ht
      cases ht
      exact hfault.inv hs hsrc

/-- A code word, or the normal end (R155, R156). -/
theorem stepDecode_inv {s t : State} (h : Running .decode s) (hs : s.scratch.length = 4096) (hsrc : s.src.wf = true)
    (ht : stepDecode s = .next t) : Inv t := by
  cases hc : decContinue s with
  | true =>
    rw [stepDecode_continue s hc] at ht
    exact (decStep_safe h hc).1.inv hs hsrc ht
  | false =>
    rw [stepDecode_end s hc] at ht
    cases ht
    exact decEnd_inv h hs hsrc

theorem codecStep_inv {s t : State} (h : Inv s) (ht : codecStep s = .next t) : Inv t := by
  by_cases hb : s.status = .busy
  · have hrun := h.running hb
    rw [codecStep_busy s hb] at ht
    cases hc : s.command with
    | encode =>
      rw [hc] at hrun ht
      exact stepEncode_inv hrun h.scratch h.src ht
    | decode =>
      rw [hc] at hrun ht
      exact stepDecode_inv hrun h.scratch h.src ht
  · rw [codecStep_idle s hb] at ht
    cases ht
    exact h

/-! ## Commands -/

/-- A decode with refused parameters keeps the dictionary it found (R192). -/
theorem badParameters_faulted {s : State} (h : DictWf s.dict) :
    Faulted s (raiseFault .badParameters (beginCommand .decode s)) :=
  ⟨h, rfl, rfl, CodecFault.badParameters.cause_ne_none, ⟨rfl, rfl, rfl, rfl, rfl, rfl, rfl⟩, id⟩

theorem execLzwEncode_inv {s t : State} (h : Inv s) (ht : execLzwEncode s = .next t) : Inv t := by
  unfold execLzwEncode at ht
  split at ht
  · cases ht
    exact h
  · rcases runEncode_cases s with ⟨u, written, hu, hrun, hsame, hscratch, hw, -⟩ | ⟨u, hu, hfault, -⟩ | ⟨r, hu, -⟩ <;>
      rw [hu] at ht <;> cases ht
    · exact encodeDone_inv hrun hw (hscratch h.scratch) (by rw [hsame.src]; exact h.src)
    · exact hfault.inv h.scratch h.src

theorem execLzwDecode_inv {s t : State} (h : Inv s) (ht : execLzwDecode s = .next t) : Inv t := by
  unfold execLzwDecode at ht
  split at ht
  · cases ht
    exact h
  · rcases runDecode_cases s with ⟨-, hu⟩ | ⟨-, ⟨u, hu, hrun, hsame, hscratch, -⟩ | ⟨u, hu, hfault, -⟩ | ⟨r, hu, -⟩⟩ <;>
      rw [hu] at ht <;> cases ht
    · exact (badParameters_faulted h.dict).inv h.scratch h.src
    · exact decEnd_inv hrun (hscratch h.scratch) (by rw [hsame.src]; exact h.src)
    · exact hfault.inv h.scratch h.src

/-- The first lines of a command in the step-by-step form (R131, R146), or nothing while BUSY (R176). -/
theorem startStepwise_inv {s t : State} (h : Inv s) (c : Command) (ht : startStepwise c s = .next t) : Inv t := by
  unfold startStepwise at ht
  split at ht
  · cases ht
    exact h
  · cases c with
    | encode =>
      cases ht
      exact (encStart_running s).inv h.scratch h.src
    | decode =>
      simp only [exec, execDecInit] at ht
      rcases decInit_cases (beginCommand .decode s) with ⟨-, hi⟩ | ⟨hp, hi⟩ <;> rw [hi] at ht <;> cases ht
      · exact (badParameters_faulted h.dict).inv h.scratch h.src
      · exact (decStart_running s hp).inv h.scratch h.src

theorem giveCommand_inv {s t : State} (h : Inv s) (form : Form) (c : Command) (ht : giveCommand form c s = .next t) :
    Inv t := by
  cases form with
  | transaction =>
    cases c with
    | encode => exact execLzwEncode_inv h ht
    | decode => exact execLzwDecode_inv h ht
  | stepwise =>
    cases c with
    | encode => exact startStepwise_inv h .encode ht
    | decode => exact startStepwise_inv h .decode ht

/-! ## Every step -/

theorem hostMove_inv {s t : State} (h : Inv s) (m : HostMove) (ht : hostMove m s = .next t) : Inv t := by
  cases m with
  | wait =>
    cases ht
    exact h
  | setParam p v =>
    obtain ⟨hs, rfl⟩ := whenNotBusy_next ht
    exact setParam_inv h hs p v
  | placeSrc bytes =>
    obtain ⟨hs, rfl⟩ := whenNotBusy_next ht
    exact placeSrc_inv h hs bytes
  | supplyDst cap =>
    obtain ⟨hs, rfl⟩ := whenNotBusy_next ht
    exact supplyDst_inv h hs cap
  | give form c => exact giveCommand_inv h form c ht
  | hwReset =>
    cases ht
    exact hardwareReset_inv h

/-- Settles O4: a step is the codec's own or a move of the host, taken off the list; each keeps the invariant. -/
theorem stepKeepsInvariant : Obligations.StepKeepsInvariant := by
  intro s t h ht
  cases hi : s.inbox with
  | nil =>
    rw [step_codec s hi] at ht
    exact codecStep_inv h ht
  | cons m rest =>
    by_cases hm : m = .wait
    · rw [step_noMove (.inr ⟨rest, hm ▸ hi, rfl⟩)] at ht
      exact codecStep_inv (h.withInbox rest) ht
    · rw [step_move hi hm] at ht
      exact hostMove_inv (h.withInbox rest) m ht

/-! ## What no instruction writes -/

theorem withResult_same (r : OpResult) (s : State) : HostSame s { s with result := r } := ⟨rfl, rfl, rfl, rfl, rfl, rfl, rfl⟩

theorem encInit_same (s : State) : HostSame s (encInit s) := ⟨rfl, rfl, rfl, rfl, rfl, rfl, rfl⟩

theorem dictAdd_same (parent : Code) (value : Symbol) (s : State) : HostSame s (dictAdd parent value s).2 := by
  obtain ⟨d, h⟩ := dictAdd_frame parent value s
  rw [h]; exact ⟨rfl, rfl, rfl, rfl, rfl, rfl, rfl⟩

theorem dictGrow_same (s : State) : HostSame s (dictGrow s).2 := by
  obtain ⟨d, w, h⟩ := dictGrow_frame s
  rw [h]; exact ⟨rfl, rfl, rfl, rfl, rfl, rfl, rfl⟩

/-- A row refused outside its condition (log 13) keeps the host's side when its meaning does. -/
theorem outcomeSame_ite {s : State} {p : Prop} [Decidable p] {x : Host.Outcome State Fault Refusal} {r : Refusal}
    (h : OutcomeSame s x) : OutcomeSame s (if p then x else .refused r) := by
  split
  · exact h
  · trivial

theorem execEncExtend_same (value : Symbol) (s : State) : OutcomeSame s (execEncExtend value s) := by
  refine outcomeSame_ite ?_
  split
  · exact ⟨rfl, rfl, rfl, rfl, rfl, rfl, rfl⟩
  · trivial

theorem execEncEmit_same (value : Symbol) (s : State) : OutcomeSame s (execEncEmit value s) := by
  refine outcomeSame_ite ?_
  split
  · trivial
  · exact (encEmit_keeps value s).done

theorem decLit_same (s : State) : HostSame s (decLit s) := by
  obtain ⟨d, n, h⟩ := decLit_frame s
  rw [h]; exact ⟨rfl, rfl, rfl, rfl, rfl, rfl, rfl⟩

theorem codeWord_same (w : Width) (cls : WordClass) (c : Code) (s : State) : OutcomeSame s (codeWord w cls c s) :=
  outcomeSame_ite (wordStep_keeps c s).done

/-- While BUSY a command changes nothing (R176); else it begins and runs. -/
theorem outcomeSame_command {s : State} {c : Command} {f : Flow Unit} (h : f.Ends (beginCommand c s) c) :
    OutcomeSame s (if s.status = .busy then .next s else f.done) := by
  split
  · exact .refl s
  · cases f with
    | stop r => trivial
    | raised t => exact (beginCommand_same c s).trans h.1
    | ret a t => exact (beginCommand_same c s).trans h.1

/-- Every instruction keeps the host's side (R35, R56, R63). -/
theorem exec_same (i : Instr) (s : State) : OutcomeSame s (exec i s) := by
  cases i with
  | lzwEncode => exact outcomeSame_command (runEncode_ends (beginCommand .encode s))
  | lzwDecode => exact outcomeSame_command (runDecode_ends (beginCommand .decode s))
  | bwInit | dictReset => exact ⟨rfl, rfl, rfl, rfl, rfl, rfl, rfl⟩
  | bwAppendbit bit => exact (bwAppendBit_keeps bit s).done
  | bwAppendbits value width => exact (bwAppendBits_keeps value width s).done
  | bwBytecount | bwBitcount | brEos | dictFind parent value => exact withResult_same _ s
  | bwRelease => exact (bwRelease_keeps s).report _
  | brOpen byteCapacity validBits => exact (brOpen_keeps byteCapacity validBits s).done
  | brReadbit => exact (brReadBit_keeps s).report _
  | brReadbits width => exact (brReadBits_keeps width s).report _
  | dictAdd parent value => exact (dictAdd_same parent value s).trans (withResult_same _ _)
  | dictGrow => exact (dictGrow_same s).trans (withResult_same _ _)
  | dictSeq code => exact (dictSeq_keeps code s).report _
  | encInit => exact encInit_same s
  | encExtend value => exact execEncExtend_same value s
  | encEmit value => exact execEncEmit_same value s
  | encFinish => exact (encFinish_keeps s).done
  | decInit => exact (decInit_keeps s).done
  | decFetch => exact (decFetch_keeps s).done
  | decLit => exact outcomeSame_ite (decLit_same s)
  | decKwk => exact outcomeSame_ite (decKwk_keeps s).done
  | decRef => exact outcomeSame_ite (decRef_keeps s).done
  | decWrite bytes => exact (decWrite_keeps bytes s).done
  | decUpdate => exact (decUpdate_keeps s).done
  | cw9Lit v | cw9Badlit v => exact codeWord_same _ _ _ s
  | cw9Ref c | cw9Kwk c | cw9Oor c | cw10Ref c | cw10Kwk c | cw10Oor c | cw11Ref c | cw11Kwk c | cw11Oor c | cw12Ref c
  | cw12Kwk c | cw12Oor c => exact codeWord_same _ _ c s

/-- Settles O49: the host's side, field by field. -/
theorem instructionsNeverWriteSource : Obligations.InstructionsNeverWriteSource := by
  intro i s t ht
  have h := exec_same i s
  rw [ht] at h
  exact ⟨h.src, h.pInputBytes, h.pCompBytes, h.pCompBits, h.pExpectedBytes, h.encDstCap, h.inbox⟩

/-! ## The reset state and the host's moves, value by value -/

/-- Settles O2: the roots are the table's first 256 entries, and no command runs in the reset state. -/
theorem resetStateIsFresh : Obligations.ResetStateIsFresh :=
  ⟨rootTable_length, dictWf_rootTable.roots, rfl, rfl, rfl, rfl, rfl, rfl, rfl, rfl, rfl, rfl, step_idle _ rfl nofun⟩

/-- Settles O3. -/
theorem resetMeetsInvariant : Obligations.ResetMeetsInvariant := reset_inv

/-- A move on a buffer or a parameter register is made while no command runs (log 12). -/
theorem whenNotBusy_of_notBusy {s : State} (hs : s.status ≠ .busy) (t : State) : whenNotBusy t s = .next t := if_neg hs

/-- Settles O60: each move is made, and the placed bytes read back at their offsets. -/
theorem hostMovesWriteWhatTheyName : Obligations.HostMovesWriteWhatTheyName := by
  intro s hs
  have made := whenNotBusy_of_notBusy hs
  refine ⟨fun v => ⟨made _, made _, made _, made _⟩, fun bytes => ?_, fun cap => made _⟩
  exact ⟨placeSrc bytes s, made _, rfl, Memory.read_ofBytes bytes⟩

end Sys2Proof.Machine
end

section
/-! PROOFS for 20_memory.md: SRC as the host has placed it carries every command to its end (R51, R212, R219), a DST of 12 bits
for each input byte carries every encode (R65, R139), and the host leaves both alone while BUSY (R59, R213). -/

namespace Sys2Proof.Machine

/-! ## The SRC bytes of a command -/

/-- The machine is not stopped, and a command that still runs has its SRC bytes in place. -/
def GoesOn (x : Host.Outcome State Fault Refusal) : Prop := ∃ t, x = .next t ∧ RunSupplied t

theorem goesOn_next {s : State} (h : RunSupplied s) : GoesOn (.next s) := ⟨s, rfl, h⟩

/-- Where no command runs, no SRC byte is asked for. -/
theorem goesOn_ended {s : State} (hs : s.status ≠ .busy) : GoesOn (.next s) := goesOn_next fun hb => absurd hb hs

theorem Faulted.notBusy {s t : State} (h : Faulted s t) : t.status ≠ .busy := by rw [h.status]; simp

/-- What a running decode reads is what it was given: BR.validBits is P_COMP_BITS, which BR.OPEN let through (R31, R100). -/
theorem DecRunning.srcSupplied_iff {s : State} (h : DecRunning s) :
    SrcSupplied ((s.brValidBits.toNat + 7) / 8) s ↔ CommandSupplied .decode s := by
  obtain ⟨hbits, hbytes⟩ := h.opened
  have hvalid := h.valid
  rw [hbits, hbytes] at hvalid
  simp only [CommandSupplied, hbits, hvalid, true_implies]

theorem Running.runSupplied_iff {c : Command} {s : State} (h : Running c s) : RunSupplied s ↔ CommandSupplied c s := by
  simp only [RunSupplied, h.busy, h.command, true_implies]
  cases c with
  | encode => exact Iff.rfl
  | decode => exact (h.decoder rfl).srcSupplied_iff

/-- The bytes a command reads are counted by the host's registers alone (R51). -/
theorem CommandSupplied.same {c : Command} {s t : State} (h : CommandSupplied c s) (hsame : HostSame s t) :
    CommandSupplied c t := by
  cases c with
  | encode => simpa only [CommandSupplied, SrcSupplied, hsame.src, hsame.pInputBytes] using h
  | decode => simpa only [CommandSupplied, SrcSupplied, hsame.src, hsame.pCompBits, hsame.pCompBytes] using h

/-- An operation of a supplied command that is not stopped leaves the command supplied, or ends it with a fault. -/
theorem Flow.Safe.goesOn {c : Command} {s : State} {f : Flow Unit} (h : f.Safe c s) (hs : CommandSupplied c s)
    (hstop : ∀ r, f ≠ .stop r) : GoesOn f.done := by
  cases f with
  | stop r => exact absurd rfl (hstop r)
  | raised t => exact goesOn_ended (Faulted.notBusy h)
  | ret a t =>
    obtain ⟨hrun, hsame, -⟩ := h
    exact goesOn_next (hrun.runSupplied_iff.mpr (hs.same hsame))

/-! ## Steps of a running command -/

/-- An input byte, or FINISH with the normal end behind it (R134 to R136). -/
theorem stepEncode_goesOn {s : State} (h : Running .encode s) (hs : CommandSupplied .encode s) : GoesOn (stepEncode s) := by
  cases hc : encContinue s with
  | true =>
    rw [stepEncode_continue s hc]
    exact (encByte_safe h hc).goesOn hs (encByte_supplied h hs hc)
  | false =>
    rw [stepEncode_finish s hc]
    rcases encFinish_safe h with ⟨written, hf, hw, -⟩ | ⟨u, hf, hfault, -⟩ <;> rw [hf]
    · have hbusy : (withBits written s).status = .busy := h.busy
      simp only [hbusy, if_true, encEnd_holds hw]
      exact goesOn_ended nofun
    · simp only [hfault.notBusy, if_false]
      exact goesOn_ended hfault.notBusy

/-- A code word, or the normal end (R155, R156). -/
theorem stepDecode_goesOn {s : State} (h : Running .decode s) (hs : CommandSupplied .decode s) : GoesOn (stepDecode s) := by
  cases hc : decContinue s with
  | true =>
    obtain ⟨hsafe, -, -, hsup⟩ := decStep_safe h hc
    rw [stepDecode_continue s hc]
    exact hsafe.goesOn hs (hsup ((h.decoder rfl).srcSupplied_iff.mpr hs))
  | false =>
    rw [stepDecode_end s hc]
    exact goesOn_ended nofun

theorem codecStep_goesOn {s : State} (h : Inv s) (hs : RunSupplied s) : GoesOn (codecStep s) := by
  by_cases hb : s.status = .busy
  · have hrun := h.running hb
    have hsup := hrun.runSupplied_iff.mp hs
    rw [codecStep_busy s hb]
    cases hc : s.command with
    | encode => rw [hc] at hrun hsup; exact stepEncode_goesOn hrun hsup
    | decode => rw [hc] at hrun hsup; exact stepDecode_goesOn hrun hsup
  · rw [codecStep_idle s hb]
    exact goesOn_next hs

/-! ## Moves of the host -/

/-- A command as one transaction with its SRC in place (R171): it ends. -/
theorem runEncode_goesOn {s : State} (hs : CommandSupplied .encode s) : GoesOn (runEncode (beginCommand .encode s)).done := by
  rcases runEncode_cases s with ⟨u, written, hu, -⟩ | ⟨t, ht, hfault, -⟩ | ⟨r, -, hno⟩
  · rw [hu]; exact goesOn_ended nofun
  · rw [ht]; exact goesOn_ended hfault.notBusy
  · exact absurd hs hno

/-- A command as one transaction with its SRC in place (R172), or with refused parameters: it ends. -/
theorem runDecode_goesOn {s : State} (hs : CommandSupplied .decode s) : GoesOn (runDecode (beginCommand .decode s)).done := by
  rcases runDecode_cases s with ⟨-, hu⟩ | ⟨hp, ⟨u, hu, -⟩ | ⟨t, ht, hfault, -⟩ | ⟨r, -, hno⟩⟩
  · rw [hu]; exact goesOn_ended nofun
  · rw [hu]; exact goesOn_ended nofun
  · rw [ht]; exact goesOn_ended hfault.notBusy
  · exact absurd (hs hp) hno

/-- The first lines of a decode (R146): refused parameters end it, else it runs. -/
theorem decStart_goesOn {s : State} (hs : CommandSupplied .decode s) : GoesOn (decInit (beginCommand .decode s)).done := by
  rcases decInit_cases (beginCommand .decode s) with ⟨-, hi⟩ | ⟨hp, hi⟩ <;> rw [hi]
  · exact goesOn_ended nofun
  · exact goesOn_next ((decStart_running s hp).runSupplied_iff.mpr hs)

/-- While BUSY a command is refused without effect (R176). -/
theorem goesOn_unlessBusy {s : State} {x : Host.Outcome State Fault Refusal} (hrun : RunSupplied s)
    (hx : s.status ≠ .busy → GoesOn x) : GoesOn (if s.status = .busy then .next s else x) := by
  split
  · exact goesOn_next hrun
  · exact hx ‹_›

/-- A command given with its SRC in place, in either of R5's forms (R170). -/
theorem giveCommand_goesOn {s : State} (form : Form) (c : Command) (hrun : RunSupplied s)
    (hs : s.status ≠ .busy → CommandSupplied c s) : GoesOn (giveCommand form c s) := by
  cases form with
  | transaction =>
    cases c with
    | encode => exact goesOn_unlessBusy hrun fun hb => runEncode_goesOn (hs hb)
    | decode => exact goesOn_unlessBusy hrun fun hb => runDecode_goesOn (hs hb)
  | stepwise =>
    cases c with
    | encode => exact goesOn_unlessBusy hrun fun hb => goesOn_next ((encStart_running s).runSupplied_iff.mpr (hs hb))
    | decode => exact goesOn_unlessBusy hrun fun hb => decStart_goesOn (hs hb)

theorem setParam_status (p : Param) (v : Count32) (s : State) : (setParam p v s).status = s.status := by cases p <;> rfl

/-- A move on a buffer or a parameter register, made while not BUSY: no command runs after it either. -/
theorem whenNotBusy_goesOn {s t : State} (hs : s.status ≠ .busy) (ht : t.status = s.status) : GoesOn (whenNotBusy t s) := by
  rw [whenNotBusy_of_notBusy hs]
  exact goesOn_ended (by rw [ht]; exact hs)

theorem hostMove_goesOn {s : State} {m : HostMove} (hrun : RunSupplied s) (hm : MoveAllowed m s) : GoesOn (hostMove m s) := by
  cases m with
  | wait => exact goesOn_next hrun
  | setParam p v => exact whenNotBusy_goesOn hm (setParam_status p v s)
  | placeSrc bytes => exact whenNotBusy_goesOn hm rfl
  | supplyDst cap => exact whenNotBusy_goesOn hm rfl
  | give form c => exact giveCommand_goesOn form c hrun hm
  | hwReset => exact goesOn_ended nofun

/-- Settles O5: a step is the codec's own or an allowed move of the host, taken off the list; each goes on. -/
theorem stepNeverStops : Obligations.StepNeverStops := by
  intro s h hs hmoves
  cases hi : s.inbox with
  | nil =>
    rw [step_codec s hi]
    exact codecStep_goesOn h hs
  | cons m rest =>
    by_cases hm : m = .wait
    · rw [step_noMove (.inr ⟨rest, hm ▸ hi, rfl⟩)]
      exact codecStep_goesOn (h.withInbox rest) hs
    · rw [step_move hi hm]
      exact hostMove_goesOn (s := { s with inbox := rest }) hs (hmoves m rest hi)

/-! ## 12 bits for each input byte -/

/-- With room for 12 bits an input byte no line of an encode faults (R65, R139). -/
theorem runEncode_fits {s : State} (hfit : BitsFit 0 (12 * s.pInputBytes.toNat) s) (t : State) :
    runEncode (beginCommand .encode s) ≠ .raised t := by
  have hstart := encStart_running s
  obtain ⟨hsafe, hlast, -, -⟩ := encScan_safe s.pInputBytes.toNat hstart (by simp)
  have hscan : ∀ u, encScan s.pInputBytes.toNat (encInit (beginCommand .encode s)) ≠ .raised u :=
    encScan_fits s.pInputBytes.toNat hstart hfit
  unfold runEncode
  rw [beginCommand_pInputBytes]
  cases hs : encScan s.pInputBytes.toNat (encInit (beginCommand .encode s)) with
  | stop r => simp [Flow.bind]
  | raised u => exact absurd hs (hscan u)
  | ret a u =>
    rw [hs] at hsafe
    obtain ⟨hrun, hsame, -⟩ := hsafe
    have hfit' : BitsFit 0 (12 * u.pInputBytes.toNat) u := by
      rw [hsame.pInputBytes]
      exact bitsFit_le hfit hsame.encDstCap (Nat.le_of_eq (Nat.zero_add _))
    rcases encFinish_safe hrun with ⟨written, hf, hw, -⟩ | ⟨v, hf, -⟩
    · simp only [Flow.bind, hf, encEnd_holds hw]
      exact nofun
    · exact absurd hf (encFinish_fits_running hrun (hlast u hs) hfit' v)

/-- R24: a match is pending from the first input byte on. -/
theorem EncRunning.encCode_eq_none_iff {s : State} (h : EncRunning s) : s.encCode = none ↔ s.encInPos.toNat = 0 :=
  h.nil.trans (BitVec.toNat_inj (y := 0)).symm

/-- With every input byte taken, the words written and the last one come to at most 12 bits an input byte (R139). -/
theorem EncRunning.finished_le {s : State} (h : EncRunning s) (hc : encContinue s = false) :
    s.bwBitsWritten.toNat + (if s.encCode = none then 0 else s.width.bits) ≤ 12 * s.pInputBytes.toNat := by
  have hend : s.pInputBytes.toNat ≤ s.encInPos.toNat := by simpa [encContinue] using hc
  have hpos := h.pos
  have hbits := h.bits
  have hwidth := (width_bits_pos s.width).2
  split
  next => omega
  next hcode =>
    have hne : s.encInPos.toNat ≠ 0 := fun h0 => hcode (h.encCode_eq_none_iff.mpr h0)
    omega

/-- With every byte of a non-empty input taken, a match is pending, and its word takes at least 9 bits (R134, R139). -/
theorem EncRunning.finished_ge {s : State} (h : EncRunning s) (hc : encContinue s = false) (hne : 0 < s.pInputBytes.toNat) :
    9 ≤ s.bwBitsWritten.toNat + (if s.encCode = none then 0 else s.width.bits) := by
  have hend : s.pInputBytes.toNat ≤ s.encInPos.toNat := by simpa [encContinue] using hc
  have hcode : s.encCode ≠ none := fun hnil => by
    have hzero := h.encCode_eq_none_iff.mp hnil
    omega
  rw [if_neg hcode]
  exact (width_bits_pos s.width).1.trans (Nat.le_add_left _ _)

/-- Settles O57: of the three ends of an encode the supplied SRC rules out the stop and the room in DST the fault; the third is
DONE, with the bits of the writer after FINISH. -/
theorem encodeFitsTwelveBitsPerByte : Obligations.EncodeFitsTwelveBitsPerByte := by
  intro s hs hsrc h32 hcap
  have hfit : BitsFit 0 (12 * s.pInputBytes.toNat) s := by
    simpa only [BitsFit, Nat.zero_add] using And.intro h32 hcap
  have hexec : exec .lzwEncode s = (runEncode (beginCommand .encode s)).done := if_neg hs
  rcases runEncode_cases s with ⟨u, written, hu, hrun, hsame, -, hw, hc, hlen⟩ | ⟨t, ht, -⟩ | ⟨r, -, hno⟩
  · have henc := hrun.encoder rfl
    have hbits : (encodeDone written (withBits written u)).rCompBits.toNat = written.length :=
      (encodeDone_hostBytes hw hrun.command).1
    rw [hu] at hexec
    refine ⟨_, hexec, rfl, ?_, fun hne => ?_⟩ <;> rw [hbits, hlen]
    · exact hsame.pInputBytes ▸ henc.finished_le hc
    · exact henc.finished_ge hc (by rw [hsame.pInputBytes]; exact hne)
  · exact absurd ht (runEncode_fits hfit t)
  · exact absurd hsrc hno

/-! ## The host while BUSY -/

theorem whenNotBusy_of_busy {s : State} (hs : s.status = .busy) (t : State) :
    whenNotBusy t s = .refused .hostMoveWhileBusy := if_pos hs

/-- Settles O50: each of these moves is made only while not BUSY (log 12). -/
theorem hostCannotTouchBuffersWhileBusy : Obligations.HostCannotTouchBuffersWhileBusy := fun _ hs =>
  ⟨fun _ _ => whenNotBusy_of_busy hs _, fun _ => whenNotBusy_of_busy hs _, fun _ => whenNotBusy_of_busy hs _⟩

end Sys2Proof.Machine
end

section
/-! PROOFS for 30_encoding.md: decoding and encoding undo each other in every context (R71, R76, R80, R81), every code word has
one row (R76, R77), and the LIT, REF and KWK rows are one whole decoder step each (R148 to R154). -/

namespace Sys2Proof.Machine

/-! ## The rows of a code word -/

/-- R76: the condition of a class, as the spec's table writes it. -/
def ClassCondition (prevNil : Bool) (size : Nat) (c : Code) : WordClass → Prop
  | .lit => prevNil = true ∧ c.toNat < 256
  | .badlit => prevNil = true ∧ 256 ≤ c.toNat
  | .ref => prevNil = false ∧ c.toNat < size
  | .kwk => prevNil = false ∧ c.toNat = size
  | .oor => prevNil = false ∧ size < c.toNat

/-- R76: the class of a code is the one whose condition it meets. -/
theorem classify_eq_iff {prevNil : Bool} {size : Nat} {c : Code} {cls : WordClass} :
    classify prevNil size c = cls ↔ ClassCondition prevNil size c cls := by
  constructor
  · rintro rfl
    unfold classify
    cases prevNil with
    | true =>
      by_cases hroot : 256 ≤ c.toNat
      · rw [if_pos rfl, if_pos hroot]; exact ⟨rfl, hroot⟩
      · rw [if_pos rfl, if_neg hroot]; exact ⟨rfl, Nat.lt_of_not_le hroot⟩
    | false =>
      rw [if_neg nofun]
      rcases Nat.lt_trichotomy c.toNat size with hlt | heq | hgt
      · rw [if_neg (Nat.not_lt_of_lt hlt), if_neg (Nat.ne_of_lt hlt)]; exact ⟨rfl, hlt⟩
      · rw [if_neg (Nat.not_lt_of_le heq.le), if_pos heq]; exact ⟨rfl, heq⟩
      · rw [if_pos hgt]; exact ⟨rfl, hgt⟩
  · intro h
    cases cls <;> obtain ⟨rfl, hc⟩ := h
    case lit => exact if_neg (Nat.not_le_of_lt hc)
    case badlit => exact if_pos hc
    case ref => exact (if_neg (Nat.not_lt_of_lt hc)).trans (if_neg (Nat.ne_of_lt hc))
    case kwk => exact (if_neg (Nat.not_lt_of_le hc.le)).trans (if_pos hc)
    case oor => exact if_pos hc

/-- R76: in a context that the codec can be in, the table has a row for every code. -/
theorem exists_rowFor {w : Width} {prevNil : Bool} (hw : prevNil = true → w = .w9) (size : Nat) (c : Code) :
    ∃ i, rowFor w (classify prevNil size c) c = some i := by
  cases hcls : classify prevNil size c with
  | lit | badlit =>
    obtain ⟨hnil, -⟩ := classify_eq_iff.mp hcls
    rw [hw hnil]
    exact ⟨_, rfl⟩
  | ref | kwk | oor => cases w <;> exact ⟨_, rfl⟩

/-- The condition of a code's row holds in the context that gave the row (R76). -/
theorem selects_rowFor {w : Width} {prevNil : Bool} {size : Nat} {c : Code} {i : Instr}
    (h : rowFor w (classify prevNil size c) c = some i) : selects (.word w prevNil size) i = true := by
  cases hcls : classify prevNil size c <;> rw [hcls] at h <;> obtain ⟨rfl, hc⟩ := classify_eq_iff.mp hcls
  case lit | badlit =>
    cases w <;> cases h
    rfl
  case ref | kwk | oor => cases w <;> cases h <;> exact decide_eq_true hc

/-- The words of a code's row are the code's bits (R71). -/
theorem encode_rowFor {w : Width} {prevNil : Bool} {size : Nat} {c : Code} {i : Instr} (hfit : c.toNat < 2 ^ w.bits)
    (h : rowFor w (classify prevNil size c) c = some i) : encode i = some (valueBits w.bits c.toNat) := by
  cases hcls : classify prevNil size c <;> rw [hcls] at h
  case lit =>
    cases w <;> cases h
    simp only [encode, rootCode_setWidth c (classify_lit_lt hcls), Width.bits]
  case badlit =>
    cases w <;> cases h
    simp only [encode, badlitCode_setWidth c (classify_badlit_le hcls) hfit, Width.bits]
  case ref | kwk | oor => cases w <;> cases h <;> rfl

theorem rowFor_of_condition {w : Width} {prevNil : Bool} {size : Nat} {c : Code} {cls : WordClass} {i : Instr}
    (hcls : ClassCondition prevNil size c cls) (h : rowFor w cls c = some i) :
    rowFor w (classify prevNil size c) c = some i := by
  rw [classify_eq_iff.mpr hcls, h]

/-- R75: a root code stands for the symbol it was made from. -/
theorem codeSymbol_rootCode (v : Symbol) : codeSymbol (rootCode v) = v :=
  BitVec.eq_of_toNat_eq (by rw [codeSymbol, BitVec.toNat_setWidth, rootCode_toNat, Nat.mod_eq_of_lt v.isLt])

theorem badlitCode_toNat (c : BitVec 8) : (badlitCode c).toNat = 256 + c.toNat := by
  have := c.isLt
  rw [badlitCode, BitVec.toNat_ofNat, Nat.mod_eq_of_lt (by omega)]

/-- The operand of CW9.BADLIT is the low 8 bits of its code. -/
theorem setWidth_badlitCode (c : BitVec 8) : (badlitCode c).setWidth 8 = c :=
  BitVec.eq_of_toNat_eq (by rw [BitVec.toNat_setWidth, badlitCode_toNat, Nat.add_mod_left, Nat.mod_eq_of_lt c.isLt])

/-- An instruction selected as a code word is the row of a code that fits the width (R71, R76). -/
theorem exists_code_of_selects {w : Width} {prevNil : Bool} {size : Nat} {i : Instr} (hwf : i.wf = true)
    (h : selects (.word w prevNil size) i = true) :
    ∃ c : Code, c.toNat < 2 ^ w.bits ∧ rowFor w (classify prevNil size c) c = some i := by
  cases i with
  | cw9Lit v =>
    have hv := v.isLt
    simp only [selects, Bool.and_eq_true, decide_eq_true_eq] at h
    obtain ⟨rfl, hnil⟩ := h
    refine ⟨rootCode v, by rw [rootCode_toNat, Width.bits]; omega, rowFor_of_condition (cls := .lit) ⟨hnil, ?_⟩ ?_⟩
    · rw [rootCode_toNat]; exact hv
    · exact congrArg (some ∘ Instr.cw9Lit) (codeSymbol_rootCode v)
  | cw9Badlit c =>
    have hc := c.isLt
    simp only [selects, Bool.and_eq_true, decide_eq_true_eq] at h
    obtain ⟨rfl, hnil⟩ := h
    refine ⟨badlitCode c, by rw [badlitCode_toNat, Width.bits]; omega,
      rowFor_of_condition (cls := .badlit) ⟨hnil, ?_⟩ ?_⟩
    · rw [badlitCode_toNat]; omega
    · exact congrArg (some ∘ Instr.cw9Badlit) (setWidth_badlitCode c)
  | cw9Ref c | cw10Ref c | cw11Ref c | cw12Ref c =>
    simp only [selects, Bool.and_eq_true, decide_eq_true_eq, Bool.not_eq_true'] at h
    obtain ⟨⟨rfl, hnil⟩, hc⟩ := h
    exact ⟨c, of_decide_eq_true hwf, rowFor_of_condition (cls := .ref) ⟨hnil, hc⟩ rfl⟩
  | cw9Kwk c | cw10Kwk c | cw11Kwk c | cw12Kwk c =>
    simp only [selects, Bool.and_eq_true, decide_eq_true_eq, Bool.not_eq_true'] at h
    obtain ⟨⟨rfl, hnil⟩, hc⟩ := h
    exact ⟨c, of_decide_eq_true hwf, rowFor_of_condition (cls := .kwk) ⟨hnil, hc⟩ rfl⟩
  | cw9Oor c | cw10Oor c | cw11Oor c | cw12Oor c =>
    simp only [selects, Bool.and_eq_true, decide_eq_true_eq, Bool.not_eq_true'] at h
    obtain ⟨⟨rfl, hnil⟩, hc⟩ := h
    exact ⟨c, of_decide_eq_true hwf, rowFor_of_condition (cls := .oor) ⟨hnil, hc⟩ rfl⟩
  | _ => cases h

/-! ## The rows of an input byte -/

/-- R81: the row of an input byte, by whether DICT.FIND succeeds. -/
def symbolRow (found : Bool) (v : Symbol) : Instr := if found then .encExtend v else .encEmit v

theorem selects_symbol_iff {found : Bool} {i : Instr} : selects (.symbol found) i = true ↔ ∃ v, i = symbolRow found v := by
  constructor
  · intro h
    cases i with
    | encExtend v | encEmit v =>
      cases found <;> cases h
      exact ⟨v, rfl⟩
    | _ => cases h
  · rintro ⟨v, rfl⟩
    cases found <;> rfl

theorem encode_symbolRow (found : Bool) (v : Symbol) : encode (symbolRow found v) = some (byteBits v) := by
  rw [byteBits_eq_valueBits]
  cases found <;> rfl

theorem packByte_byteBits (v : Symbol) : packByte (byteBits v) = v :=
  BitVec.eq_of_toNat_eq (by rw [packByte, bitsValue_streamBits_byte, BitVec.toNat_ofNat, Nat.mod_eq_of_lt v.isLt])

/-- What the decoder reads from the bits of an input byte: the row of the first 8 of them (R81). -/
theorem decode_symbol_eq_ok {found : Bool} {bits rest : List Bool} {i : Instr} :
    decode (.symbol found) bits = .ok (i, rest) ↔
      8 ≤ bits.length ∧ rest = bits.drop 8 ∧ i = symbolRow found (packByte (bits.take 8)) := by
  simp only [decode]
  by_cases hlen : bits.length < Config.symbolBits
  · rw [if_pos hlen]
    exact ⟨nofun, fun h => absurd h.1 (Nat.not_le_of_lt hlen)⟩
  · rw [if_neg hlen, Except.ok.injEq, Prod.mk.injEq]
    exact ⟨fun ⟨hi, hrest⟩ => ⟨Nat.le_of_not_lt hlen, hrest.symm, hi.symm⟩,
      fun ⟨_, hrest, hi⟩ => ⟨hi.symm, hrest.symm⟩⟩

/-! ## Decode of encode, encode of decode -/

/-- Settles O8: the word of a selected row is the bits of its code or byte, and the decoder finds the same row for these. -/
theorem decodeOfEncodeIsSame : Obligations.DecodeOfEncodeIsSame := by
  intro ctx i bits rest hwf hsel henc
  cases ctx with
  | symbol found =>
    obtain ⟨v, rfl⟩ := selects_symbol_iff.mp hsel
    obtain rfl := Option.some.inj ((encode_symbolRow found v).symm.trans henc)
    have hlen := byteBits_length v
    refine decode_symbol_eq_ok.mpr ⟨by rw [List.length_append]; omega, (List.drop_left' hlen).symm, ?_⟩
    rw [List.take_left' hlen, packByte_byteBits]
  | word w prevNil size =>
    obtain ⟨c, hfit, hrow⟩ := exists_code_of_selects hwf hsel
    obtain rfl := Option.some.inj ((encode_rowFor hfit hrow).symm.trans henc)
    have hlen := valueBits_length w.bits c.toNat
    have hpos := (width_bits_pos w).1
    have hcode : fetchedCode (bitsValue (valueBits w.bits c.toNat)) = c := by
      rw [bitsValue_valueBits_of_lt _ _ hfit, fetchedCode, BitVec.ofNat_toNat, BitVec.setWidth_eq]
    refine decode_word_ok.mpr ⟨?_, (List.drop_left' hlen).symm, by rw [List.take_left' hlen, hcode]; exact hrow⟩
    exact List.ne_nil_of_length_pos (by rw [List.length_append]; omega)

/-- R80: the bits of a value read from a stream are the stream's, with zeros above them where it ends early. -/
theorem valueBits_bitsValue_take (n : Nat) (bits : List Bool) :
    valueBits n (bitsValue (bits.take n)) = bits.take n ++ List.replicate (n - bits.length) false := by
  have hlen : (bits.take n ++ List.replicate (n - bits.length) false).length = n := by
    rw [List.length_append, List.length_take, List.length_replicate]; omega
  have hval : bitsValue (bits.take n ++ List.replicate (n - bits.length) false) = bitsValue (bits.take n) := by
    rw [bitsValue_append, bitsValue_replicate_false, Nat.mul_zero, Nat.add_zero]
  have h := valueBits_bitsValue (bits.take n ++ List.replicate (n - bits.length) false)
  rwa [hlen, hval] at h

/-- Settles O9: what the decoder reads is the row of the code or byte that its bits stand for, which has these bits as words. -/
theorem decodeReadsItsOwnWords : Obligations.DecodeReadsItsOwnWords := by
  intro ctx bits rest i h
  refine ⟨decode_wf h, ?_⟩
  cases ctx with
  | symbol found =>
    obtain ⟨hlen, rfl, rfl⟩ := decode_symbol_eq_ok.mp h
    refine ⟨selects_symbol_iff.mpr ⟨_, rfl⟩, _, encode_symbolRow found _, ?_, ?_, ?_⟩
    · rw [byteBits_length]
    · exact List.ne_nil_of_length_pos (by omega)
    · rw [byteBits_length, byteBits_packByte _ (List.length_take_le _ _), List.length_take, Nat.min_eq_left hlen,
        Nat.sub_self, Nat.sub_eq_zero_of_le hlen]
  | word w prevNil size =>
    obtain ⟨hne, rfl, hrow⟩ := decode_word_ok.mp h
    obtain ⟨hval, hlt⟩ := fetchedCode_toNat (bits.take w.bits) w (List.length_take_le _ _)
    refine ⟨selects_rowFor hrow, _, encode_rowFor (by rw [hval]; exact hlt) hrow, ?_, hne, ?_⟩
    · rw [valueBits_length]
    · rw [valueBits_length, hval, valueBits_bitsValue_take]

/-- Settles O10: the class of a code has a row there, and two rows with one word are what the decoder reads from that word. -/
theorem everyWordHasOneRow : Obligations.EveryWordHasOneRow := by
  intro w prevNil size hw
  refine ⟨fun bits hne => ?_, fun i j bits hi hj hsi hsj hei hej => ?_⟩
  · obtain ⟨i, hrow⟩ := exists_rowFor hw size (fetchedCode (bitsValue (bits.take w.bits)))
    exact ⟨i, decode_word_ok.mpr ⟨hne, rfl, hrow⟩⟩
  · have hreadI := decodeOfEncodeIsSame _ i bits [] hi hsi hei
    have hreadJ := decodeOfEncodeIsSame _ j bits [] hj hsj hej
    exact congrArg Prod.fst (Except.ok.inj (hreadI.symm.trans hreadJ))

/-- Settles O11: each word is run through the decoder. -/
theorem sampleWordsDecode : Obligations.SampleWordsDecode := by
  unfold Obligations.SampleWordsDecode
  decide

/-! ## Output and table of a decoder step -/

/-- R153, one byte: with room for it, the byte at DEC.bytesWritten comes first and the others behind it. -/
theorem OutputAppended.cons {b : Symbol} {rest : List Symbol} {s t : State}
    (hroom : s.decBytesWritten.toNat < s.pExpectedBytes.toNat)
    (h : OutputAppended rest { s with
      dst := s.dst.write s.decBytesWritten.toNat b
      decBytesWritten := BitVec.ofNat 32 (s.decBytesWritten.toNat + 1) } t) : OutputAppended (b :: rest) s t := by
  obtain ⟨hcount, hstored, hothers⟩ := h
  have hnext : (BitVec.ofNat 32 (s.decBytesWritten.toNat + 1)).toNat = s.decBytesWritten.toNat + 1 := by
    have := s.pExpectedBytes.isLt
    rw [BitVec.toNat_ofNat, Nat.mod_eq_of_lt (by omega)]
  have hkept : keptBytes (b :: rest).length s =
      min rest.length (s.pExpectedBytes.toNat - (s.decBytesWritten.toNat + 1)) + 1 := by
    rw [keptBytes, List.length_cons]; omega
  simp only [keptBytes, hnext] at hcount hstored hothers
  refine ⟨by omega, fun j hj => ?_, fun a ha => ?_⟩
  · cases j with
    | zero => exact (hothers _ (.inl (Nat.lt_succ_self _))).trans (Memory.read_write_same _ _ _)
    | succ j =>
      rw [← Nat.add_assoc, Nat.add_right_comm, List.getElem?_cons_succ]
      exact hstored j (by omega)
  · exact (hothers a (by omega)).trans (Memory.read_write_other _ _ _ _ (by omega))

/-- What DEC.WRITE does in every state (R153). -/
theorem decWrite_appended (bytes : List Symbol) (s : State) : OutputAppended bytes s (decWrite bytes s) := by
  induction bytes generalizing s with
  | nil => exact ⟨by simp [keptBytes, decWrite], fun j hj => by simp [keptBytes] at hj, fun _ _ => rfl⟩
  | cons b rest ih =>
    by_cases hroom : s.decBytesWritten.toNat < s.pExpectedBytes.toNat
    · rw [decWrite, if_pos hroom]
      exact .cons hroom (ih _)
    · have hkept : keptBytes (b :: rest).length s = 0 := by rw [keptBytes]; omega
      rw [decWrite_full _ _ (Nat.le_of_not_lt hroom)]
      exact ⟨by rw [hkept, Nat.add_zero], fun j hj => by omega, fun _ _ => rfl⟩

/-- What DEC.UPDATE does while DICT.ADD has room (R154): the table's rule, and nothing else is changed. -/
theorem decUpdate_updated {p : Code} {s : State} (hp : s.decPrevCode = some p) (hroom : s.dictSize < 4096) :
    ∃ t, decUpdate s = .ret () t ∧ t = { s with dict := t.dict, width := t.width, decPrevCode := t.decPrevCode } ∧
      TableUpdated p s.decFirstByte s.decCode s t := by
  have hpow : s.width = .w12 → 2 ^ s.width.bits = 4096 := fun hw => by rw [hw]; rfl
  rcases decUpdate_cases p s hp hroom with ⟨hw, hsize, ht⟩ | ⟨hsize, w, hw, ht⟩ | ⟨hsize, ht⟩ <;>
    refine ⟨_, ht, rfl, ?_⟩
  · exact ⟨fun _ _ => ⟨rfl, rfl, rfl⟩, fun _ hne => absurd hw hne, fun hne => absurd (hsize.trans (hpow hw).symm) hne⟩
  · refine ⟨fun _ h => ?_, fun _ _ => ⟨rfl, hw, rfl⟩, fun hne => absurd hsize hne⟩
    have := (width_bits_pos w).2
    rw [hw, h] at this
    exact absurd this (by decide)
  · exact ⟨fun h hw => absurd (h.trans (hpow hw).symm) hsize, fun h => absurd h hsize, fun _ => ⟨rfl, rfl, rfl⟩⟩

/-- What a step on a word after an epoch's first leaves (R151, R152): `bytes` written, DEC.firstByte `first`, the table
updated with DEC.prevCode `prev`, and nothing else changed but the scratch buffer. -/
structure LaterWordStep (prev : Code) (bytes : List Symbol) (first : Symbol) (s t : State) : Prop where
  frame : t = { s with
    dst := t.dst, decBytesWritten := t.decBytesWritten, decFirstByte := first, scratch := t.scratch,
    dict := t.dict, width := t.width, decPrevCode := t.decPrevCode }
  output : OutputAppended bytes s t
  table : TableUpdated prev first s.decCode s t

/-- DEC.LIT (R149): the symbol written, DEC.firstByte and DEC.prevCode set, and nothing else changed. -/
theorem decLit_step (s : State) :
    decLit s = { s with
      dst := (decLit s).dst, decBytesWritten := (decLit s).decBytesWritten, decFirstByte := codeSymbol s.decCode,
      decPrevCode := some s.decCode } ∧
    OutputAppended [codeSymbol s.decCode] s (decLit s) := by
  obtain ⟨d, n, hframe⟩ := decLit_frame s
  have hout := decWrite_appended [codeSymbol s.decCode] s
  exact ⟨by rw [hframe], hout.count, hout.stored, hout.others⟩

/-- DEC.WRITE and DEC.UPDATE behind a DICT.SEQ (R151, R152). -/
theorem decUpdate_decWrite {prev : Code} {s : State} (hp : s.decPrevCode = some prev) (hroom : s.dictSize < 4096)
    (bytes scratch : List Symbol) (first : Symbol) :
    ∃ t, decUpdate (decWrite bytes { s with scratch := scratch, decFirstByte := first }) = .ret () t ∧
      LaterWordStep prev bytes first s t := by
  have hout := decWrite_appended bytes { s with scratch := scratch, decFirstByte := first }
  obtain ⟨d, n, hw⟩ := decWrite_frame bytes { s with scratch := scratch, decFirstByte := first }
  rw [hw] at hout ⊢
  obtain ⟨t, ht, hframe, htable⟩ := decUpdate_updated
    (s := { s with scratch := scratch, decFirstByte := first, dst := d, decBytesWritten := n }) hp hroom
  refine ⟨t, ht, ?_, ?_, htable.epoch, htable.wider, htable.same⟩ <;> rw [hframe]
  exact ⟨hout.count, hout.stored, hout.others⟩

/-- DEC.REF of a populated code (R152). -/
theorem decRef_step {prev : Code} {s : State} (hwf : DictWf s.dict) (hp : s.decPrevCode = some prev)
    (hroom : s.dictSize < 4096) (hlt : s.decCode.toNat < s.dictSize) :
    ∃ t bytes first, decRef s = .ret () t ∧ IsSeq s.dict s.decCode bytes ∧ bytes.head? = some first ∧
      LaterWordStep prev bytes first s t := by
  obtain ⟨bytes, first, hseq, hfirst, -, href⟩ := decRef_ok hwf hlt
  obtain ⟨t, ht, hstep⟩ := decUpdate_decWrite hp hroom bytes (bytes.reverse ++ s.scratch.drop bytes.length) first
  exact ⟨t, bytes, first, href.trans ht, hseq, hfirst, hstep⟩

/-- DEC.KWK with a populated DEC.prevCode (R151). -/
theorem decKwk_step {prev : Code} {s : State} (hwf : DictWf s.dict) (hp : s.decPrevCode = some prev)
    (hlt : prev.toNat < s.dictSize) (hroom : s.dictSize < 4096) :
    ∃ t bytes first, decKwk s = .ret () t ∧ IsSeq s.dict prev bytes ∧ bytes.head? = some first ∧
      LaterWordStep prev (bytes ++ [first]) first s t := by
  obtain ⟨bytes, first, hseq, hfirst, -, hkwk⟩ := decKwk_ok hwf prev hp hlt
  obtain ⟨t, ht, hstep⟩ :=
    decUpdate_decWrite hp hroom (bytes ++ [first]) (bytes.reverse ++ s.scratch.drop bytes.length) first
  exact ⟨t, bytes, first, hkwk.trans ht, hseq, hfirst, hstep⟩

/-! ## Code words: whole decoder steps -/

/-- A row in a state of its width and class is the fetch of its word and the class's action (R76, R156). -/
theorem codeWord_of_class {s : State} {c : Code} {cls : WordClass} (h : classOf s c = cls) :
    codeWord s.width cls c s = (decClassStep s.brBitsRead (wordFetched c s)).done := by
  rw [← h, codeWord_selected, wordStep]

theorem wordFetched_position (c : Code) (s : State) :
    (wordFetched c s).brBitsRead.toNat = s.brBitsRead.toNat + fetchLength s.width.bits s := fetch_position _ s

theorem exec_litRow {s : State} {v : Symbol} (hw : s.width = .w9) (h : classOf s (rootCode v) = .lit) :
    exec (.cw9Lit v) s = .next (decLit (wordFetched (rootCode v) s)) := by
  have hrow : exec (.cw9Lit v) s = codeWord s.width .lit (rootCode v) s := by rw [hw]; rfl
  rw [hrow, codeWord_of_class h, decClassStep, wordFetched_decCode, classOf_wordFetched, h]
  rfl

theorem exec_refRow {s : State} {c : Code} (h : classOf s c = .ref) :
    exec (refRow s.width c) s = (decRef (wordFetched c s)).done := by
  have hrow : exec (refRow s.width c) s = codeWord s.width .ref c s := by generalize s.width = w; cases w <;> rfl
  rw [hrow, codeWord_of_class h, decClassStep, wordFetched_decCode, classOf_wordFetched, h]

theorem exec_kwkRow {s : State} {c : Code} (h : classOf s c = .kwk) :
    exec (kwkRow s.width c) s = (decKwk (wordFetched c s)).done := by
  have hrow : exec (kwkRow s.width c) s = codeWord s.width .kwk c s := by generalize s.width = w; cases w <;> rfl
  rw [hrow, codeWord_of_class h, decClassStep, wordFetched_decCode, classOf_wordFetched, h]

/-- The fetch in front of a later word's action (R148): DEC.code is the word and BR.bitsRead has moved past it. -/
theorem LaterWordStep.ofFetched {prev c : Code} {bytes : List Symbol} {first : Symbol} {s t : State}
    (h : LaterWordStep prev bytes first (wordFetched c s) t) :
    t = { s with
      decCode := c, brBitsRead := t.brBitsRead, dst := t.dst, decBytesWritten := t.decBytesWritten, decFirstByte := first,
      scratch := t.scratch, dict := t.dict, width := t.width, decPrevCode := t.decPrevCode } ∧
    t.brBitsRead.toNat = s.brBitsRead.toNat + fetchLength s.width.bits s ∧
    OutputAppended bytes s t ∧ TableUpdated prev first c s t := by
  obtain ⟨hframe, hout, htable⟩ := h
  have hread : t.brBitsRead = (wordFetched c s).brBitsRead := by rw [hframe]
  refine ⟨?_, by rw [hread, wordFetched_position], ⟨hout.count, hout.stored, hout.others⟩,
    htable.epoch, htable.wider, htable.same⟩
  rw [hread]; exact hframe

/-- Settles O37: the class of a root code without a previous code is LIT, and DEC.LIT behind the fetch is the row. -/
theorem literalWordWritesByte : Obligations.LiteralWordWritesByte := by
  intro v s hw hnil
  have hcls : classOf s (rootCode v) = .lit := (classOf_lit s _).mpr ⟨hnil, by rw [rootCode_toNat]; exact v.isLt⟩
  obtain ⟨hframe, hout⟩ := decLit_step (wordFetched (rootCode v) s)
  rw [wordFetched_decCode, codeSymbol_rootCode] at hframe hout
  have hread : (decLit (wordFetched (rootCode v) s)).brBitsRead = (wordFetched (rootCode v) s).brBitsRead := by rw [hframe]
  refine ⟨_, exec_litRow hw hcls, ?_, ?_, hout.count, hout.stored, hout.others⟩
  · rw [hread]; exact hframe
  · rw [hread, wordFetched_position, hw]; rfl

/-- Settles O40: the class is REF, and DEC.REF behind the fetch is the row, at every width. -/
theorem refWordWritesSequence : Obligations.RefWordWritesSequence := by
  intro c prev s hwf hp hroom hlt
  have hcls : classOf s c = .ref := (classOf_ref s c).mpr ⟨by rw [hp]; exact Option.some_ne_none prev, hlt⟩
  obtain ⟨t, bytes, first, href, hseq, hfirst, hstep⟩ := decRef_step (s := wordFetched c s) hwf hp hroom hlt
  exact ⟨t, bytes, first, by rw [exec_refRow hcls, href, Flow.done], hseq, hfirst, hstep.ofFetched⟩

/-- Settles O41: the class is KWK, and DEC.KWK behind the fetch is the row, at every width. -/
theorem kwkWordWritesPreviousAndFirst : Obligations.KwkWordWritesPreviousAndFirst := by
  intro c prev s hwf hp hlt hroom heq
  have hcls : classOf s c = .kwk := (classOf_kwk s c).mpr ⟨by rw [hp]; exact Option.some_ne_none prev, heq⟩
  obtain ⟨t, bytes, first, hkwk, hseq, hfirst, hstep⟩ := decKwk_step (s := wordFetched c s) hwf hp hlt hroom
  exact ⟨t, bytes, first, by rw [exec_kwkRow hcls, hkwk, Flow.done], hseq, hfirst, hstep.ofFetched⟩

end Sys2Proof.Machine
end

section
/-! PROOFS for 40_bitwriter.md: the counts of the writer (R93, R94), one appended bit and its two faults (R91), the bits of a value
(R92), and the released buffer (R95, R96). -/

namespace Sys2Proof.Machine

/-! ## One bit -/

theorem beyondCap_eq_true {a : Nat} {s : State} : beyondCap a s = true ↔ ∃ cap, s.encDstCap = some cap ∧ cap ≤ a := by
  unfold beyondCap; cases s.encDstCap <;> simp

theorem beyondCap_eq_false {a : Nat} {s : State} :
    beyondCap a s = false ↔ ∀ cap, s.encDstCap = some cap → a < cap := by
  unfold beyondCap; cases s.encDstCap <;> simp

/-- R91, the first test: the target byte lies outside the supplied DST. -/
theorem bwAppendBit_outputOverflow (bit : Bool) {s : State} (hcap : beyondCap (s.bwBitsWritten.toNat / 8) s = true) :
    bwAppendBit bit s = .raised (raiseFault .outputOverflow s) := by
  rw [bwAppendBit_eq, if_pos hcap]

/-- R91, the second test: the count would leave 32 bits. -/
theorem bwAppendBit_bitCountOverflow (bit : Bool) {s : State} (hcap : beyondCap (s.bwBitsWritten.toNat / 8) s = false)
    (hfull : 2 ^ 32 - 1 < s.bwBitsWritten.toNat + 1) :
    bwAppendBit bit s = .raised (raiseFault .bitCountOverflow s) := by
  have hcount : bitCountFull s.bwBitsWritten.toNat = true := decide_eq_true hfull
  rw [bwAppendBit_eq, hcap, if_neg Bool.false_ne_true, if_pos hcount]

/-- R91 with both tests passed: one bit of the byte `old`, which counts as 0 where it is new. -/
theorem bwAppendBit_stored (bit : Bool) {s : State} {old : Symbol}
    (hcap : beyondCap (s.bwBitsWritten.toNat / 8) s = false) (hfit : s.bwBitsWritten.toNat + 1 < 2 ^ 32)
    (hnew : s.bwBitsWritten.toNat % 8 = 0 → old = 0)
    (hold : s.bwBitsWritten.toNat % 8 ≠ 0 → s.dst.read (s.bwBitsWritten.toNat / 8) = some old) :
    bwAppendBit bit s = .ret () { s with
      dst := s.dst.write (s.bwBitsWritten.toNat / 8) (setBit old (s.bwBitsWritten.toNat % 8) bit)
      bwBitsWritten := BitVec.ofNat 32 (s.bwBitsWritten.toNat + 1) } := by
  have hbyte : (if s.bwBitsWritten.toNat % 8 = 0 then some 0 else s.dst.read (s.bwBitsWritten.toNat / 8)) = some old := by
    split
    next h0 => rw [hnew h0]
    next h0 => exact hold h0
  rw [bwAppendBit_eq, hcap, if_neg Bool.false_ne_true, (bitCountFull_false _).mpr hfit, if_neg Bool.false_ne_true, hbyte]

/-- Settles O13: one equation for each test that fails, and one for the byte written behind them. -/
theorem appendBitStoresOneBit : Obligations.AppendBitStoresOneBit := by
  refine fun bit s => ⟨fun cap hc hle => ?_, fun hcap => ⟨fun hfull => ?_, fun hfit old hnew hold => ?_⟩⟩
  · exact congrArg Flow.done (bwAppendBit_outputOverflow bit (beyondCap_eq_true.mpr ⟨cap, hc, hle⟩))
  · exact congrArg Flow.done (bwAppendBit_bitCountOverflow bit (beyondCap_eq_false.mpr hcap) hfull)
  · have hlt : s.bwBitsWritten.toNat + 1 < 2 ^ 32 := by omega
    refine ⟨_, congrArg Flow.done (bwAppendBit_stored bit (beyondCap_eq_false.mpr hcap) hlt hnew hold), rfl,
      toNat_ofNat32 _ hlt, Memory.read_write_same _ _ _, fun a ha => Memory.read_write_other _ _ _ _ ?_⟩
    omega

/-! ## The bits of a value -/

/-- Bits appended to a writer's stream lie behind it: the full bytes before them and every offset past them keep. -/
theorem dstSameOutside_withBits {bits : List Bool} {s : State} (h : WriterHolds bits s) (value k : Nat) :
    DstSameOutside (bits.length / 8) ((bits.length + k + 7) / 8) s (withBits (bits ++ valueBits k value) s) := by
  intro a ha
  rw [h.1]
  exact packBits_read_append bits (valueBits k value) a (by rw [valueBits_length]; exact ha)

/-- Settles O14: BW.APPENDBITS either fits or faults at a first bit, and each is one equation for a known stream. -/
theorem appendBitsAppendsLowBits : Obligations.AppendBitsAppendsLowBits := by
  intro value width bits s h
  rcases bwAppendBits_total value width bits s h with
    ⟨hfit, happ, hholds⟩ | ⟨hw, hnot, b, cause, hb, hfirst, happ, hholds⟩
  · exact ⟨fun _ => ⟨_, congrArg Flow.done happ, rfl, hholds, dstSameOutside_withBits h value width⟩,
      fun hw hnot => absurd hfit (not_or.mpr ⟨hw, hnot⟩)⟩
  · exact ⟨fun hfit => absurd hfit (not_or.mpr ⟨hw, hnot⟩),
      fun _ _ => ⟨_, b, cause, congrArg Flow.done happ, hb, hfirst, rfl, hholds, dstSameOutside_withBits h value b⟩⟩

/-! ## The released buffer -/

/-- R52, R78: stream bit n of a packed buffer is bit n of the sequence, and 0 where it is padding. -/
theorem streamBits_packBits_getElem? {bits : List Bool} {n : Nat} (hn : n < 8 * (packBits bits).length) :
    (streamBits (packBits bits))[n]? = some (bits.getD n false) := by
  rw [packBits_length] at hn
  rw [streamBits_packBits]
  by_cases hin : n < bits.length
  · rw [List.getElem?_append_left hin, List.getD_eq_getElem _ _ hin, List.getElem?_eq_getElem hin]
  · have hout : bits.length ≤ n := Nat.le_of_not_lt hin
    rw [List.getElem?_append_right hout, List.getD_eq_default _ _ hout, List.getElem?_replicate_of_lt (by omega)]

/-- Settles O16: the released bytes are the packed buffer of the sequence. -/
theorem releasedPaddingIsZero : Obligations.ReleasedPaddingIsZero := fun s bits h =>
  ⟨packBits bits, congrArg (Flow.report .bytes) (bwRelease_holds bits s h), packBits_length bits,
    fun _ hn => streamBits_packBits_getElem? hn⟩

/-- Settles O15: the DST bytes below BW.BYTECOUNT(), read in one range. -/
theorem releaseReturnsWrittenBytes : Obligations.ReleaseReturnsWrittenBytes := by
  intro s bytes hlen hread
  have hrange : s.dst.readRange 0 (bwByteCount s) = some bytes :=
    (Memory.readRange_eq_some _ _ _ _).mpr ⟨hlen, fun i hi => by rw [Nat.zero_add]; exact hread i (by rw [hlen]; exact hi)⟩
  have hrel : bwRelease s = .ret bytes { s with bwBitsWritten := 0 } := by rw [bwRelease, hrange]
  exact congrArg (Flow.report .bytes) hrel

/-! ## The counts -/

/-- Settles O12: each of the three operations is its definition. -/
theorem writerInitAndCounts : Obligations.WriterInitAndCounts := fun _ => ⟨rfl, rfl, rfl⟩

end Sys2Proof.Machine
end

section
/-! PROOFS for 41_bitreader.md: BR.OPEN's check (R100), one bit and the end of the stream (R101, R103), the bits of a value (R102),
and what the outcome of a decode depends on (R104). -/

namespace Sys2Proof.Machine

/-! ## Opening the stream -/

/-- Settles O17: the check of R100 passes or it does not. -/
theorem openChecksValidBits : Obligations.OpenChecksValidBits := by
  intro byteCapacity validBits s
  rcases brOpen_cases byteCapacity validBits s with ⟨hbad, hopen⟩ | ⟨hok, hopen⟩
  · exact ⟨fun _ => congrArg Flow.done hopen, fun hok => absurd hbad (Nat.not_lt.mpr hok)⟩
  · exact ⟨fun hbad => absurd hbad (Nat.not_lt.mpr hok), fun _ => congrArg Flow.done hopen⟩

/-! ## One bit -/

/-- R103: a stream with a bit left is not at its end. -/
theorem endOfStream_eq_false {s : State} (h : s.brBitsRead.toNat < s.brValidBits.toNat) : endOfStream s = false :=
  decide_eq_false (Nat.not_le.mpr h)

/-- R103: BR.EOS answers the condition and changes nothing. -/
theorem exec_brEos_of_endOfStream {s : State} {flag : Bool} (h : endOfStream s = flag) :
    exec .brEos s = .next { s with result := .flag flag } := by
  subst h; rfl

/-- R101 at the end of the stream. -/
theorem brReadBit_end {s : State} (h : s.brValidBits.toNat ≤ s.brBitsRead.toNat) : brReadBit s = .ret none s :=
  if_pos ((endOfStream_iff s).mpr h)

/-- R101 with a bit left, in a byte that SRC holds. -/
theorem brReadBit_bit {s : State} {byte : Symbol} (h : s.brBitsRead.toNat < s.brValidBits.toNat)
    (hbyte : s.src.read (s.brBitsRead.toNat / 8) = some byte) :
    brReadBit s = .ret (some (byte.getLsbD (s.brBitsRead.toNat % 8))) { s with brBitsRead := s.brBitsRead + 1 } := by
  have hbit : s.src.bitAt s.brBitsRead.toNat = some (byte.getLsbD (s.brBitsRead.toNat % 8)) := by
    rw [Memory.bitAt, hbyte, Option.map_some]
  have hnext : BitVec.ofNat 32 (s.brBitsRead.toNat + 1) = s.brBitsRead + 1 := by
    simp [BitVec.ofNat_add]
  rw [brReadBit, endOfStream_eq_false h, if_neg Bool.false_ne_true, hbit, ← hnext]

/-- Settles O18: R101 on each side of the end of the stream, and the flag of R103. -/
theorem readBitReadsOneBit : Obligations.ReadBitReadsOneBit := by
  refine fun s => ⟨fun hend => ⟨?_, ?_⟩, fun hleft => ⟨?_, fun byte hbyte => ?_⟩⟩
  · exact congrArg (Flow.report .bit) (brReadBit_end hend)
  · exact exec_brEos_of_endOfStream ((endOfStream_iff s).mpr hend)
  · exact exec_brEos_of_endOfStream (endOfStream_eq_false hleft)
  · exact congrArg (Flow.report .bit) (brReadBit_bit hleft hbyte)

/-! ## The bits of a value -/

/-- R102: bit b of a value read is the b-th bit of the stream, and 0 above the bits read. -/
theorem bitsValue_testBit (bits : List Bool) (b : Nat) : (bitsValue bits).testBit b = bits.getD b false := by
  induction bits generalizing b with
  | nil => exact Nat.zero_testBit b
  | cons first rest ih =>
    have hbit : bitsValue (first :: rest) = Nat.bit first (bitsValue rest) := by
      rw [Nat.bit_val, bitsValue, Nat.add_comm]
    rw [hbit]
    cases b with
    | zero => exact Nat.testBit_bit_zero first _
    | succ b => rw [Nat.testBit_bit_succ, List.getD_cons_succ, ih]

/-- R102 on bits that SRC holds. -/
theorem brReadBits_of_srcHolds {width : Nat} {bits : List Bool} {s : State} (hlen : bits.length = fetchLength width s)
    (hbits : SrcHolds s.brBitsRead.toNat bits s) :
    brReadBits width s = .ret (bitsValue bits) (readAhead bits.length s) := by
  rw [brReadBits_eq, srcBits_of_srcHolds _ _ bits s hlen hbits, hlen]

/-- Settles O19: the value is that of the bits the fetch takes, of which there are at most `width`. -/
theorem readBitsReadsUpToWidth : Obligations.ReadBitsReadsUpToWidth := by
  intro width bits s hlen hbits
  have hfetch : bits.length = fetchLength width s := hlen
  have hpos : (readAhead bits.length s).brBitsRead.toNat = s.brBitsRead.toNat + bits.length := by
    rw [hfetch]; exact fetch_position width s
  have hle : bits.length ≤ width := hlen ▸ Nat.min_le_left _ _
  have hlt : bitsValue bits < 2 ^ width := (bitsValue_lt bits).trans_le (Nat.pow_le_pow_right Nat.two_pos hle)
  exact ⟨_, congrArg (Flow.report .count) (brReadBits_of_srcHolds hfetch hbits), rfl, hpos, hlt, bitsValue_testBit bits⟩

/-! ## What a decode depends on -/

/-- A command given while not BUSY runs (R172). -/
theorem exec_lzwDecode_of_notBusy {s : State} (hs : s.status ≠ .busy) :
    exec .lzwDecode s = (runDecode (beginCommand .decode s)).done := if_neg hs

/-- Settles O54: two decodes that open their streams run in agreement, step by step, and so end with the same outcome. -/
theorem decodeDependsOnValidBitsOnly : Obligations.DecodeDependsOnValidBitsOnly := by
  intro s s' hs hs' hbits hexpected hopen hopen' hsrc
  rw [exec_lzwDecode_of_notBusy hs, exec_lzwDecode_of_notBusy hs']
  exact (runDecode_agree s s' hbits hexpected hopen hopen' hsrc).sameResult fun _ _ => DecResultAgree.same

end Sys2Proof.Machine
end

section
/-! PROOFS for 42_dictionary.md: the roots (R111), the lowest match (R112), the appended entry (R113), the width check (R114,
R116), the sequence of a code and its length (R115, R117, R120), and the stops of the model (logs 5, 13, 17, 18). -/

namespace Sys2Proof.Machine

/-! ## DICT.RESET and DICT.ADD -/

/-- Settles O20: the roots are the whole table. -/
theorem dictResetLeavesRoots : Obligations.DictResetLeavesRoots := fun s =>
  ⟨dictReset s, rfl, rfl, rootTable_length, dictWf_rootTable.roots⟩

theorem exec_dictAdd {parent : Code} {value : Symbol} {s t : State} {added : Bool}
    (h : dictAdd parent value s = (added, t)) :
    exec (.dictAdd parent value) s = .next { t with result := .flag added } := by
  have harm : exec (.dictAdd parent value) s = execDictAdd parent value s := rfl
  rw [harm, execDictAdd, h]

/-- Settles O22: a full table and one with room have an equation each. -/
theorem addAppendsEntry : Obligations.AddAppendsEntry := fun parent value s =>
  ⟨fun hfull => exec_dictAdd (dictAdd_full parent value s hfull),
    fun hroom => exec_dictAdd (dictAdd_room parent value s hroom)⟩

/-! ## DICT.FIND -/

/-- R112: NotFound says that no entry is the pair, whatever the size of the table. -/
theorem dictFind_eq_none_iff {parent : OptCode} {value : Symbol} {s : State} :
    dictFind parent value s = none ↔ ∀ i : Nat, s.dict[i]? ≠ some { parent, value } := by
  rw [dictFind_none, List.mem_iff_getElem?, not_exists]

/-- R112: in a table whose indices are Codes, the found code is the lowest index of the pair. -/
theorem dictFind_eq_some_iff {parent : OptCode} {value : Symbol} {s : State} (hsize : s.dictSize ≤ 4096) (c : Code) :
    dictFind parent value s = some c ↔
      s.dict[c.toNat]? = some { parent, value } ∧ ∀ i, i < c.toNat → s.dict[i]? ≠ some { parent, value } := by
  rw [← findEntry_eq_some, dictFind, Option.map_eq_some_iff]
  constructor
  · rintro ⟨i, hfind, rfl⟩
    have hi : i < s.dictSize := (List.getElem?_eq_some_iff.mp ((findEntry_eq_some _ _ _ _).mp hfind).1).1
    rw [indexCode_toNat i (hi.trans_le hsize), hfind]
  · exact fun hfind => ⟨c.toNat, hfind, BitVec.eq_of_toNat_eq (indexCode_toNat _ c.isLt)⟩

/-- Settles O21: the answer is DICT.FIND's, which NotFound, the lowest index and the root of a value determine. -/
theorem findAnswersLowestMatch : Obligations.FindAnswersLowestMatch := fun parent value s =>
  ⟨dictFind parent value s, rfl, fun hsize => ⟨dictFind_eq_none_iff, dictFind_eq_some_iff hsize⟩,
    fun hwf hnil => by subst hnil; exact dictFind_nil hwf value⟩

/-! ## DICT.GROW -/

/-- R116: DICT.size has reached 2^WIDTH and WIDTH can rise. -/
theorem dictGrow_wider {s : State} {w : Width} (hsize : s.dictSize = 2 ^ s.width.bits) (hnext : nextWidth s.width = some w) :
    dictGrow s = (false, { s with width := w }) := by
  have hcheck : widthCheck s = true := decide_eq_true hsize
  rw [dictGrow, if_pos hcheck, hnext]

/-- R116: DICT.size has reached 2^WIDTH and WIDTH is 12: an epoch reset. -/
theorem dictGrow_epoch {s : State} (hsize : s.dictSize = 2 ^ s.width.bits) (hnext : nextWidth s.width = none) :
    dictGrow s = (true, { s with dict := rootTable, width := .w9 }) := by
  have hcheck : widthCheck s = true := decide_eq_true hsize
  rw [dictGrow, if_pos hcheck, hnext]
  rfl

/-- R114: the test is equality with 2^WIDTH; at any other size nothing happens. -/
theorem dictGrow_unchanged {s : State} (hsize : s.dictSize ≠ 2 ^ s.width.bits) : dictGrow s = (false, s) := by
  have hcheck : widthCheck s = false := decide_eq_false hsize
  rw [dictGrow, hcheck, if_neg Bool.false_ne_true]

theorem exec_dictGrow {s t : State} {didReset : Bool} (h : dictGrow s = (didReset, t)) :
    exec .dictGrow s = .next { t with result := .flag didReset } := by
  have harm : exec .dictGrow s = execDictGrow s := rfl
  rw [harm, execDictGrow, h]

/-- DICT.GROW at the size that fills a width below 12 (R116). -/
theorem exec_dictGrow_wider {s : State} {v w : Width} (hv : s.width = v) (hsize : s.dictSize = 2 ^ v.bits)
    (hnext : nextWidth v = some w) : exec .dictGrow s = .next { s with width := w, result := .flag false } := by
  subst hv
  exact exec_dictGrow (dictGrow_wider hsize hnext)

/-- Settles O23: the rows of R116 are the three widths that can rise, the epoch reset, and every size the test rejects. -/
theorem growFollowsTable : Obligations.GrowFollowsTable := by
  refine fun s => ⟨fun hsize hw => ?_, fun hsize hw => ?_, fun hsize hw => ?_, fun hsize hw => ?_, fun hsize => ?_⟩
  · exact exec_dictGrow_wider hw hsize rfl
  · exact exec_dictGrow_wider hw hsize rfl
  · exact exec_dictGrow_wider hw hsize rfl
  · have hfull : s.dictSize = 2 ^ s.width.bits := by rw [hsize, hw]; rfl
    have hlast : nextWidth s.width = none := by rw [hw]; rfl
    exact ⟨_, exec_dictGrow (dictGrow_epoch hfull hlast), rfl, rootTable_length, dictWf_rootTable.roots⟩
  · exact exec_dictGrow (dictGrow_unchanged hsize)

/-! ## Sequences and DICT.SEQ -/

theorem IsSeq.unique {dict : List Entry} {c : Code} {bytes other : List Symbol} (h : IsSeq dict c bytes)
    (h' : IsSeq dict c other) : other = bytes :=
  List.reverse_injective (SeqRev.unique h' h)

/-- Only a populated code has a sequence (R120). -/
theorem SeqRev.lt_length {dict : List Entry} {c : Code} {l : List Symbol} (h : SeqRev dict c l) : c.toNat < dict.length := by
  cases h with
  | root _ e hentry _ => exact (List.getElem?_eq_some_iff.mp hentry).1
  | dynamic _ p e rest hentry _ _ => exact (List.getElem?_eq_some_iff.mp hentry).1

/-- Settles O25: a sequence is unique, so it is the root's symbol, or the one whose length is bounded. -/
theorem sequenceDepthBound : Obligations.SequenceDepthBound := by
  intro dict code bytes hwf hseq
  constructor
  · intro hroot
    have hcode : rootCode (codeSymbol code) = code := rootCode_setWidth code hroot
    have hsym : IsSeq dict code [codeSymbol code] := by
      have hrev := hwf.seqRev_root (codeSymbol code)
      rwa [hcode] at hrev
    exact hsym.unique hseq
  · intro hdyn
    obtain ⟨l, hl, hlen⟩ := hwf.exists_seqRev code (SeqRev.lt_length hseq)
    rw [SeqRev.unique hl hseq, List.length_reverse, if_neg (Nat.not_lt.mpr hdyn)] at hlen
    omega

theorem exec_dictSeq_eq (code : Code) (s : State) :
    exec (.dictSeq code) s = (dictSeq code s).report fun r => .seq r.1 r.2 := rfl

/-- Settles O24: the walk of DICT.SEQ answers Seq(code), which is unique, and leaves the scratch buffer behind it alone. -/
theorem seqAnswersSequence : Obligations.SeqAnswersSequence := by
  intro code s hwf hlt
  obtain ⟨bytes, first, hseq, hfirst, -, hrun⟩ := dictSeq_ok hwf code hlt
  refine ⟨bytes, first, bytes.reverse ++ s.scratch.drop bytes.length,
    by rw [exec_dictSeq_eq, hrun, Flow.report], hseq, hfirst, fun _ => hseq.unique, fun i hi => ?_, fun i hi => ?_⟩
  · exact List.getElem?_append_left (by rw [List.length_reverse]; exact hi)
  · rw [List.getElem?_append_right (by rw [List.length_reverse]; exact hi), List.getElem?_drop, List.length_reverse,
      Nat.add_sub_cancel' hi]

/-! ## Stops: bytes without a value (log 5) -/

/-- R91 behind both tests: the byte at a position inside it holds no value. -/
theorem bwAppendBit_unwritten (bit : Bool) {s : State} (hcap : beyondCap (s.bwBitsWritten.toNat / 8) s = false)
    (hfit : s.bwBitsWritten.toNat + 1 < 2 ^ 32) (hinside : s.bwBitsWritten.toNat % 8 ≠ 0)
    (hread : s.dst.read (s.bwBitsWritten.toNat / 8) = none) : bwAppendBit bit s = .stop .dstUnwritten := by
  rw [bwAppendBit_eq, hcap, if_neg Bool.false_ne_true, (bitCountFull_false _).mpr hfit, if_neg Bool.false_ne_true,
    if_neg hinside, hread]

/-- A range with a byte that holds no value cannot be read. -/
theorem readRange_eq_none {m : Memory} {n a : Nat} (ha : a < n) (hread : m.read a = none) : m.readRange 0 n = none := by
  rw [Option.eq_none_iff_forall_ne_some]
  intro bytes hbytes
  obtain ⟨hlen, hall⟩ := (Memory.readRange_eq_some m 0 n bytes).mp hbytes
  have hbyte := hall a ha
  rw [Nat.zero_add, hread, List.getElem?_eq_getElem (hlen ▸ ha)] at hbyte
  cases hbyte

/-- A fetch of at least one bit stops at the first bit that holds no value. -/
theorem srcBits_eq_none {m : Memory} {n k : Nat} (hk : 0 < k) (hbit : m.bitAt n = none) : srcBits m n k = none := by
  obtain ⟨j, rfl⟩ := Nat.exists_eq_add_one_of_ne_zero hk.ne'
  rw [srcBits, hbit]
  rfl

theorem bitAt_eq_none {m : Memory} {n : Nat} (hread : m.read (n / 8) = none) : m.bitAt n = none := by
  rw [Memory.bitAt, hread, Option.map_none]

theorem fetchLength_pos_of_lt {width : Nat} {s : State} (hwidth : 0 < width)
    (hleft : s.brBitsRead.toNat < s.brValidBits.toNat) : 0 < fetchLength width s :=
  Nat.lt_min.mpr ⟨hwidth, Nat.sub_pos_of_lt hleft⟩

section Unplaced
variable {s : State} (hleft : s.brBitsRead.toNat < s.brValidBits.toNat)
  (hread : s.src.read (s.brBitsRead.toNat / 8) = none)
include hleft hread

theorem fetch_unplaced {width : Nat} (hwidth : 0 < width) :
    srcBits s.src s.brBitsRead.toNat (fetchLength width s) = none :=
  srcBits_eq_none (fetchLength_pos_of_lt hwidth hleft) (bitAt_eq_none hread)

theorem brReadBit_unplaced : brReadBit s = .stop .srcUnwritten := by
  rw [brReadBit, endOfStream_eq_false hleft, if_neg Bool.false_ne_true, bitAt_eq_none hread]

theorem brReadBits_unplaced {width : Nat} (hwidth : 0 < width) : brReadBits width s = .stop .srcUnwritten := by
  rw [brReadBits_eq, fetch_unplaced hleft hread hwidth]

theorem decFetch_unplaced : decFetch s = .stop .srcUnwritten := by
  have hwidth : 0 < s.width.bits := Nat.lt_of_lt_of_le (by decide) (width_bits_pos s.width).1
  rw [decFetch, brReadBits_unplaced hleft hread hwidth, Flow.bind]

end Unplaced

/-! ## Stops: DICT.SEQ (log 17) -/

theorem exec_dictSeq_of_walk_error {code : Code} {s : State} {r : Fault}
    (h : dictWalk s.dict Config.scratchCapacity (some code) = .error r) : exec (.dictSeq code) s = .fault r := by
  rw [exec_dictSeq_eq, dictSeq, h, Flow.report]

/-- The walk stops at its first code when that is not populated. -/
theorem dictWalk_unpopulated {dict : List Entry} {code : Code} (h : dict.length ≤ code.toNat) (room : Nat) :
    dictWalk dict (room + 1) (some code) = .error .seqUnpopulated := by
  rw [dictWalk, List.getElem?_eq_none h]

/-- The walk from an entry that is its own parent fills any room there is. -/
theorem dictWalk_loop {dict : List Entry} {code : Code} {e : Entry} (hentry : dict[code.toNat]? = some e)
    (hloop : e.parent = some code) (room : Nat) : dictWalk dict room (some code) = .error .scratchOverflow := by
  induction room with
  | zero => rw [dictWalk]
  | succ room ih => simp only [dictWalk, hentry, hloop, ih]

/-! ## Stops: rows in a state where their condition does not hold (log 13) -/

theorem exec_encExtend_notSelected {v : Symbol} {s : State}
    (h : s.pInputBytes.toNat ≤ s.encInPos.toNat ∨ dictFind s.encCode v s = none) :
    exec (.encExtend v) s = .refused .notSelected := by
  have harm : exec (.encExtend v) s = execEncExtend v s := rfl
  rw [harm, execEncExtend]
  rcases h with hend | hnone
  · rw [encContinue_false s hend, if_neg Bool.false_ne_true]
  · rw [hnone, ite_self]

theorem exec_encEmit_notSelected {v : Symbol} {s : State}
    (h : s.pInputBytes.toNat ≤ s.encInPos.toNat ∨ ∃ c, dictFind s.encCode v s = some c) :
    exec (.encEmit v) s = .refused .notSelected := by
  have harm : exec (.encEmit v) s = execEncEmit v s := rfl
  rw [harm, execEncEmit]
  rcases h with hend | ⟨c, hfound⟩
  · rw [encContinue_false s hend, if_neg Bool.false_ne_true]
  · rw [hfound, ite_self]

/-- A selected ENC.EMIT without a match to emit (log 18). -/
theorem exec_encEmit_nilCode {v : Symbol} {s : State} (hin : s.encInPos.toNat < s.pInputBytes.toNat)
    (hnil : s.encCode = none) (hfind : dictFind s.encCode v s = none) : exec (.encEmit v) s = .fault .nilCode := by
  have harm : exec (.encEmit v) s = execEncEmit v s := rfl
  have hcont : encContinue s = true := decide_eq_true hin
  rw [harm, execEncEmit, if_pos hcont, hfind, encEmit, hnil, Flow.done]

/-- A code-word row at another WIDTH or on a word of another class (R76). -/
theorem codeWord_notSelected {w : Width} {cls : WordClass} {c : Code} {s : State}
    (h : w ≠ s.width ∨ classOf s c ≠ cls) : codeWord w cls c s = .refused .notSelected :=
  if_neg fun ⟨hw, hcls⟩ => h.elim (fun hne => hne hw.symm) (fun hne => hne hcls)

theorem exec_refRow_eq (w : Width) (c : Code) (s : State) : exec (refRow w c) s = codeWord w .ref c s := by cases w <;> rfl

theorem exec_kwkRow_eq (w : Width) (c : Code) (s : State) : exec (kwkRow w c) s = codeWord w .kwk c s := by cases w <;> rfl

theorem exec_oorRow_eq (w : Width) (c : Code) (s : State) : exec (oorRow w c) s = codeWord w .oor c s := by cases w <;> rfl

section WordClasses
variable {s : State} {c : Code}

theorem classOf_ne_lit (h : s.decPrevCode ≠ none ∨ 256 ≤ c.toNat) : classOf s c ≠ .lit := by
  rw [Ne, classOf_lit, not_and_or, Nat.not_lt]; exact h

theorem classOf_ne_badlit (h : s.decPrevCode ≠ none) : classOf s c ≠ .badlit := by
  rw [Ne, classOf_badlit, not_and_or]; exact .inl h

theorem classOf_ne_ref (h : s.decPrevCode = none ∨ s.dictSize ≤ c.toNat) : classOf s c ≠ .ref := by
  rw [Ne, classOf_ref, not_and_or, not_not, Nat.not_lt]; exact h

theorem classOf_ne_kwk (h : s.decPrevCode = none ∨ c.toNat ≠ s.dictSize) : classOf s c ≠ .kwk := by
  rw [Ne, classOf_kwk, not_and_or, not_not]; exact h

theorem classOf_ne_oor (h : s.decPrevCode = none ∨ c.toNat ≤ s.dictSize) : classOf s c ≠ .oor := by
  rw [Ne, classOf_oor, not_and_or, not_not, Nat.not_lt]; exact h

end WordClasses

/-- Settles O59: each stop is one equation of the operation that meets it, each refusal a class or an answer of DICT.FIND that
the state does not have. -/
theorem stopsAreNamed : Obligations.StopsAreNamed := by
  refine fun s => ⟨fun bit hcap hfit hinside hread => ?append, fun a ha hread => ?release, fun hleft hread => ?reads,
    fun code hlt => ?unpopulated, fun code e hentry hloop => ?loop, fun hnil => ?update, fun v hin hnil hno => ?emitNil,
    fun v h => ?extend, fun v h => ?emit, fun h => if_neg (classOf_ne_lit h), fun h => if_neg (classOf_ne_kwk h),
    fun h => if_neg (classOf_ne_ref h), fun h => ⟨fun v => ?lit, fun c => ?badlit⟩,
    fun w c => ⟨fun h => ?ref, fun h => ?kwk, fun h => ?oor⟩⟩
  case append =>
    exact congrArg Flow.done (bwAppendBit_unwritten bit (beyondCap_eq_false.mpr hcap) hfit hinside hread)
  case release =>
    have hrel : bwRelease s = .stop .dstUnwritten := by rw [bwRelease, bwByteCount, readRange_eq_none ha hread]
    exact congrArg (Flow.report .bytes) hrel
  case reads =>
    exact ⟨congrArg (Flow.report .bit) (brReadBit_unplaced hleft hread),
      fun width hw => congrArg (Flow.report .count) (brReadBits_unplaced hleft hread (Nat.pos_of_ne_zero hw)),
      congrArg Flow.done (decFetch_unplaced hleft hread)⟩
  case unpopulated =>
    exact exec_dictSeq_of_walk_error (dictWalk_unpopulated hlt 4095)
  case loop =>
    exact exec_dictSeq_of_walk_error (dictWalk_loop hentry hloop _)
  case update =>
    have hupd : decUpdate s = .stop .nilCode := by rw [decUpdate, hnil]
    exact congrArg Flow.done hupd
  case emitNil => exact exec_encEmit_nilCode hin hnil (dictFind_eq_none_iff.mpr (by rw [hnil]; exact hno))
  case extend => exact exec_encExtend_notSelected (h.imp_right dictFind_eq_none_iff.mpr)
  case emit =>
    refine exec_encEmit_notSelected (h.imp_right fun ⟨i, hi⟩ => Option.ne_none_iff_exists'.mp fun hnone => ?_)
    exact dictFind_eq_none_iff.mp hnone i hi
  case lit => exact codeWord_notSelected (h.imp Ne.symm fun hprev => classOf_ne_lit (.inl hprev))
  case badlit => exact codeWord_notSelected (h.imp Ne.symm classOf_ne_badlit)
  case ref => exact (exec_refRow_eq w c s).trans (codeWord_notSelected (h.imp_right classOf_ne_ref))
  case kwk => exact (exec_kwkRow_eq w c s).trans (codeWord_notSelected (h.imp_right classOf_ne_kwk))
  case oor => exact (exec_oorRow_eq w c s).trans (codeWord_notSelected (h.imp_right classOf_ne_oor))

end Sys2Proof.Machine
end

section
/-! PROOFS for 43_encoder.md: ENC.INIT (R131), the two rows of an input byte (R132, R133), ENC.FINISH (R134), what the outcome of
an encode depends on (R130), and the round trip (R138, R140). -/

namespace Sys2Proof.Machine

/-! ## ENC.INIT and ENC.EXTEND -/

/-- Settles O26: the roots are the whole table. -/
theorem encInitState : Obligations.EncInitState := fun s =>
  ⟨encInit s, rfl, rfl, rootTable_length, dictWf_rootTable.roots⟩

theorem nextInput_eq (s : State) : nextInput s = { s with encInPos := s.encInPos + 1 } := by
  have hnext : BitVec.ofNat 32 (s.encInPos.toNat + 1) = s.encInPos + 1 := by simp [BitVec.ofNat_add]
  rw [nextInput, hnext]

/-- R132 where its row is selected. -/
theorem exec_encExtend_of_found {value : Symbol} {idx : Code} {s : State} (hin : s.encInPos.toNat < s.pInputBytes.toNat)
    (hfind : dictFind s.encCode value s = some idx) :
    exec (.encExtend value) s = .next { s with encCode := some idx, encInPos := s.encInPos + 1 } := by
  have hcont : encContinue s = true := decide_eq_true hin
  have harm : exec (.encExtend value) s = execEncExtend value s := rfl
  rw [harm, execEncExtend, if_pos hcont, hfind]
  exact congrArg Host.Outcome.next (nextInput_eq { s with encCode := some idx })

/-- Settles O27: the row is selected by what DICT.FIND answers, the lowest index, and for NIL the root of the byte. -/
theorem extendMovesMatch : Obligations.ExtendMovesMatch := by
  refine fun value s hwf hin => ⟨fun idx hentry hlowest => ?_, fun hnil => ?_⟩
  · exact exec_encExtend_of_found hin ((dictFind_eq_some_iff hwf.atMost idx).mpr ⟨hentry, hlowest⟩)
  · exact exec_encExtend_of_found hin (by rw [hnil]; exact dictFind_nil hwf value)

/-! ## The emission of ENC.EMIT and ENC.FINISH -/

/-- R133, R134: a code emitted at WIDTH bits, of which there is at least one, fits or faults at a first bit. -/
theorem emission_cases (code : Code) {bits : List Bool} {s : State} (h : WriterHolds bits s) :
    (BitsFit bits.length s.width.bits s ∧
      bwAppendBits code.toNat s.width.bits s = .ret () (withBits (bits ++ valueBits s.width.bits code.toNat) s) ∧
      WriterHolds (bits ++ valueBits s.width.bits code.toNat) (withBits (bits ++ valueBits s.width.bits code.toNat) s)) ∨
    (¬BitsFit bits.length s.width.bits s ∧ ∃ b cause, b < s.width.bits ∧ FirstFault bits.length b cause s ∧
      bwAppendBits code.toNat s.width.bits s =
        .raised { withBits (bits ++ valueBits b code.toNat) s with status := .fault, cause := cause } ∧
      WriterHolds (bits ++ valueBits b code.toNat) (withBits (bits ++ valueBits b code.toNat) s)) := by
  have hwidth : s.width.bits ≠ 0 := by have := (width_bits_pos s.width).1; omega
  rcases bwAppendBits_total code.toNat s.width.bits bits s h with ⟨hfit, happ⟩ | ⟨-, hnot, hfault⟩
  · exact .inl ⟨hfit.resolve_left hwidth, happ⟩
  · exact .inr ⟨hnot, hfault⟩

theorem encFinish_of_code {code : Code} {s : State} (hcode : s.encCode = some code) :
    encFinish s = bwAppendBits code.toNat s.width.bits s := by rw [encFinish, hcode]

/-- Settles O29: ENC.FINISH is the emission of ENC.code, where it is a Code, and nothing else. -/
theorem finishWritesLastCode : Obligations.FinishWritesLastCode := by
  refine fun s => ⟨fun hnil => ?_, fun code bits hcode hwriter => ?_⟩
  · have hfin : encFinish s = .ret () s := by rw [encFinish, hnil]
    exact congrArg Flow.done hfin
  · have hfin := encFinish_of_code hcode
    rcases emission_cases code hwriter with ⟨hfit, happ, hholds⟩ | ⟨hnot, b, cause, hb, hfirst, happ, hholds⟩
    · exact ⟨fun _ => ⟨_, congrArg Flow.done (hfin.trans happ), rfl, hholds, dstSameOutside_withBits hwriter _ _⟩,
        fun hnot => absurd hfit hnot⟩
    · exact ⟨fun hfit => absurd hfit hnot,
        fun _ => ⟨_, b, cause, congrArg Flow.done (hfin.trans happ), hb, hfirst, rfl, hholds⟩⟩

/-! ## ENC.EMIT -/

/-- R133's middle lines: what the width check and the add make of the dictionary and WIDTH of `s`. -/
structure TableGrown (code : Code) (value : Symbol) (s t : State) : Prop where
  epoch : s.dictSize = 4096 → t.dict = rootTable ∧ t.width = .w9
  wider : s.dictSize = 2 ^ s.width.bits → s.dictSize ≠ 4096 →
    t.dict = s.dict ++ [{ parent := some code, value := value }] ∧ t.width.bits = s.width.bits + 1
  same : s.dictSize ≠ 2 ^ s.width.bits →
    t.dict = s.dict ++ [{ parent := some code, value := value }] ∧ t.width = s.width

theorem encGrowAdd_grown (code : Code) (value : Symbol) {s : State} (hsize : s.dictSize ≤ 2 ^ s.width.bits) :
    TableGrown code value s (encGrowAdd code value s) := by
  rcases encGrowAdd_cases code value s hsize with ⟨hw, hfull, hg⟩ | ⟨hpow, w, hw, hg⟩ | ⟨hlt, hg⟩ <;> rw [hg]
  · have hpow : s.dictSize = 2 ^ s.width.bits := by rw [hfull, hw]; rfl
    exact ⟨fun _ => ⟨rfl, rfl⟩, fun _ hne => absurd hfull hne, fun hne => absurd hpow hne⟩
  · have hne : s.dictSize ≠ 4096 := by
      have hmax := (width_pow w).2
      rw [hw, Nat.pow_succ] at hmax
      omega
    exact ⟨fun hfull => absurd hfull hne, fun _ _ => ⟨rfl, hw⟩, fun hno => absurd hpow hno⟩
  · have hmax := (width_pow s.width).2
    exact ⟨fun hfull => by omega, fun hpow => by omega, fun _ => ⟨rfl, rfl⟩⟩

/-- The state after ENC.EMIT, of the one its emission has left (R133). -/
def afterEmission (code : Code) (value : Symbol) (s : State) : State :=
  nextInput { encGrowAdd code value s with encCode := some (rootCode value) }

theorem afterEmission_frame (code : Code) (value : Symbol) (s : State) :
    afterEmission code value s = { s with
      dict := (encGrowAdd code value s).dict, width := (encGrowAdd code value s).width,
      encCode := some (rootCode value), encInPos := s.encInPos + 1 } := by
  obtain ⟨d, w, hg⟩ := encGrowAdd_frame code value s
  rw [afterEmission, nextInput_eq, hg]

/-- R133 where its row is selected: the emission, and the later lines unless it faulted. -/
theorem exec_encEmit_of_code {value : Symbol} {code : Code} {s : State} (hin : s.encInPos.toNat < s.pInputBytes.toNat)
    (hcode : s.encCode = some code) (hfind : dictFind (some code) value s = none) :
    exec (.encEmit value) s =
      ((bwAppendBits code.toNat s.width.bits s).bind fun _ t => .ret () (afterEmission code value t)).done := by
  have hcont : encContinue s = true := decide_eq_true hin
  have harm : exec (.encEmit value) s = execEncEmit value s := rfl
  rw [harm, execEncEmit, if_pos hcont, hcode, hfind, encEmit, hcode]
  rfl

/-- Settles O28: the emission fits, and the later lines run on what it left, or it faults, and they do not. -/
theorem emitWritesCodeThenGrows : Obligations.EmitWritesCodeThenGrows := by
  intro value code bits s hin hcode hwriter hsizes hnew
  have hexec := exec_encEmit_of_code hin hcode (dictFind_eq_none_iff.mpr hnew)
  rcases emission_cases code hwriter with ⟨hfit, happ, hholds⟩ | ⟨hnot, b, cause, hb, hfirst, happ, hholds⟩ <;>
    rw [happ] at hexec
  · refine ⟨fun _ => ⟨_, hexec, ?_⟩, fun hnot => absurd hfit hnot⟩
    obtain ⟨hepoch, hwider, hsame⟩ :=
      encGrowAdd_grown code value (s := withBits (bits ++ valueBits s.width.bits code.toNat) s) hsizes.1
    rw [afterEmission_frame]
    exact ⟨rfl, hholds, dstSameOutside_withBits hwriter _ _, hepoch, hwider, hsame⟩
  · exact ⟨fun hfit => absurd hfit hnot, fun _ => ⟨_, b, cause, hexec, hb, hfirst, rfl, hholds⟩⟩

/-! ## What an encode depends on -/

/-- A command given while not BUSY runs (R171). -/
theorem exec_lzwEncode_of_notBusy {s : State} (hs : s.status ≠ .busy) :
    exec .lzwEncode s = (runEncode (beginCommand .encode s)).done := if_neg hs

/-- Settles O55: two encodes of the same bytes into the same capacity run in agreement, and so end with the same outcome. -/
theorem encodeDependsOnInputOnly : Obligations.EncodeDependsOnInputOnly := by
  intro s s' hs hs' hbytes hcap hsrc
  rw [exec_lzwEncode_of_notBusy hs, exec_lzwEncode_of_notBusy hs']
  exact (runEncode_agree s s' hbytes hcap hsrc).sameResult fun _ _ => EncResultAgree.same

/-! ## The round trip: the encode -/

/-- Every decode that is given `written` as its whole stream, and the length of `input` to expect, comes to its end with `input`
(R138). -/
def DecodesTo (input : List Symbol) (written : List Bool) : Prop :=
  ∀ u0, FreshDecode u0 → StreamPrefix written u0 → written.length = u0.brValidBits.toNat →
    input.length = u0.pExpectedBytes.toNat → ∃ u, DecodedTo u0 written.length input u ∧ decContinue u = false

theorem Flow.exists_ret_of_bind {α β : Type} {f : Flow α} {g : α → State → Flow β} {b : β} {t : State}
    (h : f.bind g = .ret b t) : ∃ a s, f = .ret a s ∧ g a s = .ret b t := by
  cases f with
  | ret a s => exact ⟨a, s, rfl, h⟩
  | raised s => cases h
  | stop r => cases h

/-- The three parts of an encode that has come to its end (R136). -/
theorem runEncode_eq_ret {s t : State} (h : runEncode (beginCommand .encode s) = .ret () t) :
    ∃ e e', encScan s.pInputBytes.toNat (encInit (beginCommand .encode s)) = .ret () e ∧ encFinish e = .ret () e' ∧
      encEnd e' = .ret () t := by
  obtain ⟨_, e', hwork, hend⟩ := Flow.exists_ret_of_bind h
  obtain ⟨_, e, hscan, hfin⟩ := Flow.exists_ret_of_bind hwork
  exact ⟨e, e', hscan, hfin, hend⟩

/-- A command that ends in DONE has raised nothing (R197). -/
theorem Flow.Ends.eq_ret_of_done {s t : State} {c : Command} {f : Flow Unit} (h : f.Ends s c) (hnext : f.done = .next t)
    (hdone : t.status = .done) : f = .ret () t := by
  cases f with
  | ret a u => cases hnext; rfl
  | raised u =>
    obtain ⟨-, hfault, -⟩ := h
    cases hnext
    rw [hfault] at hdone
    cases hdone
  | stop r => cases hnext

/-- An encode that comes to its end has written a stream that decodes to its input (R138). -/
theorem runEncode_decodesTo {input : List Symbol} {s t : State} (hinput : InputIs input s)
    (h : runEncode (beginCommand .encode s) = .ret () t) :
    ∃ written e, t = encodeDone written e ∧ WriterHolds written e ∧ e.command = .encode ∧ DecodesTo input written := by
  obtain ⟨e, e', hscan, hfin, hend⟩ := runEncode_eq_ret h
  have hstart := encStart_running s
  obtain ⟨hsafe, hlast, -, -⟩ := encScan_safe s.pInputBytes.toNat hstart (by simp)
  rw [hscan] at hsafe
  obtain ⟨hrun, hsame, -⟩ := hsafe
  have hstartInput : InputIs input (encInit (beginCommand .encode s)) := hinput
  obtain ⟨_, htracks⟩ := (encStart_tracks input s).scan _ hstart hstartInput hscan
  obtain ⟨written, rfl, hwriter, hdec⟩ := htracks.finish hrun (hstartInput.same hsame) (hlast e hscan) hfin
  rw [encEnd_holds hwriter] at hend
  obtain ⟨-, rfl⟩ := Flow.ret.inj hend
  exact ⟨written, withBits written e, rfl, hwriter, hrun.command, hdec⟩

/-! ## The round trip: the decode -/

/-- SRC that holds the packed buffer of a bit sequence holds the sequence as its first bits (R72, R78). -/
theorem streamPrefix_of_packBits {bits : List Bool} {u : State}
    (h : ∀ a, a < (packBits bits).length → u.src.read a = (packBits bits)[a]?) : StreamPrefix bits u := by
  intro j b hj
  have hlt : j < bits.length := (List.getElem?_eq_some_iff.mp hj).1
  have hbyte : j / 8 < (packBits bits).length := by rw [packBits_length]; omega
  rw [Nat.zero_add, Memory.bitAt, h _ hbyte, ← streamBits_getElem?, streamBits_packBits, List.getElem?_append_left hlt, hj]

/-- A decode whose stream is accepted and whose loop comes to its end (R156). -/
theorem runDecode_of_decodedTo {u v : State} {n : Nat} {out : List Symbol} (hopen : u.pCompBits.toNat ≤ 8 * u.pCompBytes.toNat)
    (h : DecodedTo (decFresh (beginCommand .decode u)) n out v) (hc : decContinue v = false)
    (hn : n ≤ u.pCompBits.toNat) : runDecode (beginCommand .decode u) = .ret () (decEnd v) := by
  have hinit : decInit (beginCommand .decode u) = .ret () (decFresh (beginCommand .decode u)) := by
    rcases decInit_cases (beginCommand .decode u) with ⟨hbad, -⟩ | ⟨-, hinit⟩
    · exact absurd hopen (Nat.not_le.mpr hbad)
    · exact hinit
  have hloop : decLoop (decFresh (beginCommand .decode u)).brValidBits.toNat (decFresh (beginCommand .decode u)) = .ret () v :=
    h.ends hc _ hn
  simp only [runDecode, hinit, Flow.bind, hloop]

/-- The host reads what the loop has written (R155). -/
theorem DecodedTo.hostBytes_decEnd {u0 v : State} {n : Nat} {out : List Symbol} (h : DecodedTo u0 n out v) :
    (decEnd v).rOutBytes.toNat = out.length ∧ hostBytes (decEnd v) = some out := by
  obtain ⟨bytes, hholds, -, hread⟩ := decEnd_hostBytes h.run
  have hbytes : bytes = out := Memory.ofBytes_injective _ _ (hholds.symm.trans h.holds)
  exact ⟨h.count.symm, hbytes ▸ hread⟩

/-- A stream that decodes to `input`, given to LZW.DECODE with its two lengths and the input's (R138, R157). -/
theorem DecodesTo.exec_lzwDecode {input : List Symbol} {written : List Bool} {u : State} (h : DecodesTo input written)
    (hu : u.status ≠ .busy) (hsrc : ∀ a, a < (packBits written).length → u.src.read a = (packBits written)[a]?)
    (hbits : u.pCompBits.toNat = written.length) (hbytes : u.pCompBytes.toNat = (packBits written).length)
    (hexpected : u.pExpectedBytes.toNat = input.length) :
    ∃ v, exec .lzwDecode u = .next v ∧ v.status = .done ∧ v.rOutBytes.toNat = input.length ∧
      hostBytes v = some input := by
  have hopen : u.pCompBits.toNat ≤ 8 * u.pCompBytes.toNat := by rw [hbits, hbytes, packBits_length]; omega
  have hstream : StreamPrefix written (decFresh (beginCommand .decode u)) := streamPrefix_of_packBits hsrc
  obtain ⟨v, hdec, hc⟩ := h _ ⟨u, hopen, rfl⟩ hstream hbits.symm hexpected.symm
  refine ⟨decEnd v, ?_, rfl, hdec.hostBytes_decEnd⟩
  rw [exec_lzwDecode_of_notBusy hu, runDecode_of_decodedTo hopen hdec hc hbits.ge]
  rfl

/-- Settles O56: with room for 12 bits a byte an encode ends in DONE, and the stream of any encode that does is one that decodes
to the input. -/
theorem decodeOfEncodeReturnsInput : Obligations.DecodeOfEncodeReturnsInput := by
  refine fun input s hs hsrc hlen => ⟨fun h32 hcap => ?_, fun t hexec hdone => ?_⟩
  · have hsupplied : SrcSupplied s.pInputBytes.toNat s := fun a ha => by
      rw [hlen] at ha
      rw [hsrc a ha, List.getElem?_eq_getElem ha]
      rfl
    rw [← hlen] at h32 hcap
    obtain ⟨t, hexec, hdone, -⟩ := encodeFitsTwelveBitsPerByte s hs hsupplied h32 hcap
    exact ⟨t, hexec, hdone⟩
  · rw [exec_lzwEncode_of_notBusy hs] at hexec
    have hret := (runEncode_ends _).eq_ret_of_done hexec hdone
    obtain ⟨written, e, rfl, hwriter, hcommand, hdec⟩ := runEncode_decodesTo ⟨hlen, hsrc⟩ hret
    obtain ⟨hbits, hbytes, hstream⟩ := encodeDone_hostBytes hwriter hcommand
    refine ⟨packBits written, hstream, fun u hu husrc hubits hubytes hexpected => ?_⟩
    exact hdec.exec_lzwDecode hu husrc (by rw [hubits, hbits]) (by rw [hubytes, hbytes]) hexpected

end Sys2Proof.Machine
end

section
/-! PROOFS for 44_decoder.md: DEC.INIT (R146), the fetch (R148), the three actions on a word (R149, R151, R152), the output and
the table (R153, R154), and the output that is cut (R159 item a). -/

namespace Sys2Proof.Machine

/-! ## DEC.INIT and DEC.FETCH -/

/-- Settles O30: BR.OPEN raises before anything else is done, or it does not and the fresh state follows. -/
theorem decInitState : Obligations.DecInitState := by
  intro s
  rcases decInit_cases s with ⟨hbad, hinit⟩ | ⟨hopen, hinit⟩
  · exact ⟨fun _ => congrArg Flow.done hinit, fun hopen => absurd hbad (Nat.not_lt.mpr hopen)⟩
  · exact ⟨fun hbad => absurd hbad (Nat.not_lt.mpr hopen),
      fun _ => ⟨decFresh s, congrArg Flow.done hinit, rfl, rootTable_length, dictWf_rootTable.roots⟩⟩

/-- R148 on bits that SRC holds. -/
theorem decFetch_of_srcHolds {bits : List Bool} {s : State} (hlen : bits.length = fetchLength s.width.bits s)
    (hbits : SrcHolds s.brBitsRead.toNat bits s) :
    decFetch s = .ret () (wordFetched (fetchedCode (bitsValue bits)) s) := by
  rw [decFetch_eq, nextWordBits, srcBits_of_srcHolds _ _ bits s hlen hbits]

/-- Settles O31: a word of at most WIDTH bits fits in DEC.code, and BR.bitsRead moves past it without a wrap. -/
theorem fetchReadsCode : Obligations.FetchReadsCode := by
  intro bits s hlen hbits
  have hfetch : bits.length = fetchLength s.width.bits s := hlen
  obtain ⟨hcode, -⟩ := fetchedCode_toNat bits s.width (hlen ▸ Nat.min_le_left _ _)
  exact ⟨_, congrArg Flow.done (decFetch_of_srcHolds hfetch hbits), rfl, hcode, by rw [wordFetched_position, hfetch]⟩

/-! ## DEC.WRITE and DEC.UPDATE -/

/-- Settles O32. -/
theorem writeCutsAtExpectedBytes : Obligations.WriteCutsAtExpectedBytes := by
  intro bytes s
  obtain ⟨d, n, hframe⟩ := decWrite_frame bytes s
  exact ⟨decWrite bytes s, rfl, by rw [hframe], decWrite_appended bytes s⟩

/-- Settles O33. -/
theorem updateAddsThenGrows : Obligations.UpdateAddsThenGrows := by
  intro prev s hp hroom
  obtain ⟨t, hupdate, hframe, htable⟩ := decUpdate_updated hp hroom
  exact ⟨t, congrArg Flow.done hupdate, hframe, htable⟩

/-! ## DEC.LIT, DEC.KWK and DEC.REF: the class of the word selects the row -/

theorem exec_decLit_of_class {s : State} (h : classOf s s.decCode = .lit) : exec .decLit s = .next (decLit s) := if_pos h

theorem exec_decKwk_of_class {s : State} (h : classOf s s.decCode = .kwk) : exec .decKwk s = (decKwk s).done := if_pos h

theorem exec_decRef_of_class {s : State} (h : classOf s s.decCode = .ref) : exec .decRef s = (decRef s).done := if_pos h

/-- Settles O34: the class is LIT. -/
theorem litWritesByte : Obligations.LitWritesByte := by
  intro s hnil hlt
  exact ⟨decLit s, exec_decLit_of_class ((classOf_lit s s.decCode).mpr ⟨hnil, hlt⟩), decLit_step s⟩

/-- Settles O35: the class is KWK, and the walk from DEC.prevCode ends at a root. -/
theorem kwkWritesPreviousAndFirst : Obligations.KwkWritesPreviousAndFirst := by
  intro prev s hwf hp hlt hroom heq
  have hcls : classOf s s.decCode = .kwk := (classOf_kwk s _).mpr ⟨by rw [hp]; exact Option.some_ne_none prev, heq⟩
  obtain ⟨t, bytes, first, hkwk, hseq, hfirst, hstep⟩ := decKwk_step hwf hp hlt hroom
  exact ⟨t, bytes, first, by rw [exec_decKwk_of_class hcls, hkwk, Flow.done], hseq, hfirst,
    hstep.frame, hstep.output, hstep.table⟩

/-- Settles O36: the class is REF, and the walk from DEC.code ends at a root. -/
theorem refWritesSequence : Obligations.RefWritesSequence := by
  intro prev s hwf hp hroom hlt
  have hcls : classOf s s.decCode = .ref := (classOf_ref s _).mpr ⟨by rw [hp]; exact Option.some_ne_none prev, hlt⟩
  obtain ⟨t, bytes, first, href, hseq, hfirst, hstep⟩ := decRef_step hwf hp hroom hlt
  exact ⟨t, bytes, first, by rw [exec_decRef_of_class hcls, href, Flow.done], hseq, hfirst,
    hstep.frame, hstep.output, hstep.table⟩

/-! ## The output that is cut -/

/-- R175: the host reads a result while DONE only. -/
theorem status_of_hostBytes {t : State} {bytes : List Symbol} (h : hostBytes t = some bytes) : t.status = .done := by
  by_contra hne
  rw [hostBytes, if_neg hne] at h
  cases h

/-- A decode comes to its end where its stream is accepted and the loop of R156 comes to its own. -/
theorem runDecode_eq_ret_iff {s t : State} :
    runDecode (beginCommand .decode s) = .ret () t ↔ s.pCompBits.toNat ≤ 8 * s.pCompBytes.toNat ∧
      ∃ v, decLoop s.pCompBits.toNat (decFresh (beginCommand .decode s)) = .ret () v ∧ t = decEnd v := by
  rcases decInit_cases (beginCommand .decode s) with ⟨hbad, hinit⟩ | ⟨hopen, hinit⟩
  · rw [runDecode, hinit]
    exact ⟨nofun, fun ⟨hopen, _⟩ => absurd hbad (Nat.not_lt.mpr hopen)⟩
  · have hrun : runDecode (beginCommand .decode s) =
        (decLoop s.pCompBits.toNat (decFresh (beginCommand .decode s))).bind fun _ v => .ret () (decEnd v) := by
      rw [runDecode, hinit]; rfl
    rw [hrun]
    constructor
    · intro h
      obtain ⟨_, v, hloop, hend⟩ := Flow.exists_ret_of_bind h
      exact ⟨hopen, v, hloop, (Flow.ret.inj hend).2.symm⟩
    · rintro ⟨-, v, hloop, rfl⟩
      rw [hloop, Flow.bind]

theorem exec_lzwDecode_of_loop {s v : State} (hs : s.status ≠ .busy) (hopen : s.pCompBits.toNat ≤ 8 * s.pCompBytes.toNat)
    (h : decLoop s.pCompBits.toNat (decFresh (beginCommand .decode s)) = .ret () v) :
    exec .lzwDecode s = .next (decEnd v) := by
  rw [exec_lzwDecode_of_notBusy hs, runDecode_eq_ret_iff.mpr ⟨hopen, v, h, rfl⟩, Flow.done]

/-- The loop of an accepted stream ends in a well-formed state, with the host's P_EXPECTED_BYTES (R35, R41). -/
theorem decLoop_running {s v : State} (hopen : s.pCompBits.toNat ≤ 8 * s.pCompBytes.toNat)
    (h : decLoop s.pCompBits.toNat (decFresh (beginCommand .decode s)) = .ret () v) :
    Running .decode v ∧ v.pExpectedBytes = s.pExpectedBytes := by
  obtain ⟨hsafe, -⟩ := decLoop_safe s.pCompBits.toNat (decStart_running s hopen) (Nat.le_add_left _ _)
  rw [h] at hsafe
  obtain ⟨hrun, hsame, -⟩ := hsafe
  exact ⟨hrun, hsame.pExpectedBytes⟩

/-- The host reads what DST holds, DEC.bytesWritten bytes (R155). -/
theorem Running.hostBytes_decEnd {v : State} {out : List Symbol} (h : Running .decode v) (hholds : DstHolds out v) :
    hostBytes (decEnd v) = some out ∧ out.length = v.decBytesWritten.toNat := by
  obtain ⟨bytes, hbytes, hcount, hread⟩ := decEnd_hostBytes h
  obtain rfl := Memory.ofBytes_injective _ _ (hholds.symm.trans hbytes)
  exact ⟨hread, hcount⟩

/-- R159 item a: the loop of the same command with a P_EXPECTED_BYTES of n, not above the one that it had. -/
theorem decLoop_expectedBytes {s v : State} {out : List Symbol} {n : Count32}
    (hopen : s.pCompBits.toNat ≤ 8 * s.pCompBytes.toNat) (hn : n.toNat ≤ s.pExpectedBytes.toNat)
    (h : decLoop s.pCompBits.toNat (decFresh (beginCommand .decode s)) = .ret () v) (hholds : DstHolds out v) :
    ∃ w, decLoop s.pCompBits.toNat (decFresh (beginCommand .decode { s with pExpectedBytes := n })) = .ret () w ∧
      Running .decode w ∧ DstHolds (out.take n.toNat) w := by
  have hsame : SameButOutput (decFresh (beginCommand .decode s))
      (decFresh (beginCommand .decode { s with pExpectedBytes := n })) := ⟨rfl, rfl, rfl, rfl, rfl, rfl⟩
  obtain ⟨full, w, hfull, hloop, hrun, -, hcut⟩ := decLoop_truncated s.pCompBits.toNat hsame (decStart_running s hopen)
    (decStart_running _ hopen) hn (out := []) rfl rfl (congrArg Memory.ofBytes List.take_nil.symm) h (Nat.le_add_left _ _)
  obtain rfl := Memory.ofBytes_injective _ _ (hholds.symm.trans hfull)
  exact ⟨w, hloop, hrun, hcut⟩

/-- Settles O58: the bytes fill no more than P_EXPECTED_BYTES, so N is not above it, and the loop with N goes through the same
steps until N bytes are written. -/
theorem outputTruncationGivesFirstBytes : Obligations.OutputTruncationGivesFirstBytes := by
  intro s t bytes n hs hexec hbytes hn
  rw [exec_lzwDecode_of_notBusy hs] at hexec
  have hret := (runDecode_ends _).eq_ret_of_done hexec (status_of_hostBytes hbytes)
  obtain ⟨hopen, v, hloop, rfl⟩ := runDecode_eq_ret_iff.mp hret
  obtain ⟨hrun, hexpected⟩ := decLoop_running hopen hloop
  obtain ⟨out, hholds, hcount, hread⟩ := decEnd_hostBytes hrun
  obtain rfl : out = bytes := Option.some.inj (hread.symm.trans hbytes)
  have hle : n.toNat ≤ s.pExpectedBytes.toNat := by
    have hroom := (hrun.decoder rfl).out
    rw [hexpected] at hroom
    omega
  obtain ⟨w, hloop', hrun', hholds'⟩ := decLoop_expectedBytes hopen hle hloop hholds
  obtain ⟨hread', hcount'⟩ := hrun'.hostBytes_decEnd hholds'
  rw [List.length_take_of_le hn] at hcount'
  exact ⟨decEnd w, exec_lzwDecode_of_loop hs hopen hloop', rfl, BitVec.eq_of_toNat_eq hcount'.symm, hread'⟩

end Sys2Proof.Machine
end

section
/-! PROOFS for 45_host_interface.md: the ends of the two commands (R171, R172), a command refused while BUSY (R176), what a
command starts from (R198, R211), and what the steps do with STATUS and with the results of the last command (R174, R175). -/

namespace Sys2Proof.Machine

/-! ## A command while BUSY, and the first lines of a command -/

theorem exec_lzwEncode_of_busy {s : State} (hs : s.status = .busy) : exec .lzwEncode s = .next s := if_pos hs

theorem exec_lzwDecode_of_busy {s : State} (hs : s.status = .busy) : exec .lzwDecode s = .next s := if_pos hs

theorem giveCommand_of_busy {s : State} (hs : s.status = .busy) (form : Form) (c : Command) :
    giveCommand form c s = .next s := by
  cases form with
  | transaction =>
    cases c with
    | encode => exact exec_lzwEncode_of_busy hs
    | decode => exact exec_lzwDecode_of_busy hs
  | stepwise => cases c <;> exact if_pos hs

/-- Settles O44: each form of each command begins with the test of R176. -/
theorem commandWhileBusyChangesNothing : Obligations.CommandWhileBusyChangesNothing := fun _ hs =>
  ⟨exec_lzwEncode_of_busy hs, exec_lzwDecode_of_busy hs, giveCommand_of_busy hs⟩

/-- Settles O45: ENC.INIT, and DEC.INIT where BR.OPEN lets the parameters through, run on the state after the command's first
lines. -/
theorem stepwiseCommandStartsFresh : Obligations.StepwiseCommandStartsFresh := by
  refine fun s hs => ⟨⟨_, startStepwise_encode hs, rfl, rfl, rfl, rfl, rfl, rfl, rfl, rfl⟩, fun hopen => ?_⟩
  have hgive := startStepwise_decode hs
  rcases decInit_cases (beginCommand .decode s) with ⟨hbad, -⟩ | ⟨-, hinit⟩
  · exact absurd hopen (Nat.not_le.mpr hbad)
  · rw [hinit] at hgive
    exact ⟨_, hgive, rfl, rfl, rfl, rfl, rfl, rfl, rfl, rfl, rfl, rfl⟩

/-! ## The ends of the two commands -/

theorem HostSame.fields {s t : State} (h : HostSame s t) :
    t.src = s.src ∧ t.pInputBytes = s.pInputBytes ∧ t.pCompBytes = s.pCompBytes ∧ t.pCompBits = s.pCompBits ∧
      t.pExpectedBytes = s.pExpectedBytes ∧ t.encDstCap = s.encDstCap ∧ t.inbox = s.inbox :=
  ⟨h.src, h.pInputBytes, h.pCompBytes, h.pCompBits, h.pExpectedBytes, h.encDstCap, h.inbox⟩

/-- An end state of an encode in DONE has the result registers that R171 names, and the host reads them. -/
theorem encodeDone_results {u : State} {written : List Bool} (hrun : Running .encode u)
    (hw : WriterHolds written (withBits written u)) {t : State} (ht : t = encodeDone written (withBits written u)) :
    t.status = .done ∧ t.cause = .none ∧ t.rCompBytes.toNat = (t.rCompBits.toNat + 7) / 8 ∧
      hostCompBits t = some t.rCompBits ∧ hostCompBytes t = some t.rCompBytes ∧
      ∃ bytes, hostBytes t = some bytes ∧ bytes.length = t.rCompBytes.toNat := by
  obtain ⟨hbits, hbytes, hread⟩ := encodeDone_hostBytes hw hrun.command
  subst ht
  refine ⟨rfl, hrun.cause, ?_, if_pos ⟨rfl, hrun.command⟩, if_pos ⟨rfl, hrun.command⟩, _, hread, hbytes.symm⟩
  rw [hbits, hbytes, packBits_length]

/-- Settles O42: the supplied SRC rules out the stop, and at most 12 bits for each byte of an empty input is no bit. -/
theorem encodeCommandEnds : Obligations.EncodeCommandEnds := by
  intro s hs hsrc
  rw [exec_lzwEncode_of_notBusy hs]
  rcases runEncode_cases s with ⟨u, written, hu, hrun, hsame, -, hw, hc, hlen⟩ | ⟨t, ht, hfault, hcause⟩ | ⟨r, -, hno⟩
  · obtain ⟨hdone, hnone, hceil, hbits, hbytes, hread⟩ := encodeDone_results hrun hw rfl
    have hempty : s.pInputBytes = 0 → (encodeDone written (withBits written u)).rCompBits = 0 := fun h0 => by
      have hle := (hrun.encoder rfl).finished_le hc
      rw [← hlen, hsame.pInputBytes, h0] at hle
      exact congrArg (BitVec.ofNat 32) (Nat.le_zero.mp hle)
    rw [hu]
    exact ⟨_, rfl, .inl ⟨hdone, hnone, hceil, hbits, hbytes, hread, hempty⟩, hsame.fields⟩
  · rw [ht]
    exact ⟨t, rfl, .inr ⟨hfault.status, hcause⟩, hfault.same.fields⟩
  · exact absurd hsrc hno

/-- An end state of a decode in DONE has the result register that R172 names, and the host reads it. -/
theorem decEnd_results {u : State} (hrun : Running .decode u) {t : State} (ht : t = decEnd u) :
    t.status = .done ∧ t.cause = .none ∧ t.rOutBytes.toNat ≤ u.pExpectedBytes.toNat ∧ hostOutBytes t = some t.rOutBytes ∧
      ∃ bytes, hostBytes t = some bytes ∧ bytes.length = t.rOutBytes.toNat := by
  obtain ⟨bytes, -, hcount, hread⟩ := decEnd_hostBytes hrun
  subst ht
  exact ⟨rfl, hrun.cause, (hrun.decoder rfl).out, if_pos ⟨rfl, hrun.command⟩, bytes, hread, hcount⟩

/-- Settles O43: BR.OPEN refuses the parameters or the loop runs to one of its ends, of which the supplied SRC rules out the
stop. -/
theorem decodeCommandEnds : Obligations.DecodeCommandEnds := by
  intro s hs hsrc
  rw [exec_lzwDecode_of_notBusy hs]
  rcases runDecode_cases s with
    ⟨hbad, hu⟩ | ⟨hopen, ⟨u, hu, hrun, hsame, -⟩ | ⟨t, ht, hfault, hcause, hpos⟩ | ⟨r, -, hno⟩⟩
  · rw [hu]
    exact ⟨_, rfl, .inl ⟨hbad, rfl, rfl⟩, rfl, rfl, rfl, rfl, rfl, rfl, rfl⟩
  · obtain ⟨hdone, hnone, hout, hreg, hread⟩ := decEnd_results hrun rfl
    rw [hsame.pExpectedBytes] at hout
    rw [hu]
    exact ⟨_, rfl, .inr ⟨hopen, .inl ⟨hdone, hnone, hout, hreg, hread⟩⟩, hsame.fields⟩
  · rw [ht]
    exact ⟨t, rfl, .inr ⟨hopen, .inr ⟨hfault.status, hcause, hpos⟩⟩, hfault.same.fields⟩
  · exact absurd hsrc hno

/-! ## STATUS along a step -/

/-- An operation inside a command leaves STATUS as it is or takes a fault (R197). -/
theorem Flow.Keeps.status_done {s t : State} {f : Flow Unit} (h : f.Keeps s) (ht : f.done = .next t) :
    t.status = s.status ∨ t.status = .fault := by
  cases f with
  | stop r => cases ht
  | raised u =>
    cases ht
    obtain ⟨-, hstatus, -⟩ := h
    exact .inr hstatus
  | ret a u =>
    cases ht
    obtain ⟨-, hstatus, -⟩ := h
    exact .inl hstatus

/-- The end of a command is DONE or FAULT (R174). -/
theorem Flow.Ends.status_done {s t : State} {c : Command} {f : Flow Unit} (h : f.Ends s c) (ht : f.done = .next t) :
    t.status = .done ∨ t.status = .fault := by
  cases f with
  | stop r => cases ht
  | raised u =>
    cases ht
    obtain ⟨-, hstatus, -⟩ := h
    exact .inr hstatus
  | ret a u =>
    cases ht
    obtain ⟨-, hstatus, -⟩ := h
    exact .inl hstatus

/-- A step of a running encode: it goes on, or it ends. -/
theorem stepEncode_status {s t : State} (hs : s.status = .busy) (ht : stepEncode s = .next t) :
    t.status = s.status ∨ t.status = .done ∨ t.status = .fault := by
  cases hc : encContinue s with
  | true =>
    rw [stepEncode_continue s hc] at ht
    exact ((encByte_keeps s).status_done ht).imp_right .inr
  | false =>
    rw [stepEncode_finish s hc] at ht
    have hkeeps := encFinish_keeps s
    cases hf : encFinish s with
    | stop r => rw [hf] at ht; cases ht
    | raised u =>
      rw [hf] at ht hkeeps
      obtain ⟨-, hfault, -⟩ := hkeeps
      simp only [hfault, reduceCtorEq, if_false] at ht
      cases ht
      exact .inr (.inr hfault)
    | ret a u =>
      rw [hf] at ht hkeeps
      obtain ⟨-, hbusy, -⟩ := hkeeps
      simp only [hbusy, hs, if_true] at ht
      exact .inr ((encEnd_ends u).status_done ht)

/-- A step of a running decode: it goes on, or it ends. -/
theorem stepDecode_status {s t : State} (ht : stepDecode s = .next t) :
    t.status = s.status ∨ t.status = .done ∨ t.status = .fault := by
  cases hc : decContinue s with
  | true =>
    rw [stepDecode_continue s hc] at ht
    exact ((decStep_keeps s).status_done ht).imp_right .inr
  | false =>
    rw [stepDecode_end s hc] at ht
    cases ht
    exact .inr (.inl rfl)

/-- The codec's own step leaves STATUS as it is, or ends the command that runs (R174). -/
theorem codecStep_status {s t : State} (ht : codecStep s = .next t) :
    t.status = s.status ∨ s.status = .busy ∧ (t.status = .done ∨ t.status = .fault) := by
  by_cases hs : s.status = .busy
  · have hstatus : t.status = s.status ∨ t.status = .done ∨ t.status = .fault := by
      rw [codecStep_busy s hs] at ht
      cases hc : s.command with
      | encode => rw [hc] at ht; exact stepEncode_status hs ht
      | decode => rw [hc] at ht; exact stepDecode_status ht
    exact hstatus.imp_right (.intro hs)
  · rw [codecStep_idle s hs] at ht
    cases ht
    exact .inl rfl

/-- A command given while not BUSY: one transaction ends it, and in the step-by-step form it runs or DEC.INIT refuses its
parameters (R171, R172, R192). -/
theorem giveCommand_status {s t : State} {form : Form} {c : Command} (hs : s.status ≠ .busy)
    (ht : giveCommand form c s = .next t) :
    form = .stepwise ∧ t.status = .busy ∨ t.status = .done ∨ t.status = .fault := by
  cases form with
  | transaction =>
    cases c with
    | encode => exact .inr ((runEncode_ends _).status_done ((exec_lzwEncode_of_notBusy hs).symm.trans ht))
    | decode => exact .inr ((runDecode_ends _).status_done ((exec_lzwDecode_of_notBusy hs).symm.trans ht))
  | stepwise =>
    cases c with
    | encode =>
      cases (startStepwise_encode hs).symm.trans ht
      exact .inl ⟨rfl, rfl⟩
    | decode =>
      exact ((decInit_keeps _).status_done ((startStepwise_decode hs).symm.trans ht)).imp (.intro rfl) .inr

/-- `t` is `s` but for the host's side. -/
def OnlyHostSide (s t : State) : Prop :=
  t = { s with
    src := t.src, pInputBytes := t.pInputBytes, pCompBytes := t.pCompBytes, pCompBits := t.pCompBits,
    pExpectedBytes := t.pExpectedBytes, encDstCap := t.encDstCap, inbox := t.inbox }

theorem OnlyHostSide.status {s t : State} (h : OnlyHostSide s t) : t.status = s.status := by rw [h]

theorem onlyHostSide_setParam (p : Param) (v : Count32) (s : State) : OnlyHostSide s (setParam p v s) := by
  cases p <;> rfl

/-- What a move of the host can do: write the host's side (R35, R65, R212), reset the codec (R210), or give a command (R170). -/
theorem hostMove_cases {s t : State} {m : HostMove} (ht : hostMove m s = .next t) :
    OnlyHostSide s t ∨ (m = .hwReset ∧ t = hardwareReset s) ∨
      ∃ form c, m = .give form c ∧ giveCommand form c s = .next t := by
  cases m with
  | wait =>
    cases ht
    exact .inl rfl
  | setParam p v =>
    obtain ⟨-, rfl⟩ := whenNotBusy_next ht
    exact .inl (onlyHostSide_setParam p v s)
  | placeSrc bytes =>
    obtain ⟨-, rfl⟩ := whenNotBusy_next ht
    exact .inl rfl
  | supplyDst cap =>
    obtain ⟨-, rfl⟩ := whenNotBusy_next ht
    exact .inl rfl
  | give form c => exact .inr (.inr ⟨form, c, rfl, ht⟩)
  | hwReset =>
    cases ht
    exact .inr (.inl ⟨rfl, rfl⟩)

/-- What a step can be: the codec's own, or the host's waiting move, taken off the list. -/
theorem step_cases {s t : State} (ht : step s = .next t) :
    ((s.inbox = [] ∨ ∃ rest, s.inbox = .wait :: rest) ∧ ∃ u, OnlyHostSide s u ∧ codecStep u = .next t) ∨
    OnlyHostSide s t ∨
    (∃ rest, s.inbox = .hwReset :: rest ∧ t = hardwareReset { s with inbox := rest }) ∨
    (∃ form c rest, s.inbox = .give form c :: rest ∧ ∃ u, OnlyHostSide s u ∧ giveCommand form c u = .next t) := by
  cases hi : s.inbox with
  | nil =>
    rw [step_codec s hi] at ht
    exact .inl ⟨.inl rfl, s, rfl, ht⟩
  | cons m rest =>
    by_cases hm : m = .wait
    · subst hm
      rw [step_noMove (.inr ⟨rest, hi, rfl⟩)] at ht
      exact .inl ⟨.inr ⟨rest, rfl⟩, { s with inbox := rest }, rfl, ht⟩
    · rw [step_move hi hm] at ht
      rcases hostMove_cases ht with hside | ⟨rfl, hreset⟩ | ⟨form, c, rfl, hgive⟩
      · exact .inr (.inl hside)
      · exact .inr (.inr (.inl ⟨rest, rfl, hreset⟩))
      · exact .inr (.inr (.inr ⟨form, c, rest, rfl, { s with inbox := rest }, rfl, hgive⟩))

/-- Settles O47: the codec's own step and a command have their own ends, a reset is IDLE, and every other move leaves STATUS
alone; so does a command while BUSY. -/
theorem statusTransitions : Obligations.StatusTransitions := by
  intro s t ht
  rcases step_cases ht with ⟨hmove, u, hside, hu⟩ | hside | ⟨rest, hi, rfl⟩ | ⟨form, c, rest, hi, u, hside, hgive⟩
  · have hend := codecStep_status hu
    rw [hside.status] at hend
    exact hend.imp_right fun ⟨hbusy, hstatus⟩ => .inr (.inr ⟨hbusy, hmove, hstatus⟩)
  · exact .inl hside.status
  · exact .inr (.inl ⟨rest, hi, rfl⟩)
  · by_cases hs : s.status = .busy
    · cases (giveCommand_of_busy (hside.status.trans hs) form c).symm.trans hgive
      exact .inl hside.status
    · have hstatus := giveCommand_status (by rwa [hside.status]) hgive
      exact .inr (.inr (.inl ⟨form, c, rest, hi, hs, hstatus⟩))

/-! ## The results between two commands -/

/-- The host reads the results from fields that are not its own side (R175). -/
theorem OnlyHostSide.results {s t : State} (h : OnlyHostSide s t) :
    t.cause = s.cause ∧ hostBytes t = hostBytes s ∧ hostCompBits t = hostCompBits s ∧ hostCompBytes t = hostCompBytes s ∧
      hostOutBytes t = hostOutBytes s ∧ ∀ a, hostByte t a = hostByte s a := by
  rw [h]
  exact ⟨rfl, rfl, rfl, rfl, rfl, fun _ => rfl⟩

/-- While no command runs, a step that is neither a reset nor a command changes the host's side only (R205). -/
theorem step_onlyHostSide {s t : State} (hs : s.status ≠ .busy) (ht : step s = .next t)
    (hmoves : ∀ m rest, s.inbox = m :: rest → m ≠ .hwReset ∧ ∀ form c, m ≠ .give form c) : OnlyHostSide s t := by
  rcases step_cases ht with ⟨-, u, hside, hu⟩ | hside | ⟨rest, hi, -⟩ | ⟨form, c, rest, hi, -⟩
  · cases (codecStep_idle u (by rwa [hside.status])).symm.trans hu
    exact hside
  · exact hside
  · exact absurd rfl (hmoves _ rest hi).1
  · exact absurd rfl ((hmoves _ rest hi).2 form c)

/-- Settles O48: no such step writes a field from which the host reads a result. -/
theorem resultsStayUntilNextCommand : Obligations.ResultsStayUntilNextCommand := by
  intro s t hs ht hmoves
  have hside := step_onlyHostSide (by rw [hs]; nofun) ht hmoves
  exact ⟨hside.status.trans hs, hside.results⟩

end Sys2Proof.Machine
end

section
/-! PROOFS for 60_exceptions.md: fault entry (R194, R197), and the two classes of code words that end a decode in a fault (R189,
R190). -/

namespace Sys2Proof.Machine

/-! ## Fault entry -/

/-- R36, R175: outside DONE the host has no result to read. -/
theorem noResult_of_status {t : State} (h : t.status ≠ .done) :
    hostBytes t = none ∧ hostCompBits t = none ∧ hostCompBytes t = none ∧ hostOutBytes t = none ∧
      ∀ a, hostByte t a = none :=
  ⟨if_neg h, if_neg (h ·.1), if_neg (h ·.1), if_neg (h ·.1), fun _ => if_neg (h ·.1)⟩

/-- Settles O46: each fault's record is its case of fault entry, and STATUS FAULT is not DONE. -/
theorem faultEntryWritesStatusAndCause : Obligations.FaultEntryWritesStatusAndCause := by
  intro f s
  have hnone := noResult_of_status (t := raiseFault f s) (by rw [raiseFault_status]; decide)
  cases f with
  | badLiteral code position => exact ⟨rfl, rfl, rfl, hnone⟩
  | codeOutOfRange code position => exact ⟨rfl, rfl, rfl, hnone⟩
  | outputOverflow => exact ⟨rfl, rfl, rfl, hnone⟩
  | badParameters => exact ⟨rfl, rfl, rfl, hnone⟩
  | bitCountOverflow => exact ⟨rfl, rfl, rfl, hnone⟩

/-! ## Code words that fault -/

/-- The row CW9.BADLIT is the fetch and BadLiteral with the word and the position of its first bit (R150, R189). -/
theorem exec_badlitRow {s : State} {c : BitVec 8} (hw : s.width = .w9) (h : classOf s (badlitCode c) = .badlit) :
    exec (.cw9Badlit c) s =
      .next (raiseFault (.badLiteral (badlitCode c) s.brBitsRead) (wordFetched (badlitCode c) s)) := by
  have hrow : exec (.cw9Badlit c) s = codeWord s.width .badlit (badlitCode c) s := by rw [hw]; rfl
  rw [hrow, codeWord_of_class h, decClassStep, wordFetched_decCode, classOf_wordFetched, h, Flow.done]

/-- The OOR row of the current WIDTH is the fetch and CodeOutOfRange with the word and the position of its first bit (R150,
R190). -/
theorem exec_oorRow {s : State} {c : Code} (h : classOf s c = .oor) :
    exec (oorRow s.width c) s = .next (raiseFault (.codeOutOfRange c s.brBitsRead) (wordFetched c s)) := by
  rw [exec_oorRow_eq, codeWord_of_class h, decClassStep, wordFetched_decCode, classOf_wordFetched, h, Flow.done]

/-- Settles O38: the class of 256 + c without a previous code is BADLIT, and BadLiteral behind the fetch is the row. -/
theorem badLiteralWordFaults : Obligations.BadLiteralWordFaults := by
  intro c s hw hnil
  have hcode : (badlitCode c).toNat = 256 + c.toNat := badlitCode_toNat c
  have hcls : classOf s (badlitCode c) = .badlit := (classOf_badlit s _).mpr ⟨hnil, by omega⟩
  refine ⟨_, exec_badlitRow hw hcls, rfl, rfl, hcode, hcode, ?_⟩
  rw [raiseFault_brBitsRead, wordFetched_position, hw]; rfl

/-- Settles O39: the class of a later code above DICT.size is OOR, and CodeOutOfRange behind the fetch is the row. -/
theorem outOfRangeWordFaults : Obligations.OutOfRangeWordFaults := by
  intro c s hprev hlt
  refine ⟨_, exec_oorRow ((classOf_oor s c).mpr ⟨hprev, hlt⟩), rfl, rfl, ?_⟩
  rw [raiseFault_brBitsRead, wordFetched_position]; rfl

end Sys2Proof.Machine
end

section
/-! PROOFS for 70_reset_and_hazards.md: the registers after a hardware reset (R42, R210), and a command after any history
(R211). -/

namespace Sys2Proof.Machine

/-! ## Hardware reset -/

/-- Settles O1: the reset's next state holds the fresh registers, and its STATUS, IDLE, keeps the codec from stepping. -/
theorem hardwareResetGivesFreshRegisters : Obligations.HardwareResetGivesFreshRegisters := by
  intro s
  have hwaits : (hardwareReset s).inbox = [] → ∀ n, core.run n (hardwareReset s) = .next (hardwareReset s) :=
    fun hinbox => run_idle _ hinbox nofun
  exact ⟨hardwareReset s, rfl, rootTable_length, dictWf_rootTable.roots, rfl, rfl, rfl, rfl, rfl, rfl, rfl, rfl, rfl, rfl, rfl,
    hwaits⟩

/-! ## A command after any history -/

/-- R100, R146: a decode whose parameters are refused is BadParameters at its start. -/
theorem runDecode_badParameters {s : State} (hbad : 8 * s.pCompBytes.toNat < s.pCompBits.toNat) :
    runDecode (beginCommand .decode s) = .raised (raiseFault .badParameters (beginCommand .decode s)) := by
  rcases runDecode_cases s with ⟨_, hfault⟩ | ⟨hok, _⟩
  · exact hfault
  · exact absurd hbad (Nat.not_lt.mpr hok)

/-- Settles O53: an encode depends on part of what the two states share (O55). So does a decode whose parameters are accepted
(O54), and where they are refused, both commands end in BadParameters. -/
theorem commandIgnoresHistory : Obligations.CommandIgnoresHistory := by
  intro s s' hs hs' hsrc hinput hbytes hbits hexpected hcap
  refine ⟨encodeDependsOnInputOnly s s' hs hs' hinput hcap fun a _ => by rw [hsrc], ?_⟩
  by_cases hok : s.pCompBits.toNat ≤ 8 * s.pCompBytes.toNat
  · have hok' : s'.pCompBits.toNat ≤ 8 * s'.pCompBytes.toNat := by rwa [← hbits, ← hbytes]
    exact decodeDependsOnValidBitsOnly s s' hs hs' hbits hexpected hok hok' fun n _ => by rw [hsrc]
  · have hbad : 8 * s.pCompBytes.toNat < s.pCompBits.toNat := Nat.not_le.mp hok
    have hbad' : 8 * s'.pCompBytes.toNat < s'.pCompBits.toNat := by rwa [← hbits, ← hbytes]
    have hagree : (runDecode (beginCommand .decode s)).Agree DecResultAgree (runDecode (beginCommand .decode s')) := by
      rw [runDecode_badParameters hbad, runDecode_badParameters hbad']
      exact raiseFault_agree _ _ _
    rw [exec_lzwDecode_of_notBusy hs, exec_lzwDecode_of_notBusy hs']
    exact hagree.sameResult fun _ _ => DecResultAgree.same

end Sys2Proof.Machine
end
